-- ==== Sys2Proof/Word.lean ====
section
/-! DEFINITION. The word types of CQ6502 (spec/00_scope.md R6, R8). -/

namespace Sys2Proof

/-- An 8-bit byte: the addressable unit and the width of `A`, `X`, `Y`, `SP` (R6). -/
abbrev Byte := BitVec 8

/-- A 16-bit word: an address or the program counter (R6). -/
abbrev Word := BitVec 16

end Sys2Proof
end

