-- ==== Sys2Proof/Syntax.lean ====
section
/-! DEFINITION. The abstract syntax of CQ6502: the addressing modes, the operand forms and one constructor per
instruction of spec/opcode_table.json (spec/30_encoding.md R100 to R107). A mnemonic with several rows has one
constructor that carries the operand form; where several opcode values share mnemonic and mode, it carries the
opcode byte too (notes/assumptions/1.md). -/

namespace Sys2Proof

/-- The 13 addressing modes (R103). -/
inductive Mode where
  | imp | acc | imm | zp | zpx | zpy | abs | abx | aby | ind | izx | izy | rel
  deriving DecidableEq, Repr

/-- An operand: the addressing mode with the operand bytes of its format (R101, R102). -/
inductive Operand where
  /-- no operand (R139) -/
  | imp
  /-- the accumulator (R140) -/
  | acc
  /-- an immediate byte (R143) -/
  | imm (v : Byte)
  /-- a page-zero address (R144) -/
  | zp (d : Byte)
  /-- page zero indexed by `X` (R141) -/
  | zpx (d : Byte)
  /-- page zero indexed by `Y` (R142) -/
  | zpy (d : Byte)
  /-- an absolute address (R145) -/
  | abs (w : Word)
  /-- absolute indexed by `X` (R146) -/
  | abx (w : Word)
  /-- absolute indexed by `Y` (R146) -/
  | aby (w : Word)
  /-- the address of a 16-bit pointer (R147) -/
  | ind (w : Word)
  /-- `($hh,X)`: indexed-indirect (R148) -/
  | izx (d : Byte)
  /-- `($hh),Y`: indirect-indexed (R149) -/
  | izy (d : Byte)
  /-- a signed displacement (R150) -/
  | rel (d : Byte)
  deriving DecidableEq, Repr

/-- The addressing mode of an operand. -/
def Operand.mode : Operand → Mode
  | .imp => .imp
  | .acc => .acc
  | .imm _ => .imm
  | .zp _ => .zp
  | .zpx _ => .zpx
  | .zpy _ => .zpy
  | .abs _ => .abs
  | .abx _ => .abx
  | .aby _ => .aby
  | .ind _ => .ind
  | .izx _ => .izx
  | .izy _ => .izy
  | .rel _ => .rel

/-- The length in bytes of an instruction of a mode (R101, R109). -/
def Mode.length : Mode → Nat
  | .imp | .acc => 1
  | .imm | .zp | .zpx | .zpy | .izx | .izy | .rel => 2
  | .abs | .abx | .aby | .ind => 3

/-- The instructions (R105, R106). `o` is the operand in one of the modes the mnemonic has, `op` the opcode
byte where several opcode values share mnemonic and mode. -/
inductive Instr where
  -- loads, stores, transfers (41_load_store_transfer.md)
  | lda (o : Operand)
  | ldx (o : Operand)
  | ldy (o : Operand)
  | sta (o : Operand)
  | stx (o : Operand)
  | sty (o : Operand)
  | tax
  | tay
  | txa
  | tya
  | tsx
  | txs
  -- stack (42_stack.md)
  | pha
  | php
  | pla
  | plp
  -- logic and compare (43_logic_compare.md)
  | and (o : Operand)
  | ora (o : Operand)
  | eor (o : Operand)
  | bit (o : Operand)
  | cmp (o : Operand)
  | cpx (o : Operand)
  | cpy (o : Operand)
  -- add and subtract (44_arithmetic.md)
  | adc (o : Operand)
  | sbc (o : Operand)
  -- shifts, rotates, increments, decrements (45_shift_incdec.md)
  | asl (o : Operand)
  | lsr (o : Operand)
  | rol (o : Operand)
  | ror (o : Operand)
  | inc (o : Operand)
  | dec (o : Operand)
  | inx
  | iny
  | dex
  | dey
  -- control flow (46_control_flow.md)
  | jmp (o : Operand)
  | jsr (target : Word)
  | rts
  | rti
  | brk
  | bpl (d : Byte)
  | bmi (d : Byte)
  | bvc (d : Byte)
  | bvs (d : Byte)
  | bcc (d : Byte)
  | bcs (d : Byte)
  | bne (d : Byte)
  | beq (d : Byte)
  -- flags and NOP (47_flags_nop.md)
  | clc
  | sec
  | cli
  | sei
  | clv
  | cld
  | sed
  | nop
  -- undocumented (48_undocumented.md)
  | lax (o : Operand)
  | sax (o : Operand)
  | slo (o : Operand)
  | rla (o : Operand)
  | sre (o : Operand)
  | rra (o : Operand)
  | dcp (o : Operand)
  | isc (o : Operand)
  | anc (op : Byte) (v : Byte)
  | alr (v : Byte)
  | arr (v : Byte)
  | sbx (v : Byte)
  | usbc (v : Byte)
  | sha (o : Operand)
  | shx (w : Word)
  | shy (w : Word)
  | tas (w : Word)
  | las (w : Word)
  /-- the 27 undocumented NOPs (R299) -/
  | nopx (op : Byte) (o : Operand)
  -- unstable opcodes executed as no-ops (R300 to R303)
  | ane (v : Byte)
  | lxa (v : Byte)
  | jam (op : Byte)
  deriving DecidableEq, Repr

/-- The operand of an instruction, with its addressing mode (R105, R106). -/
def Instr.operand : Instr → Operand
  | .lda o | .ldx o | .ldy o | .sta o | .stx o | .sty o => o
  | .and o | .ora o | .eor o | .bit o | .cmp o | .cpx o | .cpy o | .adc o | .sbc o => o
  | .asl o | .lsr o | .rol o | .ror o | .inc o | .dec o | .jmp o => o
  | .lax o | .sax o | .slo o | .rla o | .sre o | .rra o | .dcp o | .isc o | .sha o => o
  | .nopx _ o => o
  | .jsr w => .abs w
  | .bpl d | .bmi d | .bvc d | .bvs d | .bcc d | .bcs d | .bne d | .beq d => .rel d
  | .anc _ v | .alr v | .arr v | .sbx v | .usbc v | .ane v | .lxa v => .imm v
  | .shx w | .tas w | .las w => .aby w
  | .shy w => .abx w
  | .tax | .tay | .txa | .tya | .tsx | .txs | .pha | .php | .pla | .plp => .imp
  | .inx | .iny | .dex | .dey | .rts | .rti | .brk => .imp
  | .clc | .sec | .cli | .sei | .clv | .cld | .sed | .nop => .imp
  | .jam _ => .imp

/-- The length of an instruction in bytes: that of its mode's format (R109). -/
def Instr.length (i : Instr) : Nat := i.operand.mode.length

end Sys2Proof
end

