-- ==== Sys2Proof/WellFormed.lean ====
section
/-! DEFINITION. Which terms of Instr are instructions: each mnemonic in the modes that spec/30_encoding.md R105 and
R106 give it, and an opcode byte only where it is one of the instruction's own. -/

namespace Sys2Proof

/-- The eight modes of ADC, AND, CMP, EOR, LDA, ORA, SBC (R105). -/
def Mode.isRead : Mode → Bool
  | .imm | .zp | .zpx | .abs | .abx | .aby | .izx | .izy => true
  | _ => false

/-- The seven modes of STA and of SLO, RLA, SRE, RRA, DCP, ISC (R105, R106). -/
def Mode.isMemory : Mode → Bool
  | .zp | .zpx | .abs | .abx | .aby | .izx | .izy => true
  | _ => false

/-- The five modes of ASL, LSR, ROL, ROR (R105). -/
def Mode.isShift : Mode → Bool
  | .acc | .zp | .zpx | .abs | .abx => true
  | _ => false

/-- The opcode values of the undocumented NOPs of each mode (R299). -/
def nopOpcodes : Mode → List Byte
  | .imp => [0x1A, 0x3A, 0x5A, 0x7A, 0xDA, 0xFA]
  | .imm => [0x80, 0x82, 0x89, 0xC2, 0xE2]
  | .zp => [0x04, 0x44, 0x64]
  | .zpx => [0x14, 0x34, 0x54, 0x74, 0xD4, 0xF4]
  | .abs => [0x0C]
  | .abx => [0x1C, 0x3C, 0x5C, 0x7C, 0xDC, 0xFC]
  | _ => []

/-- The two opcode values of ANC (R289). -/
def ancOpcodes : List Byte := [0x0B, 0x2B]

/-- The twelve opcode values of JAM (R302). -/
def jamOpcodes : List Byte := [0x02, 0x12, 0x22, 0x32, 0x42, 0x52, 0x62, 0x72, 0x92, 0xB2, 0xD2, 0xF2]

/-- The check: the operand's mode is one the mnemonic has, the opcode byte one of its own. -/
def Instr.wf : Instr → Bool
  | .lda o | .and o | .ora o | .eor o | .cmp o | .adc o | .sbc o => o.mode.isRead
  | .ldx o => [Mode.imm, .zp, .zpy, .abs, .aby].contains o.mode
  | .ldy o => [Mode.imm, .zp, .zpx, .abs, .abx].contains o.mode
  | .sta o | .slo o | .rla o | .sre o | .rra o | .dcp o | .isc o => o.mode.isMemory
  | .stx o => [Mode.zp, .zpy, .abs].contains o.mode
  | .sty o => [Mode.zp, .zpx, .abs].contains o.mode
  | .bit o => [Mode.zp, .abs].contains o.mode
  | .cpx o | .cpy o => [Mode.imm, .zp, .abs].contains o.mode
  | .asl o | .lsr o | .rol o | .ror o => o.mode.isShift
  | .inc o | .dec o => [Mode.zp, .zpx, .abs, .abx].contains o.mode
  | .jmp o => [Mode.abs, .ind].contains o.mode
  | .lax o => [Mode.zp, .zpy, .abs, .aby, .izx, .izy].contains o.mode
  | .sax o => [Mode.zp, .zpy, .abs, .izx].contains o.mode
  | .sha o => [Mode.aby, .izy].contains o.mode
  | .anc op _ => ancOpcodes.contains op
  | .nopx op o => (nopOpcodes o.mode).contains op
  | .jam op => jamOpcodes.contains op
  | .jsr _ | .bpl _ | .bmi _ | .bvc _ | .bvs _ | .bcc _ | .bcs _ | .bne _ | .beq _ => true
  | .alr _ | .arr _ | .sbx _ | .usbc _ | .ane _ | .lxa _ => true
  | .shx _ | .shy _ | .tas _ | .las _ => true
  | .tax | .tay | .txa | .tya | .tsx | .txs | .pha | .php | .pla | .plp => true
  | .inx | .iny | .dex | .dey | .rts | .rti | .brk => true
  | .clc | .sec | .cli | .sei | .clv | .cld | .sed | .nop => true

/-- The instruction is one the opcode map has (R104 to R106). -/
abbrev Instr.WellFormed (i : Instr) : Prop := i.wf = true

end Sys2Proof
end

