-- ==== Sys2Proof/Decode.lean ====
section
/-! DEFINITION. Decoding, total on any bytes and rejecting by name, and after it the encoder
(spec/30_encoding.md R100 to R110). The rows of the opcode map follow the matrix of R104. -/

namespace Sys2Proof

/-- Why a list of bytes is no instruction: no opcode value is illegal (R107), so only bytes can be missing. -/
inductive DecodeError where
  /-- there is no byte at all -/
  | noOpcode
  /-- the opcode's format has operand bytes that are not there (R109) -/
  | truncated
  deriving DecidableEq, Repr

/-- `h :: l` of R8: two bytes as a word, `h` the high byte. -/
def joinBytes (h l : Byte) : Word := h ++ l

/-- `lo(w)` of R8. -/
def loByte (w : Word) : Byte := w.extractLsb' 0 8

/-- `hi(w)` of R8. -/
def hiByte (w : Word) : Byte := w.extractLsb' 8 8

/-- Row `0x` of the opcode map. -/
def row0 (d : Byte) (w : Word) : List Instr :=
  [.brk, .ora (.izx d), .jam 0x02, .slo (.izx d),
   .nopx 0x04 (.zp d), .ora (.zp d), .asl (.zp d), .slo (.zp d),
   .php, .ora (.imm d), .asl .acc, .anc 0x0B d,
   .nopx 0x0C (.abs w), .ora (.abs w), .asl (.abs w), .slo (.abs w)]

/-- Row `1x` of the opcode map. -/
def row1 (d : Byte) (w : Word) : List Instr :=
  [.bpl d, .ora (.izy d), .jam 0x12, .slo (.izy d),
   .nopx 0x14 (.zpx d), .ora (.zpx d), .asl (.zpx d), .slo (.zpx d),
   .clc, .ora (.aby w), .nopx 0x1A .imp, .slo (.aby w),
   .nopx 0x1C (.abx w), .ora (.abx w), .asl (.abx w), .slo (.abx w)]

/-- Row `2x` of the opcode map. -/
def row2 (d : Byte) (w : Word) : List Instr :=
  [.jsr w, .and (.izx d), .jam 0x22, .rla (.izx d),
   .bit (.zp d), .and (.zp d), .rol (.zp d), .rla (.zp d),
   .plp, .and (.imm d), .rol .acc, .anc 0x2B d,
   .bit (.abs w), .and (.abs w), .rol (.abs w), .rla (.abs w)]

/-- Row `3x` of the opcode map. -/
def row3 (d : Byte) (w : Word) : List Instr :=
  [.bmi d, .and (.izy d), .jam 0x32, .rla (.izy d),
   .nopx 0x34 (.zpx d), .and (.zpx d), .rol (.zpx d), .rla (.zpx d),
   .sec, .and (.aby w), .nopx 0x3A .imp, .rla (.aby w),
   .nopx 0x3C (.abx w), .and (.abx w), .rol (.abx w), .rla (.abx w)]

/-- Row `4x` of the opcode map. -/
def row4 (d : Byte) (w : Word) : List Instr :=
  [.rti, .eor (.izx d), .jam 0x42, .sre (.izx d),
   .nopx 0x44 (.zp d), .eor (.zp d), .lsr (.zp d), .sre (.zp d),
   .pha, .eor (.imm d), .lsr .acc, .alr d,
   .jmp (.abs w), .eor (.abs w), .lsr (.abs w), .sre (.abs w)]

/-- Row `5x` of the opcode map. -/
def row5 (d : Byte) (w : Word) : List Instr :=
  [.bvc d, .eor (.izy d), .jam 0x52, .sre (.izy d),
   .nopx 0x54 (.zpx d), .eor (.zpx d), .lsr (.zpx d), .sre (.zpx d),
   .cli, .eor (.aby w), .nopx 0x5A .imp, .sre (.aby w),
   .nopx 0x5C (.abx w), .eor (.abx w), .lsr (.abx w), .sre (.abx w)]

/-- Row `6x` of the opcode map. -/
def row6 (d : Byte) (w : Word) : List Instr :=
  [.rts, .adc (.izx d), .jam 0x62, .rra (.izx d),
   .nopx 0x64 (.zp d), .adc (.zp d), .ror (.zp d), .rra (.zp d),
   .pla, .adc (.imm d), .ror .acc, .arr d,
   .jmp (.ind w), .adc (.abs w), .ror (.abs w), .rra (.abs w)]

/-- Row `7x` of the opcode map. -/
def row7 (d : Byte) (w : Word) : List Instr :=
  [.bvs d, .adc (.izy d), .jam 0x72, .rra (.izy d),
   .nopx 0x74 (.zpx d), .adc (.zpx d), .ror (.zpx d), .rra (.zpx d),
   .sei, .adc (.aby w), .nopx 0x7A .imp, .rra (.aby w),
   .nopx 0x7C (.abx w), .adc (.abx w), .ror (.abx w), .rra (.abx w)]

/-- Row `8x` of the opcode map. -/
def row8 (d : Byte) (w : Word) : List Instr :=
  [.nopx 0x80 (.imm d), .sta (.izx d), .nopx 0x82 (.imm d), .sax (.izx d),
   .sty (.zp d), .sta (.zp d), .stx (.zp d), .sax (.zp d),
   .dey, .nopx 0x89 (.imm d), .txa, .ane d,
   .sty (.abs w), .sta (.abs w), .stx (.abs w), .sax (.abs w)]

/-- Row `9x` of the opcode map. -/
def row9 (d : Byte) (w : Word) : List Instr :=
  [.bcc d, .sta (.izy d), .jam 0x92, .sha (.izy d),
   .sty (.zpx d), .sta (.zpx d), .stx (.zpy d), .sax (.zpy d),
   .tya, .sta (.aby w), .txs, .tas w,
   .shy w, .sta (.abx w), .shx w, .sha (.aby w)]

/-- Row `Ax` of the opcode map. -/
def rowA (d : Byte) (w : Word) : List Instr :=
  [.ldy (.imm d), .lda (.izx d), .ldx (.imm d), .lax (.izx d),
   .ldy (.zp d), .lda (.zp d), .ldx (.zp d), .lax (.zp d),
   .tay, .lda (.imm d), .tax, .lxa d,
   .ldy (.abs w), .lda (.abs w), .ldx (.abs w), .lax (.abs w)]

/-- Row `Bx` of the opcode map. -/
def rowB (d : Byte) (w : Word) : List Instr :=
  [.bcs d, .lda (.izy d), .jam 0xB2, .lax (.izy d),
   .ldy (.zpx d), .lda (.zpx d), .ldx (.zpy d), .lax (.zpy d),
   .clv, .lda (.aby w), .tsx, .las w,
   .ldy (.abx w), .lda (.abx w), .ldx (.aby w), .lax (.aby w)]

/-- Row `Cx` of the opcode map. -/
def rowC (d : Byte) (w : Word) : List Instr :=
  [.cpy (.imm d), .cmp (.izx d), .nopx 0xC2 (.imm d), .dcp (.izx d),
   .cpy (.zp d), .cmp (.zp d), .dec (.zp d), .dcp (.zp d),
   .iny, .cmp (.imm d), .dex, .sbx d,
   .cpy (.abs w), .cmp (.abs w), .dec (.abs w), .dcp (.abs w)]

/-- Row `Dx` of the opcode map. -/
def rowD (d : Byte) (w : Word) : List Instr :=
  [.bne d, .cmp (.izy d), .jam 0xD2, .dcp (.izy d),
   .nopx 0xD4 (.zpx d), .cmp (.zpx d), .dec (.zpx d), .dcp (.zpx d),
   .cld, .cmp (.aby w), .nopx 0xDA .imp, .dcp (.aby w),
   .nopx 0xDC (.abx w), .cmp (.abx w), .dec (.abx w), .dcp (.abx w)]

/-- Row `Ex` of the opcode map. -/
def rowE (d : Byte) (w : Word) : List Instr :=
  [.cpx (.imm d), .sbc (.izx d), .nopx 0xE2 (.imm d), .isc (.izx d),
   .cpx (.zp d), .sbc (.zp d), .inc (.zp d), .isc (.zp d),
   .inx, .sbc (.imm d), .nop, .usbc d,
   .cpx (.abs w), .sbc (.abs w), .inc (.abs w), .isc (.abs w)]

/-- Row `Fx` of the opcode map. -/
def rowF (d : Byte) (w : Word) : List Instr :=
  [.beq d, .sbc (.izy d), .jam 0xF2, .isc (.izy d),
   .nopx 0xF4 (.zpx d), .sbc (.zpx d), .inc (.zpx d), .isc (.zpx d),
   .sed, .sbc (.aby w), .nopx 0xFA .imp, .isc (.aby w),
   .nopx 0xFC (.abx w), .sbc (.abx w), .inc (.abx w), .isc (.abx w)]

/-- The opcode map (R104): the instruction of every opcode value, in order, with `d` the operand byte of a
two-byte format and `w` the operand word of a three-byte format (R101, R102). -/
def opcodeMap (d : Byte) (w : Word) : List Instr :=
  row0 d w ++ row1 d w ++ row2 d w ++ row3 d w ++ row4 d w ++ row5 d w ++ row6 d w ++ row7 d w ++
  row8 d w ++ row9 d w ++ rowA d w ++ rowB d w ++ rowC d w ++ rowD d w ++ rowE d w ++ rowF d w

/-- The instruction of an opcode byte, with its operand byte or word (R110). The default is never used: the map
has 256 entries. -/
def decodeOp (op d : Byte) (w : Word) : Instr := (opcodeMap d w).getD op.toNat .nop

/-- The length of an instruction is known from its opcode byte alone (R109). -/
def lengthOf (op : Byte) : Nat := (decodeOp op 0 0).length

/-- The instruction at the head of a list of bytes, and the bytes after it. The low byte of an operand word comes
first (R102). -/
def decode : List Byte → Except DecodeError (Instr × List Byte)
  | [] => .error .noOpcode
  | op :: rest =>
    match lengthOf op, rest with
    | 1, rest => .ok (decodeOp op 0 0, rest)
    | 2, d :: rest => .ok (decodeOp op d 0, rest)
    | 3, l :: h :: rest => .ok (decodeOp op 0 (joinBytes h l), rest)
    | _, _ => .error .truncated

/-! ## The encoder -/

/-- The opcode byte a mnemonic's table of modes gives a mode, if it has that mode. -/
def opcodeIn (m : Mode) (table : List (Mode × Byte)) : Option Byte := table.lookup m

/-- The opcode byte of a well-formed instruction (R105, R106); none for another term. -/
def opcodeOf : Instr → Option Byte
  | .lda o => opcodeIn o.mode [(.imm, 0xA9), (.zp, 0xA5), (.zpx, 0xB5), (.abs, 0xAD), (.abx, 0xBD), (.aby, 0xB9), (.izx, 0xA1), (.izy, 0xB1)]
  | .ldx o => opcodeIn o.mode [(.imm, 0xA2), (.zp, 0xA6), (.zpy, 0xB6), (.abs, 0xAE), (.aby, 0xBE)]
  | .ldy o => opcodeIn o.mode [(.imm, 0xA0), (.zp, 0xA4), (.zpx, 0xB4), (.abs, 0xAC), (.abx, 0xBC)]
  | .sta o => opcodeIn o.mode [(.zp, 0x85), (.zpx, 0x95), (.abs, 0x8D), (.abx, 0x9D), (.aby, 0x99), (.izx, 0x81), (.izy, 0x91)]
  | .stx o => opcodeIn o.mode [(.zp, 0x86), (.zpy, 0x96), (.abs, 0x8E)]
  | .sty o => opcodeIn o.mode [(.zp, 0x84), (.zpx, 0x94), (.abs, 0x8C)]
  | .tax => some 0xAA
  | .tay => some 0xA8
  | .txa => some 0x8A
  | .tya => some 0x98
  | .tsx => some 0xBA
  | .txs => some 0x9A
  | .pha => some 0x48
  | .php => some 0x08
  | .pla => some 0x68
  | .plp => some 0x28
  | .and o => opcodeIn o.mode [(.imm, 0x29), (.zp, 0x25), (.zpx, 0x35), (.abs, 0x2D), (.abx, 0x3D), (.aby, 0x39), (.izx, 0x21), (.izy, 0x31)]
  | .ora o => opcodeIn o.mode [(.imm, 0x09), (.zp, 0x05), (.zpx, 0x15), (.abs, 0x0D), (.abx, 0x1D), (.aby, 0x19), (.izx, 0x01), (.izy, 0x11)]
  | .eor o => opcodeIn o.mode [(.imm, 0x49), (.zp, 0x45), (.zpx, 0x55), (.abs, 0x4D), (.abx, 0x5D), (.aby, 0x59), (.izx, 0x41), (.izy, 0x51)]
  | .bit o => opcodeIn o.mode [(.zp, 0x24), (.abs, 0x2C)]
  | .cmp o => opcodeIn o.mode [(.imm, 0xC9), (.zp, 0xC5), (.zpx, 0xD5), (.abs, 0xCD), (.abx, 0xDD), (.aby, 0xD9), (.izx, 0xC1), (.izy, 0xD1)]
  | .cpx o => opcodeIn o.mode [(.imm, 0xE0), (.zp, 0xE4), (.abs, 0xEC)]
  | .cpy o => opcodeIn o.mode [(.imm, 0xC0), (.zp, 0xC4), (.abs, 0xCC)]
  | .adc o => opcodeIn o.mode [(.imm, 0x69), (.zp, 0x65), (.zpx, 0x75), (.abs, 0x6D), (.abx, 0x7D), (.aby, 0x79), (.izx, 0x61), (.izy, 0x71)]
  | .sbc o => opcodeIn o.mode [(.imm, 0xE9), (.zp, 0xE5), (.zpx, 0xF5), (.abs, 0xED), (.abx, 0xFD), (.aby, 0xF9), (.izx, 0xE1), (.izy, 0xF1)]
  | .asl o => opcodeIn o.mode [(.acc, 0x0A), (.zp, 0x06), (.zpx, 0x16), (.abs, 0x0E), (.abx, 0x1E)]
  | .lsr o => opcodeIn o.mode [(.acc, 0x4A), (.zp, 0x46), (.zpx, 0x56), (.abs, 0x4E), (.abx, 0x5E)]
  | .rol o => opcodeIn o.mode [(.acc, 0x2A), (.zp, 0x26), (.zpx, 0x36), (.abs, 0x2E), (.abx, 0x3E)]
  | .ror o => opcodeIn o.mode [(.acc, 0x6A), (.zp, 0x66), (.zpx, 0x76), (.abs, 0x6E), (.abx, 0x7E)]
  | .inc o => opcodeIn o.mode [(.zp, 0xE6), (.zpx, 0xF6), (.abs, 0xEE), (.abx, 0xFE)]
  | .dec o => opcodeIn o.mode [(.zp, 0xC6), (.zpx, 0xD6), (.abs, 0xCE), (.abx, 0xDE)]
  | .inx => some 0xE8
  | .iny => some 0xC8
  | .dex => some 0xCA
  | .dey => some 0x88
  | .jmp o => opcodeIn o.mode [(.abs, 0x4C), (.ind, 0x6C)]
  | .jsr _ => some 0x20
  | .rts => some 0x60
  | .rti => some 0x40
  | .brk => some 0x00
  | .bpl _ => some 0x10
  | .bmi _ => some 0x30
  | .bvc _ => some 0x50
  | .bvs _ => some 0x70
  | .bcc _ => some 0x90
  | .bcs _ => some 0xB0
  | .bne _ => some 0xD0
  | .beq _ => some 0xF0
  | .clc => some 0x18
  | .sec => some 0x38
  | .cli => some 0x58
  | .sei => some 0x78
  | .clv => some 0xB8
  | .cld => some 0xD8
  | .sed => some 0xF8
  | .nop => some 0xEA
  | .lax o => opcodeIn o.mode [(.zp, 0xA7), (.zpy, 0xB7), (.abs, 0xAF), (.aby, 0xBF), (.izx, 0xA3), (.izy, 0xB3)]
  | .sax o => opcodeIn o.mode [(.zp, 0x87), (.zpy, 0x97), (.abs, 0x8F), (.izx, 0x83)]
  | .slo o => opcodeIn o.mode [(.zp, 0x07), (.zpx, 0x17), (.abs, 0x0F), (.abx, 0x1F), (.aby, 0x1B), (.izx, 0x03), (.izy, 0x13)]
  | .rla o => opcodeIn o.mode [(.zp, 0x27), (.zpx, 0x37), (.abs, 0x2F), (.abx, 0x3F), (.aby, 0x3B), (.izx, 0x23), (.izy, 0x33)]
  | .sre o => opcodeIn o.mode [(.zp, 0x47), (.zpx, 0x57), (.abs, 0x4F), (.abx, 0x5F), (.aby, 0x5B), (.izx, 0x43), (.izy, 0x53)]
  | .rra o => opcodeIn o.mode [(.zp, 0x67), (.zpx, 0x77), (.abs, 0x6F), (.abx, 0x7F), (.aby, 0x7B), (.izx, 0x63), (.izy, 0x73)]
  | .dcp o => opcodeIn o.mode [(.zp, 0xC7), (.zpx, 0xD7), (.abs, 0xCF), (.abx, 0xDF), (.aby, 0xDB), (.izx, 0xC3), (.izy, 0xD3)]
  | .isc o => opcodeIn o.mode [(.zp, 0xE7), (.zpx, 0xF7), (.abs, 0xEF), (.abx, 0xFF), (.aby, 0xFB), (.izx, 0xE3), (.izy, 0xF3)]
  | .anc op _ => if ancOpcodes.contains op then some op else none
  | .alr _ => some 0x4B
  | .arr _ => some 0x6B
  | .sbx _ => some 0xCB
  | .usbc _ => some 0xEB
  | .sha o => opcodeIn o.mode [(.aby, 0x9F), (.izy, 0x93)]
  | .shx _ => some 0x9E
  | .shy _ => some 0x9C
  | .tas _ => some 0x9B
  | .las _ => some 0xBB
  | .nopx op o => if (nopOpcodes o.mode).contains op then some op else none
  | .ane _ => some 0x8B
  | .lxa _ => some 0xAB
  | .jam op => if jamOpcodes.contains op then some op else none

/-- The operand bytes in memory order (R101, R102). -/
def Operand.bytes : Operand → List Byte
  | .imp | .acc => []
  | .imm d | .zp d | .zpx d | .zpy d | .izx d | .izy d | .rel d => [d]
  | .abs w | .abx w | .aby w | .ind w => [loByte w, hiByte w]

/-- The bytes of a well-formed instruction, in memory order; no bytes for another term. -/
def encode (i : Instr) : List Byte :=
  match opcodeOf i with
  | some op => op :: i.operand.bytes
  | none => []

/-! ## The host's view -/

/-- The three bytes of a table word: bit 0 of `w` is the least significant bit of the first byte, every bit from
`nbits` up is 0. -/
def tableBytes (nbits w : Nat) : List Byte :=
  let v := w % 2 ^ nbits
  [BitVec.ofNat 8 v, BitVec.ofNat 8 (v / 256), BitVec.ofNat 8 (v / 65536)]

/-- The instruction the decoder reads from a word numbered as spec/opcode_table.json numbers it. -/
def decodeTableWord (nbits w : Nat) : Option Instr :=
  match decode (tableBytes nbits w) with
  | .ok (i, _) => some i
  | .error _ => none

end Sys2Proof
end

