-- ==== Sys2Proof/Config.lean ====
section
/-! DEFINITION. What the spec leaves to the implementation: the open parameters of spec/00_scope.md R7 as plain data
(`Params`, a field of State, so that a statement over all states is quantified over them), and the free values as
bodiless functions of the inputs the spec lists for them. -/

namespace Sys2Proof

/-! ## What the parameters are made of -/

/-- The nine event fields; `none` is "never" (10_state.md R35, 61_platform_devices.md R360). -/
structure Machine.Events where
  fetch        : Option Nat
  draw         : Option Nat
  dli          : Option Nat
  timer1       : Option Nat
  timer2       : Option Nat
  timer4       : Option Nat
  serOutNeeded : Option Nat
  serOutDone   : Option Nat
  serInReady   : Option Nat
  deriving DecidableEq, Repr

/-- The phase of the line: which event of the line is still to come (61_platform_devices.md R365). -/
inductive Machine.LinePhase where
  /-- the next boundary fetches no display-list instruction -/
  | nonFetch
  /-- the next boundary fetches one -/
  | fetch
  /-- the draw event of this line is still to come -/
  | draw
  deriving DecidableEq, Repr

/-- The line state `dma_stall` is a function of: every field R365 lists but `line_start`, a time, and DMACTL, which says
what is fetched (61_platform_devices.md R365, R379; notes/assumptions/8.md). -/
structure LineState where
  scanline     : Nat
  dlTarget     : Nat
  dlWait       : Bool
  dlpc         : Word
  dlcmd        : Byte
  memscan      : Word
  rowsLeft     : Nat
  row          : Nat
  vscrolOn     : Bool
  vscrolOffset : Nat
  phase        : Machine.LinePhase
  dmactl       : Byte
  deriving DecidableEq, Repr

/-- `INIT_CPU`: the registers and flags before the first `reset()`; the flags as a packed status byte (R7, D20). -/
structure InitCpu where
  a      : Byte
  x      : Byte
  y      : Byte
  sp     : Byte
  pc     : Word
  status : Byte
  deriving DecidableEq, Repr

/-- `INIT_EVENTS`: the armed events and the device state at creation that D34 lists with them (R363). -/
structure InitEvents where
  events    : Machine.Events
  scanline  : Nat
  lineStart : Nat
  nmien     : Byte
  nmist     : Byte
  irqen     : Byte
  irqst     : Byte
  deriving DecidableEq, Repr

/-- A row of `MODE_TABLE`: the geometry of a display mode (R384, D38). -/
structure Machine.ModeRow where
  /-- scanlines per mode line -/
  lines   : Nat
  /-- bytes per mode line at normal width -/
  bytes   : Nat
  /-- a character mode: the bytes are character codes (R385) -/
  text    : Bool
  /-- bits per pixel: 1, 2 or 4 (R385) -/
  bits    : Nat
  /-- framebuffer columns one byte covers -/
  columns : Nat
  deriving DecidableEq, Repr

/-- `POKEY_DIV`: the constants of the period formulas (R391, D38). -/
structure PokeyDiv where
  /-- the base divisor -/
  base     : Nat
  /-- the base divisor with AUDCTL bit 0 set, the "scanline-length constant" -/
  slow     : Nat
  /-- added to AUDFn of a normal channel -/
  single   : Nat
  /-- added to AUDFn of a channel clocked at 1 -/
  fast     : Nat
  /-- added to the 16-bit count of a joined pair -/
  pair     : Nat
  /-- added to the 16-bit count of a pair clocked at 1 -/
  fastPair : Nat
  deriving DecidableEq, Repr

/-! ## The open parameters -/

/-- The open parameters (R7, 92_eei_decisions.md). None is changed by a step. -/
structure Params where
  /-- `INIT_CPU` (D20) -/
  initCpu : InitCpu
  /-- `INIT_EVENTS` (D34) -/
  initEvents : InitEvents
  /-- `NMI_COST` (D5) -/
  nmiCost : Nat
  /-- the opcode values `UNSTABLE_SET` holds beyond the 14 of D11: some of `$BB $9B $9F $93 $9E $9C` (R303) -/
  unstableExtra : List Byte
  /-- `NOP_OPERAND_ACCESS` (D10) -/
  nopOperandAccess : Bool
  /-- `JMP_IND_PAGE_WRAP` (D15) -/
  jmpIndPageWrap : Bool
  /-- `DEV_UNMAPPED_READ` (D26) -/
  devUnmappedRead : Byte
  /-- `DRAW_OFFSET`, in 1..113 (D28) -/
  drawOffset : Nat
  /-- `DLI_OFFSET`, in 1..113 (D28) -/
  dliOffset : Nat
  /-- `MODE_TABLE`: the rows of modes 2 to 15 (R384, D38) -/
  modeTable : List Machine.ModeRow
  /-- `POKEY_DIV`: the constants of the period formulas (R391, D38) -/
  pokeyDiv : PokeyDiv
  /-- `dma_stall` as a table; a line state not listed costs the default 0 (D29) -/
  dmaStall : List (LineState × Nat)
  /-- whether the memory-scan pointer wraps inside a 4 KB window (R372, part of `MODE_TABLE`) -/
  memscanWraps : Bool
  /-- `SERIAL_DELAYS.byte` (R411, D38) -/
  serialByte : Nat
  /-- `SERIAL_DELAYS.out_needed` (R412) -/
  serialOutNeeded : Nat
  /-- `SERIAL_DELAYS.out_done` (R412) -/
  serialOutDone : Nat
  /-- `SERIAL_DELAYS.response` (R412) -/
  serialResponse : Nat
  /-- the command byte of MOTOR-ON, which R408 names without a value -/
  sioMotorOn : Byte
  /-- the capacity of the audio ring buffer (R39) -/
  audioRingSize : Nat
  /-- nominal cycles per audio sample, in 1/65536 cycle (R399) -/
  audioRate : Nat
  deriving DecidableEq, Repr

/-- The mode geometry of R384; the columns per byte spread the bytes of a normal line over 320 columns
(PRESUMED, notes/assumptions/40.md). -/
def Machine.ModeRow.defaults : List Machine.ModeRow :=
  [⟨8, 40, true, 1, 8⟩, ⟨10, 40, true, 1, 8⟩, ⟨8, 40, true, 2, 8⟩, ⟨16, 40, true, 2, 8⟩, ⟨8, 20, true, 1, 16⟩,
   ⟨16, 20, true, 1, 16⟩] ++
  [⟨8, 10, false, 2, 32⟩, ⟨4, 10, false, 1, 32⟩, ⟨4, 20, false, 2, 16⟩, ⟨2, 20, false, 1, 16⟩, ⟨1, 20, false, 1, 16⟩,
   ⟨2, 40, false, 2, 8⟩, ⟨1, 40, false, 2, 8⟩, ⟨1, 40, false, 1, 8⟩]

/-- The parameters' defaults: the spec's where it gives one (R7), else the model's (notes/assumptions/5.md to 9.md). -/
def Params.default : Params where
  initCpu := { a := 0, x := 0, y := 0, sp := 0, pc := 0, status := 0x20 }
  initEvents := {
    events := { fetch := some 114, draw := none, dli := none, timer1 := none, timer2 := none, timer4 := none,
                serOutNeeded := none, serOutDone := none, serInReady := none }
    scanline := 0, lineStart := 0, nmien := 0, nmist := 0, irqen := 0, irqst := 0xFF }
  nmiCost := 7
  unstableExtra := []
  nopOperandAccess := false
  jmpIndPageWrap := true
  devUnmappedRead := 0xFF
  drawOffset := 16
  dliOffset := 8
  modeTable := Machine.ModeRow.defaults
  pokeyDiv := { base := 28, slow := 114, single := 1, fast := 4, pair := 1, fastPair := 7 }
  dmaStall := []
  memscanWraps := false
  serialByte := 924
  serialOutNeeded := 924
  serialOutDone := 1848
  serialResponse := 1848
  sioMotorOn := 0x4D
  audioRingSize := 8192
  audioRate := 2635776

/-! ## What the renderer and the compositor compare -/

/-- The colour registers the playfield draws with (61_platform_devices.md R383). -/
structure Machine.Colours where
  pf0 : Byte
  pf1 : Byte
  pf2 : Byte
  pf3 : Byte
  bak : Byte
  deriving DecidableEq, Repr

/-- What a playfield pixel shows: "priority encodes background/PF0-3" (R383). -/
inductive Machine.Source where
  | background
  | pf0
  | pf1
  | pf2
  | pf3
  deriving DecidableEq, Repr, Inhabited

/-- The GTIA modes of PRIOR bits 7 and 6 that override colours (R389). -/
inductive Machine.GtiaMode where
  | luminances
  | registers
  | hues
  deriving DecidableEq, Repr

/-- The eight moving objects (R386). -/
inductive Machine.Sprite where
  | player (n : Fin 4)
  | missile (n : Fin 4)
  deriving DecidableEq, Repr

/-! ## Sound -/

/-- One POKEY channel record (10_state.md R39); its frequency divisor and control byte stand in `sram` at AUDFn
and AUDCn. -/
structure Machine.Channel where
  counter  : Nat
  clockAcc : Nat
  output   : Bool
  /-- what the high-pass filter latched (R392) -/
  gate     : Bool
  deriving DecidableEq, Repr

/-- What a channel's output does on a pulse (R391). -/
inductive Machine.PulseAction where
  | toggle
  /-- copy from the 17-bit or the 9-bit LFSR -/
  | copyNoise
  /-- copy from the 4-bit LFSR -/
  | copyPoly4
  | hold
  deriving DecidableEq, Repr, Inhabited

/-! ## Free values. No body: nothing in Lean can evaluate them or prove a value of them. -/

/-- One step of the 17-bit LFSR; the polynomial is in `POKEY_DIV` (R398, D38, U12). -/
opaque Config.lfsr17Step : BitVec 17 → BitVec 17
/-- One step of the 9-bit LFSR. -/
opaque Config.lfsr9Step : BitVec 9 → BitVec 9
/-- One step of the 5-bit LFSR. -/
opaque Config.lfsr5Step : BitVec 5 → BitVec 5
/-- One step of the 4-bit LFSR. -/
opaque Config.lfsr4Step : BitVec 4 → BitVec 4
/-- The seed SKCTL's reset holds the 17-bit LFSR at (R393, `POKEY_DIV`). -/
opaque Config.lfsr17Seed : BitVec 17
/-- The seed of the 9-bit LFSR. -/
opaque Config.lfsr9Seed : BitVec 9
/-- The seed of the 5-bit LFSR. -/
opaque Config.lfsr5Seed : BitVec 5
/-- The seed of the 4-bit LFSR. -/
opaque Config.lfsr4Seed : BitVec 4

/-- The bit a channel copies from the 17-bit LFSR; R391 does not say which. -/
opaque Config.lfsr17Output : BitVec 17 → Bool
/-- The bit a channel copies from the 9-bit LFSR. -/
opaque Config.lfsr9Output : BitVec 9 → Bool
/-- The bit a channel copies from the 4-bit LFSR. -/
opaque Config.lfsr4Output : BitVec 4 → Bool
/-- Which of the four actions of R391 a channel's distortion bits choose, under the gating of the 5-bit LFSR. -/
opaque Config.pulseAction : BitVec 3 → BitVec 5 → Machine.PulseAction
/-- The bit a high-pass channel contributes, from its output and its gate (R392). -/
opaque Config.gatedBit : Bool → Bool → Bool
/-- A mixed level centred and scaled (R399; the scale is not in the spec, N16). -/
opaque Config.mixScale : Nat → Int

/-- The cycles-per-sample an occupancy hint asks for, before the bound of R399. -/
opaque Config.hintedRate : Nat → Nat → Nat

/-- The first framebuffer column of the playfield at a DMACTL width (R385). -/
opaque Config.playfieldLeft : Nat → Nat
/-- The framebuffer column of the first byte of a horizontally scrolled line, from the DMACTL width and HSCROL: the
"destination start index" that HSCROL shifts (R385). -/
opaque Config.scrolledStart : Nat → Byte → Nat
/-- The bytes a mode line of a given mode, width and HSCROL consumes when horizontal scroll is enabled (R385). -/
opaque Config.scrolledBytes : Nat → Nat → Byte → Nat
/-- Where the byte of a glyph stands from the character base on, from the mode, the character code and the
scanline within the glyph (R385, `MODE_TABLE`). -/
opaque Config.glyphOffset : Nat → Byte → Nat → Nat
/-- The colour lookup of a map mode, from the mode and the pixel value (R385, `MODE_TABLE`). -/
opaque Config.mapColour : Nat → Nat → Machine.Colours → Byte × Machine.Source
/-- The colour lookup of a character mode, from the mode, the character code, the inverse-video selector and the
pixel value (R385, `MODE_TABLE`). -/
opaque Config.textColour : Nat → Byte → Bool → Nat → Machine.Colours → Byte × Machine.Source
/-- The blending tables, from the GTIA mode, the level and the nine colour registers COLPM0..3, COLPF0..3, COLBK
(R385, R389, `BLEND_TABLES`). -/
opaque Config.blendColour : Machine.GtiaMode → Nat → List Byte → Byte × Machine.Source

/-- The scanlines of the first mode line of a scrolled region when VSCROL reaches past the mode's last scanline
(R373 gives `lines - VSCROL` only for a VSCROL inside the mode line). -/
opaque Config.vscrolOverrun : Nat → Nat → Nat

/-- The framebuffer column a horizontal position names (R386). -/
opaque Config.spriteColumn : Byte → Nat
/-- The framebuffer columns one graphics bit covers at normal size (R386). -/
opaque Config.spriteBitColumns : Nat
/-- The size factor of the size code 2, to which R387 gives no meaning. -/
opaque Config.spriteSizeTwo : Nat
/-- The priority mask of an object: the priority bits that hide it, from PRIOR bits 4..0 (R386). -/
opaque Config.priorityMask : BitVec 5 → Machine.Sprite → Byte
/-- The priority bits a drawn missile leaves for the objects drawn after it, from the fifth-player bit (R386, R388). -/
opaque Config.missilePriority : Fin 4 → Bool → Byte
/-- The bits a missile feeds into the two collision registers, against playfields and against players, of an earlier-drawn
object it overlaps, from the fifth-player bit (R386, "later-drawn objects' collision results feed earlier ones' registers"). -/
opaque Config.missileFeed : Fin 4 → Machine.Sprite → Bool → Byte × Byte

/-- The density-dependent fixed five bytes of the STATUS reply (R408, N17), from the sector size. -/
opaque Config.sioStatusByte : Nat → Nat → Byte

/-- The reply to a VERIFY whose bytes differ, which R408 does not give. -/
opaque Config.sioVerifyMismatch : List Byte

/-- The reply to FORMAT, which R408 does not give, from the sector size. -/
opaque Config.sioFormatReply : Nat → List Byte

/-- What the host's "is running" query answers, from whether the machine is ready and from the cycle counter: R414 names
the query and N23 says nothing gives it. -/
opaque Config.runningAnswer : Bool → Nat → Bool

end Sys2Proof
end

