-- ==== Sys2Proof/Machine/State.lean ====
section
/-! DEFINITION. The state of one machine (spec/10_state.md), as plain data, and the state after reset. -/

namespace Sys2Proof.Machine

/-- Why a step stops with a fault: never. The CPU raises nothing and no memory access does (60_exceptions.md R321,
20_memory.md R88), so the type has no constructor. -/
inductive Fault where
  deriving DecidableEq, Repr

/-- Why a step is refused. -/
inductive Refusal where
  /-- Raised by an arm of `exec` whose instruction has no meaning yet. No arm raises it. Safe. -/
  | notModelled (mnemonic : String)
  deriving DecidableEq, Repr

/-- The seven flags, each a boolean of its own (R23). -/
structure Flags where
  n : Bool
  v : Bool
  b : Bool
  d : Bool
  i : Bool
  z : Bool
  c : Bool
  deriving DecidableEq, Repr

/-- A byte array as (address, byte) pairs: addresses rise, and no pair holds what an unlisted address reads as
(Memory.wf in Machine/Memory.lean). -/
abbrev Memory := List Host.Cell

/-- Which of the four switchable regions the dispatch table maps to ROM (20_memory.md R62, R74). -/
structure Banks where
  selfTest : Bool
  basic    : Bool
  osLow    : Bool
  osHigh   : Bool
  deriving DecidableEq, Repr

/-- The PIA (R37, 61_platform_devices.md R401). -/
structure Pia where
  porta   : Byte
  portb   : Byte
  pactl   : Byte
  pbctl   : Byte
  ddra    : Byte
  ddrb    : Byte
  portaIn : Byte
  portbIn : Byte
  deriving DecidableEq, Repr

/-- The ANTIC engine's own fields (R365, R380, R381); its write registers stand in `sram`. -/
structure Antic where
  scanline     : Nat
  lineStart    : Nat
  dlTarget     : Nat
  /-- no further display-list instruction is fetched in this frame: after JVB, or past line 247 (R369) -/
  dlWait       : Bool
  dlpc         : Word
  dlcmd        : Byte
  memscan      : Word
  rowsLeft     : Nat
  row          : Nat
  /-- the previous display-list instruction had its VSCROL bit set (R373) -/
  vscrolOn     : Bool
  vscrolOffset : Nat
  phase        : LinePhase
  nmien        : Byte
  nmist        : Byte
  deriving DecidableEq, Repr

/-- The GTIA's own fields (R382, R390); its write registers stand in `sram`, its collision registers in `ram`. Bit
`n` of the trigger fields belongs to trigger `n`. -/
structure Gtia where
  grafp0      : Byte
  grafp1      : Byte
  grafp2      : Byte
  grafp3      : Byte
  grafm       : Byte
  trigPressed : BitVec 4
  trigLatched : BitVec 4
  consol      : BitVec 3
  deriving DecidableEq, Repr

/-- Audio output, which exists only while it is enabled (R39, 61_platform_devices.md R399). -/
structure Audio where
  /-- the ring buffer, oldest sample first; the spec gives no sample format, and a sample is an exact integer here
  (DESIGN CHOICE, notes/assumptions/35.md) -/
  ring            : List Int
  /-- the scaled levels accumulated since the last sample boundary -/
  accumulator     : Int
  /-- in 1/65536 cycle -/
  cyclesPerSample : Nat
  /-- time since the last sample boundary, in 1/65536 cycle -/
  sampleClock     : Nat
  /-- the host's "current queued output samples" -/
  queueHint       : Nat
  deriving DecidableEq, Repr

/-- The four channel records (R39). -/
structure Channels where
  one   : Channel
  two   : Channel
  three : Channel
  four  : Channel
  deriving DecidableEq, Repr

/-- The keys that count as down in SKSTAT bit 2: those with a code, and BREAK (61_platform_devices.md R395, R397). -/
inductive Key where
  | code (c : BitVec 6)
  | brk
  deriving DecidableEq, Repr

/-- POKEY's own fields (R391 to R398); AUDFn, AUDCn, AUDCTL and SKCTL stand in `sram`. -/
structure Pokey where
  irqen     : Byte
  irqst     : Byte
  kbcode    : Byte
  /-- the keys held down, one pair of key and source token per press (R397) -/
  keysDown  : List (Key × Nat)
  /-- the source tokens that hold shift down -/
  shiftDown : List Nat
  lastSync  : Nat
  channels  : Channels
  lfsr17    : BitVec 17
  lfsr9     : BitVec 9
  lfsr5     : BitVec 5
  lfsr4     : BitVec 4
  audio     : Option Audio
  deriving DecidableEq, Repr

/-- The phase flag of the SIO machine (61_platform_devices.md R406). -/
inductive SioPhase where
  | command
  | data
  deriving DecidableEq, Repr

/-- The SIO machine (R38, R39, 61_platform_devices.md R406, R411). -/
structure Sio where
  phase     : SioPhase
  /-- the bytes of the frame received so far, at most 1 KB of them (00_scope.md R6) -/
  buffer    : List Byte
  /-- the command whose data phase is pending -/
  command   : Option Byte
  sector    : Nat
  /-- the bytes the data phase expects -/
  expected  : Nat
  response  : List Byte
  index     : Nat
  remaining : Nat
  /-- the last byte SERIN delivered -/
  lastByte  : Byte
  deriving DecidableEq, Repr

/-- A channel record at creation. -/
def Channel.silent : Channel where
  counter := 0
  clockAcc := 0
  output := false
  gate := false

/-- The state of one machine. -/
structure State where
  a          : Byte
  x          : Byte
  y          : Byte
  sp         : Byte
  pc         : Word
  flags      : Flags
  cycle      : Nat
  stallUntil : Nat
  irqPending : Nat
  events     : Events
  nextWake   : Option Nat
  /-- the visible array -/
  ram        : Memory
  /-- the write-shadow array -/
  sram       : Memory
  banks      : Banks
  pia        : Pia
  antic      : Antic
  gtia       : Gtia
  pokey      : Pokey
  sio        : Sio
  /-- the framebuffer, pixel (x, y) at 456 * y + x -/
  frame      : Memory
  /-- the priority plane, laid out as the framebuffer -/
  prio       : Memory
  osRom      : Option (List Byte)
  basicRom   : Option (List Byte)
  disk       : Option (List Byte)
  params     : Params
  /-- the model's own: event service handled as many events as one step handles and has more to do; the next step goes on
  with it and does nothing else (R334, notes/assumptions/20.md) -/
  serviceOpen : Bool
  deriving DecidableEq, Repr

/-- The machine right after `reset()` on the creation state with no image loaded (R43, 70_reset_and_hazards.md R420,
R423). Values the spec leaves unspecified are the model's: notes/assumptions/2.md, 3.md, 4.md, 10.md, 36.md, 41.md,
47.md. -/
def State.reset : State where
  a := 0
  x := 0
  y := 0
  sp := 0xFD
  pc := 0
  flags := { n := false, v := false, b := false, d := false, i := true, z := false, c := false }
  cycle := 0
  stallUntil := 0
  irqPending := 0
  events := { fetch := some 114, draw := none, dli := none, timer1 := none, timer2 := none, timer4 := none,
              serOutNeeded := none, serOutDone := none, serInReady := none }
  nextWake := some 114
  ram := []
  sram := []
  banks := { selfTest := false, basic := false, osLow := false, osHigh := false }
  pia := { porta := 0, portb := 0xFF, pactl := 0, pbctl := 0, ddra := 0, ddrb := 0, portaIn := 0xFF, portbIn := 0xFF }
  antic := { scanline := 0, lineStart := 0, dlTarget := 8, dlWait := false, dlpc := 0, dlcmd := 0, memscan := 0,
             rowsLeft := 0, row := 0, vscrolOn := false, vscrolOffset := 0, phase := .nonFetch, nmien := 0, nmist := 0 }
  gtia := { grafp0 := 0, grafp1 := 0, grafp2 := 0, grafp3 := 0, grafm := 0, trigPressed := 0, trigLatched := 0,
            consol := 7 }
  pokey := { irqen := 0, irqst := 0xFF, kbcode := 0, keysDown := [], shiftDown := [], lastSync := 0,
             channels := { one := Channel.silent, two := Channel.silent, three := Channel.silent, four := Channel.silent },
             lfsr17 := 0, lfsr9 := 0, lfsr5 := 0, lfsr4 := 0, audio := none }
  sio := { phase := .command, buffer := [], command := none, sector := 0, expected := 0, response := [], index := 0,
           remaining := 0, lastByte := 0 }
  frame := []
  prio := []
  osRom := none
  basicRom := none
  disk := none
  params := Params.default
  serviceOpen := false

end Sys2Proof.Machine
end

