-- ==== Sys2Proof/Machine/Memory.lean ====
section
/-! DEFINITION. Byte arrays in canonical form: one byte read and written, and a whole range replaced at once, for the
bank controller (spec/20_memory.md R61, R76). -/

namespace Sys2Proof.Machine

/-- What an unlisted address reads as. The spec leaves RAM at creation open (92_eei_decisions.md D20):
DESIGN CHOICE, notes/assumptions/2.md. -/
def Memory.blank : Byte := 0

/-- The byte at an address. -/
def Memory.read : Memory → Nat → Byte
  | [], _ => Memory.blank
  | (k, v) :: m, a => if a = k then v else Memory.read m a

/-- The array with one byte changed, in canonical form again. -/
def Memory.write : Memory → Nat → Byte → Memory
  | [], a, v => if v = Memory.blank then [] else [(a, v)]
  | (k, w) :: m, a, v =>
    if a < k then (if v = Memory.blank then (k, w) :: m else (a, v) :: (k, w) :: m)
    else if a = k then (if v = Memory.blank then m else (a, v) :: m)
    else (k, w) :: Memory.write m a v

/-- The cells of a run of bytes from an address on. -/
def Memory.ofBytes : Nat → List Byte → Memory
  | _, [] => []
  | a, v :: vs => if v = Memory.blank then Memory.ofBytes (a + 1) vs else (a, v) :: Memory.ofBytes (a + 1) vs

/-- The address lies in the range of `n` addresses from `lo` on. -/
def inRange (lo n a : Nat) : Bool := decide (lo ≤ a) && decide (a < lo + n)

/-- The cells of a range. -/
def Memory.slice (m : Memory) (lo n : Nat) : Memory := m.filter fun c => inRange lo n c.1

/-- The array with the cells of a range replaced by `new`, whose addresses lie in that range. -/
def Memory.splice (m : Memory) (lo n : Nat) (new : Memory) : Memory :=
  (m.filter fun c => decide (c.1 < lo)) ++ new ++ m.filter fun c => decide (lo + n ≤ c.1)

/-- Every listed address is at least `lo`, addresses rise, and no cell holds the blank byte. -/
def Memory.wfFrom : Nat → Memory → Bool
  | _, [] => true
  | lo, (k, v) :: m => decide (lo ≤ k) && (v != Memory.blank && Memory.wfFrom (k + 1) m)

/-- The canonical form. -/
def Memory.wf (m : Memory) : Bool := Memory.wfFrom 0 m

/-- `n` bytes of an array from an address on. -/
def Memory.bytes (m : Memory) (lo n : Nat) : List Byte := (List.range n).map fun k => m.read (lo + k)

end Sys2Proof.Machine
end

