-- ==== Sys2Proof/Machine/Banking.lean ====
section
/-! DEFINITION. The dispatch table and the bank controller (spec/20_memory.md R62, R73 to R76). -/

namespace Sys2Proof.Machine

/-- An entry of the dispatch table (R62). -/
inductive Handler where
  | ram
  | rom
  | dev
  deriving DecidableEq, Repr

/-- The four switchable regions (R74). -/
inductive Region where
  | selfTest
  | basic
  | osLow
  | osHigh
  deriving DecidableEq, Repr

/-- The first address of a region (R74). -/
def Region.base : Region → Nat
  | .selfTest => 0x5000
  | .basic => 0xA000
  | .osLow => 0xC000
  | .osHigh => 0xD800

/-- The number of addresses of a region (R74). -/
def Region.size : Region → Nat
  | .selfTest => 0x0800
  | .basic => 0x2000
  | .osLow => 0x1000
  | .osHigh => 0x2800

/-- Where a region's bytes start in its ROM image (R73). -/
def Region.offset : Region → Nat
  | .selfTest => 0x1000
  | .basic => 0x0000
  | .osLow => 0x0000
  | .osHigh => 0x1800

/-- Whether PORTB selects ROM for a region, its image being loaded (R74). -/
def Region.selected (portb : Byte) : Region → Bool
  | .selfTest => !portb.getLsbD 7 && portb.getLsbD 0
  | .basic => !portb.getLsbD 1
  | .osLow | .osHigh => portb.getLsbD 0

/-- The image a region's bytes come from, if it is loaded. -/
def State.imageOf (s : State) : Region → Option (List Byte)
  | .basic => s.basicRom
  | .selfTest | .osLow | .osHigh => s.osRom

/-- The bytes `rom(a)` of a region (R73). -/
def Region.bytes (r : Region) (image : List Byte) : List Byte := (image.drop r.offset).take r.size

/-- Whether the dispatch table maps a region to ROM. -/
def Banks.rom (b : Banks) : Region → Bool
  | .selfTest => b.selfTest
  | .basic => b.basic
  | .osLow => b.osLow
  | .osHigh => b.osHigh

/-- The table with one region's entries set. -/
def Banks.set (b : Banks) (r : Region) (rom : Bool) : Banks :=
  match r with
  | .selfTest => { b with selfTest := rom }
  | .basic => { b with basic := rom }
  | .osLow => { b with osLow := rom }
  | .osHigh => { b with osHigh := rom }

/-- The device window (R62). -/
def isDevice (a : Nat) : Bool := inRange 0xD000 0x0800 a

/-- The dispatch entry of an address (R62, R74). -/
def Banks.dispatch (b : Banks) (a : Nat) : Handler :=
  if isDevice a then .dev
  else if inRange 0x5000 0x0800 a then (if b.selfTest then .rom else .ram)
  else if inRange 0xA000 0x2000 a then (if b.basic then .rom else .ram)
  else if inRange 0xC000 0x1000 a then (if b.osLow then .rom else .ram)
  else if inRange 0xD800 0x2800 a then (if b.osHigh then .rom else .ram)
  else .ram

/-- The bank configuration of R74 for a region: ROM when PORTB selects it and its image is loaded. -/
def State.wantsRom (s : State) (r : Region) : Bool := r.selected s.pia.portb && (s.imageOf r).isSome

/-- The RAM to ROM transition of a region (R76): the live RAM bytes go to the shadow, the image's bytes appear. -/
def State.ramToRom (s : State) (r : Region) : State :=
  { s with
    sram := s.sram.splice r.base r.size (s.ram.slice r.base r.size)
    ram := s.ram.splice r.base r.size (Memory.ofBytes r.base (r.bytes ((s.imageOf r).getD [])))
    banks := s.banks.set r true }

/-- The ROM to RAM transition of a region (R76, 90_conflicts.md C2): the RAM comes back from the shadow. -/
def State.romToRam (s : State) (r : Region) : State :=
  { s with
    ram := s.ram.splice r.base r.size (s.sram.slice r.base r.size)
    banks := s.banks.set r false }

/-- One region of `install()`: a transition where its state differs, nothing where it does not (R75). -/
def State.installRegion (s : State) (r : Region) : State :=
  if s.banks.rom r = s.wantsRom r then s
  else if s.wantsRom r then s.ramToRom r
  else s.romToRam r

/-- `install()` (R75). -/
def State.install (s : State) : State :=
  (((s.installRegion .selfTest).installRegion .basic).installRegion .osLow).installRegion .osHigh

end Sys2Proof.Machine
end

