-- ==== Sys2Proof/Machine/Events.lean ====
section
/-! DEFINITION. The event fields, the wake cycle and the IRQ request (spec/61_platform_devices.md R360 to R362,
spec/60_exceptions.md R325, R335). -/

namespace Sys2Proof.Machine

/-- The nine events, in the order that breaks ties (R335). -/
inductive EventId where
  | fetch
  | draw
  | dli
  | timer1
  | timer2
  | timer4
  | serOutNeeded
  | serOutDone
  | serInReady
  deriving DecidableEq, Repr

/-- The events in order (R335). -/
def EventId.all : List EventId :=
  [.fetch, .draw, .dli, .timer1, .timer2, .timer4, .serOutNeeded, .serOutDone, .serInReady]

/-- The due cycle of an event, or never. -/
def Events.get (v : Events) : EventId → Option Nat
  | .fetch => v.fetch
  | .draw => v.draw
  | .dli => v.dli
  | .timer1 => v.timer1
  | .timer2 => v.timer2
  | .timer4 => v.timer4
  | .serOutNeeded => v.serOutNeeded
  | .serOutDone => v.serOutDone
  | .serInReady => v.serInReady

/-- The fields with one event armed or disarmed. -/
def Events.set (v : Events) (e : EventId) (t : Option Nat) : Events :=
  match e with
  | .fetch => { v with fetch := t }
  | .draw => { v with draw := t }
  | .dli => { v with dli := t }
  | .timer1 => { v with timer1 := t }
  | .timer2 => { v with timer2 := t }
  | .timer4 => { v with timer4 := t }
  | .serOutNeeded => { v with serOutNeeded := t }
  | .serOutDone => { v with serOutDone := t }
  | .serInReady => { v with serInReady := t }

/-- The smaller of two cycles, `never` counting as +infinity (R360). -/
def earlier : Option Nat → Option Nat → Option Nat
  | none, u => u
  | some t, none => some t
  | some t, some u => some (min t u)

/-- A cycle has been reached: `t <= now`, never for `never`. -/
def reached (t : Option Nat) (now : Nat) : Bool :=
  match t with
  | none => false
  | some t => decide (t ≤ now)

/-- The least due cycle among some events. -/
def Events.leastOf (v : Events) : List EventId → Option Nat
  | [] => none
  | e :: es => earlier (v.get e) (v.leastOf es)

/-- The minimum of the nine fields (R361). -/
def Events.least (v : Events) : Option Nat := v.leastOf EventId.all

/-- The first of some events, in order, that is due at a given cycle. -/
def Events.firstAt (v : Events) (t : Nat) : List EventId → Option EventId
  | [] => none
  | e :: es => if v.get e = some t then some e else v.firstAt t es

/-- `recompute_next()` (R361). -/
def State.recomputeNext (s : State) : State := { s with nextWake := s.events.least }

/-- Arms or disarms one event, then `recompute_next()` (R362). -/
def State.arm (s : State) (e : EventId) (t : Option Nat) : State :=
  { s with events := s.events.set e t }.recomputeNext

/-- `irq()`: the request is counted, nothing else happens (60_exceptions.md R325). -/
def State.irq (s : State) : State := { s with irqPending := s.irqPending + 1 }

/-- A POKEY source fires: its IRQST bits go to 0, and `irq()` is called if IRQEN enables it
(60_exceptions.md R324). -/
def State.fireIrq (s : State) (bits : Byte) : State :=
  let s := { s with pokey := { s.pokey with irqst := s.pokey.irqst &&& ~~~bits } }
  if s.pokey.irqen &&& bits = 0 then s else s.irq

/-- Cycles are added to the counter (10_state.md R32). -/
def State.addCycles (s : State) (n : Nat) : State := { s with cycle := s.cycle + n }

end Sys2Proof.Machine
end

