-- ==== Sys2Proof/Machine/Sio.lean ====
section
/-! DEFINITION. The SIO disk protocol of drive 1 (spec/61_platform_devices.md R406 to R413). -/

namespace Sys2Proof.Machine

/-- The size of the command/data buffer (00_scope.md R6, R406). -/
def sioBufferSize : Nat := 1024

/-- `'A'`, `'C'`, `'N'`: acknowledge, complete, not acknowledged (R407, R408). -/
def sioAck : Byte := 0x41
/-- `'C'` -/
def sioComplete : Byte := 0x43
/-- `'N'` -/
def sioNak : Byte := 0x4E

/-- One step of the running sum with end-around carry (R410). -/
def checksumStep (sum : Nat) (b : Byte) : Nat :=
  let t := sum + b.toNat
  if t > 255 then t - 255 else t

/-- The checksum of a run of bytes (R410). -/
def sioChecksum (bytes : List Byte) : Byte := BitVec.ofNat 8 (bytes.foldl checksumStep 0)

/-- The sector size an image's header declares, little-endian at bytes 4 and 5 (R409, R413). -/
def declaredSectorSize (image : List Byte) : Nat := (image.getD 4 0).toNat + 256 * (image.getD 5 0).toNat

/-- The bytes of a sector: sectors 1 to 3 are always 128 bytes (R409). -/
def sectorBytes (image : List Byte) (n : Nat) : Nat := if n ≤ 3 then 128 else declaredSectorSize image

/-- Where a sector starts in the image (R409). -/
def sectorOffset (image : List Byte) (n : Nat) : Nat :=
  if n ≤ 3 then 16 + (n - 1) * 128 else 16 + 384 + (n - 4) * declaredSectorSize image

/-- The sector is in the image. -/
def sectorValid (image : List Byte) (n : Nat) : Bool :=
  decide (1 ≤ n) && decide (sectorOffset image n + sectorBytes image n ≤ image.length)

/-- A sector's bytes. -/
def readSector (image : List Byte) (n : Nat) : List Byte :=
  (image.drop (sectorOffset image n)).take (sectorBytes image n)

/-- The image with a sector's bytes replaced (R408). -/
def writeSector (image : List Byte) (n : Nat) (data : List Byte) : List Byte :=
  image.take (sectorOffset image n) ++ data ++ image.drop (sectorOffset image n + data.length)

/-- The image with its data region zeroed (R408, FORMAT). -/
def formatImage (image : List Byte) : List Byte := image.take 16 ++ List.replicate (image.length - 16) 0

/-- A reply is queued and its first byte announced after the response delay; the frame's buffer is empty again and
no command is pending (R411, R412, 10_state.md R39). Bytes of an earlier reply not yet read are dropped (DESIGN CHOICE,
notes/assumptions/38.md). -/
def State.sioReply (s : State) (bytes : List Byte) : State :=
  { s with sio := { s.sio with phase := .command, buffer := [], command := none, sector := 0, expected := 0,
                               response := bytes, index := 0, remaining := bytes.length } }.arm
    .serInReady (some (s.cycle + s.params.serialResponse))

/-- An accepted WRITE, PUT or VERIFY: the ACK is queued and the data phase expects the sector's bytes and a
checksum (R408). -/
def State.sioExpectData (s : State) (cmd : Byte) (sector bytes : Nat) : State :=
  let s := s.sioReply [sioAck]
  { s with sio := { s.sio with phase := .data, command := some cmd, sector := sector, expected := bytes + 1 } }

/-- An accepted command of drive 1 (R408). The checksum of a READ SECTOR sums the sector bytes alone, not `'A'` and `'C'`
(R410; DESIGN CHOICE, notes/assumptions/42.md). Only READ, WRITE, PUT and VERIFY check the sector (DESIGN CHOICE,
notes/assumptions/44.md). A sector whose data frame does not fit the buffer is answered as one out of
range (DESIGN CHOICE, notes/assumptions/31.md). -/
def State.sioCommand (s : State) (image : List Byte) (cmd : Byte) (sector : Nat) : State :=
  if cmd = 0x52 then
    if sectorValid image sector then
      let data := readSector image sector
      s.sioReply (sioAck :: sioComplete :: (data ++ [sioChecksum data]))
    else s.sioReply [sioNak]
  else if cmd = 0x53 then
    s.sioReply ((List.range 5).map (Config.sioStatusByte (declaredSectorSize image)))
  else if cmd = 0x57 ∨ cmd = 0x50 ∨ cmd = 0x56 then
    if sectorValid image sector && decide (sectorBytes image sector + 1 ≤ sioBufferSize) then
      s.sioExpectData cmd sector (sectorBytes image sector)
    else s.sioReply [sioNak]
  else if cmd = 0x21 then
    { s with disk := some (formatImage image) }.sioReply (Config.sioFormatReply (declaredSectorSize image))
  else if cmd = s.params.sioMotorOn then s.sioReply [sioAck]
  else s.sioReply [sioNak]

/-- A whole command frame: device, command, aux1, aux2, checksum (R407). -/
def State.sioCommandFrame (s : State) (frame : List Byte) : State :=
  if sioChecksum (frame.take 4) ≠ frame.getD 4 0 then s.sioReply [sioNak]
  else if frame.getD 0 0 ≠ 0x31 then s.sioReply [sioNak]
  else
    match s.disk with
    | none => s.sioReply [sioNak]
    | some image => s.sioCommand image (frame.getD 1 0) (joinBytes (frame.getD 3 0) (frame.getD 2 0)).toNat

/-- A whole data frame: the sector's bytes and their checksum (R408, which gives "A C" for WRITE SECTOR; that a PUT and a
VERIFY whose bytes agree answer the same is a DESIGN CHOICE, notes/assumptions/18.md). It acts on the disk image loaded when
it completes (DESIGN CHOICE, notes/assumptions/43.md). -/
def State.sioDataFrame (s : State) (frame : List Byte) : State :=
  let data := frame.take (s.sio.expected - 1)
  if sioChecksum data ≠ frame.getD (s.sio.expected - 1) 0 then s.sioReply [sioNak]
  else
    match s.disk with
    | none => s.sioReply [sioNak]
    | some image =>
      if s.sio.command = some 0x56 then
        if readSector image s.sio.sector = data then s.sioReply [sioAck, sioComplete]
        else s.sioReply Config.sioVerifyMismatch
      else { s with disk := some (writeSector image s.sio.sector data) }.sioReply [sioAck, sioComplete]

/-- A byte handed to the SIO machine (R407, R412); the buffer takes no byte beyond its 1 KB. -/
def State.sioByte (s : State) (v : Byte) : State :=
  let frame := (s.sio.buffer ++ [v]).take sioBufferSize
  match s.sio.phase with
  | .command =>
    if frame.length < 5 then { s with sio := { s.sio with buffer := frame } } else s.sioCommandFrame frame
  | .data =>
    if frame.length < s.sio.expected then { s with sio := { s.sio with buffer := frame } }
    else s.sioDataFrame frame

/-- SEROUT write: the byte goes to the SIO machine and the two output events are armed (R412). -/
def State.seroutWrite (s : State) (v : Byte) : State :=
  ((s.sioByte v).arm .serOutNeeded (some (s.cycle + s.params.serialOutNeeded))).arm
    .serOutDone (some (s.cycle + s.params.serialOutDone))

/-- SERIN read: one byte of the response is consumed and the next one announced (R411). -/
def State.serinRead (s : State) : Byte × State :=
  if s.sio.remaining = 0 then (s.sio.lastByte, s)
  else
    let v := s.sio.response.getD s.sio.index s.sio.lastByte
    if s.sio.remaining = 1 then
      (v, { s with sio := { s.sio with response := [], index := 0, remaining := 0, lastByte := v } })
    else
      (v, { s with sio := { s.sio with index := s.sio.index + 1, remaining := s.sio.remaining - 1, lastByte := v } }.arm
            .serInReady (some (s.cycle + s.params.serialByte)))

end Sys2Proof.Machine
end

