-- ==== Sys2Proof/Machine/Sound.lean ====
section
/-! DEFINITION. The POKEY engine: periods, channels, LFSRs, mixing and `sync` (spec/61_platform_devices.md R391, R392,
R398, R399). -/

namespace Sys2Proof.Machine

/-! ## Registers as written -/

/-- AUDCTL (R392). -/
def State.audctl (s : State) : Byte := s.sram.read 0xD208

/-- AUDFn, `n` in 1..4 (R393). -/
def State.audf (s : State) (n : Nat) : Nat := (s.sram.read (0xD200 + 2 * (n - 1))).toNat

/-- AUDCn, `n` in 1..4 (R393). -/
def State.audc (s : State) (n : Nat) : Byte := s.sram.read (0xD201 + 2 * (n - 1))

/-- SKCTL (R393). -/
def State.skctl (s : State) : Byte := s.sram.read 0xD20F

/-! ## Periods (R391, R392): a divisor, and a count of its pulses -/

/-- The base divisor: 28, or 114 when AUDCTL bit 0 is set, by default. -/
def State.baseDivisor (s : State) : Nat := if s.audctl.getLsbD 0 then s.params.pokeyDiv.slow else s.params.pokeyDiv.base

/-- Channels 1 and 2, or 3 and 4, are joined (AUDCTL bits 4 and 3). -/
def State.joined (s : State) (n : Nat) : Bool := if n ≤ 2 then s.audctl.getLsbD 4 else s.audctl.getLsbD 3

/-- A channel is clocked at 1: channel 1 or 3 by AUDCTL bit 6 or 5, and the partner it is joined to. -/
def State.fastClock (s : State) (n : Nat) : Bool :=
  (n = 1 || n = 3 || s.joined n) && (if n ≤ 2 then s.audctl.getLsbD 6 else s.audctl.getLsbD 5)

/-- The divisor that clocks a channel. -/
def State.divisor (s : State) (n : Nat) : Nat := if s.fastClock n then 1 else s.baseDivisor

/-- The clocks between two pulses of a channel: AUDFn + 1, or + 4 clocked at 1; for a joined pair its 16-bit count + 1,
or + 7 clocked at 1, by default. Both channels of a pair have the pair's (notes/assumptions/19.md). -/
def State.reload (s : State) (n : Nat) : Nat :=
  let d := s.params.pokeyDiv
  if s.joined n then
    let lo := if n ≤ 2 then 1 else 3
    s.audf (lo + 1) * 256 + s.audf lo + (if s.fastClock n then d.fastPair else d.pair)
  else s.audf n + (if s.fastClock n then d.fast else d.single)

/-- `period(n)` in CPU cycles. -/
def State.period (s : State) (n : Nat) : Nat := s.reload n * s.divisor n

/-! ## Channels (R391) -/

/-- One CPU cycle of a channel's reload counter, and whether it pulses: the clock accumulator counts the divisor, the
down-counter its clocks. -/
def Channel.clock (c : Channel) (divisor reload : Nat) : Channel × Bool :=
  if c.clockAcc + 1 < divisor then ({ c with clockAcc := c.clockAcc + 1 }, false)
  else if 1 < c.counter then ({ c with clockAcc := 0, counter := c.counter - 1 }, false)
  else ({ c with clockAcc := 0, counter := reload }, true)

/-- The noise bit: the 17-bit LFSR's, or the 9-bit one's when AUDCTL bit 7 is set (R391, R392). -/
def Pokey.noise (p : Pokey) (audctl : Byte) : Bool :=
  if audctl.getLsbD 7 then Config.lfsr9Output p.lfsr9 else Config.lfsr17Output p.lfsr17

/-- A channel's output after a pulse, by the distortion bits 7..5 of its AUDC. -/
def Pokey.pulsed (p : Pokey) (audctl audc : Byte) (output : Bool) : Bool :=
  match Config.pulseAction (audc.extractLsb' 5 3) p.lfsr5 with
  | .toggle => !output
  | .copyNoise => p.noise audctl
  | .copyPoly4 => Config.lfsr4Output p.lfsr4
  | .hold => output

/-- One CPU cycle of channel `n`: clocked, and its output moved on a pulse. -/
def State.stepChannel (s : State) (p : Pokey) (n : Nat) (c : Channel) : Channel × Bool :=
  let k := c.clock (s.divisor n) (s.reload n)
  (if k.2 then { k.1 with output := p.pulsed s.audctl (s.audc n) k.1.output } else k.1, k.2)

/-- The high-pass latch: a pulse of the clocking channel latches the filtered one's output, whether or not AUDCTL has the
filter on (R392; the latter a DESIGN CHOICE, notes/assumptions/11.md). -/
def Channel.latch (c : Channel) (pulse : Bool) : Channel := if pulse then { c with gate := c.output } else c

/-- One CPU cycle of the four channels. Channel 3 clocks the filter of channel 1, channel 4 that of channel 2. -/
def State.stepChannels (s : State) (p : Pokey) : Channels :=
  let one := s.stepChannel p 1 p.channels.one
  let two := s.stepChannel p 2 p.channels.two
  let three := s.stepChannel p 3 p.channels.three
  let four := s.stepChannel p 4 p.channels.four
  { one := one.1.latch three.2, two := two.1.latch four.2, three := three.1, four := four.1 }

/-! ## Mixing (R399) -/

/-- What a channel adds to the mix: its volume while its bit is set, and always with the volume-only bit (R391). The bit
goes through the gate where the high-pass filter is on (R392). -/
def channelLevel (audc : Byte) (filtered : Bool) (c : Channel) : Nat :=
  let volume := (audc &&& 0x0F).toNat
  if audc.getLsbD 4 then volume
  else if (if filtered then Config.gatedBit c.output c.gate else c.output) then volume
  else 0

/-- The sum of bit times volume over the four channels; AUDCTL bits 2 and 1 are the high-pass filters of channels 1 and
2. -/
def State.mix (s : State) (c : Channels) : Nat :=
  channelLevel (s.audc 1) (s.audctl.getLsbD 2) c.one + channelLevel (s.audc 2) (s.audctl.getLsbD 1) c.two +
    channelLevel (s.audc 3) false c.three + channelLevel (s.audc 4) false c.four

/-- One CPU cycle of audio output: the level is accumulated, and the sample clock, in 1/65536 cycle, emits the
accumulated value at each sample boundary. -/
def Audio.step (u : Audio) (level : Int) (ringSize : Nat) : Audio :=
  let clock := u.sampleClock + 65536
  let sum := u.accumulator + level
  let made := clock / u.cyclesPerSample
  if made = 0 then { u with sampleClock := clock, accumulator := sum }
  else
    let ring := u.ring ++ List.replicate made sum
    { u with ring := ring.drop (ring.length - ringSize), accumulator := 0, sampleClock := clock % u.cyclesPerSample }

/-! ## `sync` (R398) -/

/-- A function applied `k` times. -/
def applyTimes {α : Type} (f : α → α) : Nat → α → α
  | 0, x => x
  | k + 1, x => applyTimes f k (f x)

/-- One CPU cycle of the LFSRs, held at their seeds while SKCTL bits 1..0 are 0 (R393). -/
def Pokey.stepLfsrs (p : Pokey) (held : Bool) : Pokey :=
  { p with
    lfsr17 := if held then Config.lfsr17Seed else Config.lfsr17Step p.lfsr17
    lfsr9 := if held then Config.lfsr9Seed else Config.lfsr9Step p.lfsr9
    lfsr5 := if held then Config.lfsr5Seed else Config.lfsr5Step p.lfsr5
    lfsr4 := if held then Config.lfsr4Seed else Config.lfsr4Step p.lfsr4 }

/-- One CPU cycle of POKEY: LFSRs, then channels, then audio output if it is enabled. -/
def State.pokeyCycle (s : State) (p : Pokey) : Pokey :=
  let p := p.stepLfsrs (s.skctl &&& 3 == 0)
  let channels := s.stepChannels p
  { p with
    channels := channels
    audio := p.audio.map fun u => u.step (Config.mixScale (s.mix channels)) s.params.audioRingSize }

/-- `sync(c)`: dividers, LFSRs and audio advance by `c - last_sync` cycles (R398). -/
def State.sync (s : State) (c : Nat) : State :=
  { s with pokey := { applyTimes s.pokeyCycle (c - s.pokey.lastSync) s.pokey with lastSync := c } }

end Sys2Proof.Machine
end

