-- ==== Sys2Proof/Machine/Pokey.lean ====
section
/-! DEFINITION. POKEY as the CPU sees it: registers, timers, RANDOM, keyboard status
(spec/61_platform_devices.md R393 to R398). -/

namespace Sys2Proof.Machine

/-- When timer `n` is due next, counting from a cycle: never if the period is zero (R396). -/
def State.timerDue (s : State) (n from_ : Nat) : Option Nat :=
  if s.period n = 0 then none else some (from_ + s.period n)

/-- RANDOM read: synchronise, then the complemented high eight bits of the 17-bit LFSR, or of the 9-bit one when
AUDCTL bit 7 is set (R398). -/
def State.randomRead (s : State) : Byte × State :=
  let t := s.sync s.cycle
  (~~~(if s.audctl.getLsbD 7 then t.pokey.lfsr9.extractLsb' 1 8 else t.pokey.lfsr17.extractLsb' 9 8), t)

/-- SKSTAT: bit 2 is clear while a key is down, BREAK among them, bit 3 while shift is down, the rest set (R397). -/
def State.skstat (s : State) : Byte :=
  (if s.pokey.keysDown.isEmpty then 0xFF else 0xFB) &&& (if s.pokey.shiftDown.isEmpty then 0xFF else 0xF7)

/-- A POKEY read at an offset 0..15 (R393). -/
def State.pokeyRead (s : State) (off : Nat) : Byte × State :=
  if off < 8 then (228, s)
  else if off = 8 then (0, s)
  else if off = 9 then (s.pokey.kbcode, s)
  else if off = 10 then s.randomRead
  else if off = 13 then s.serinRead
  else if off = 14 then (s.pokey.irqst, s)
  else if off = 15 then (s.skstat, s)
  else (s.params.devUnmappedRead, s)

/-- Which POKEY writes `sync(cycle)` precedes: AUDFn, AUDCn, AUDCTL, SKCTL (R393). -/
def pokeySyncsBefore (off : Nat) : Bool := decide (off ≤ 8) || decide (off = 15)

/-- STIMER write: the three timers are armed from the handler's cycle (R396). -/
def State.stimerWrite (s : State) : State :=
  ((s.arm .timer1 (s.timerDue 1 s.cycle)).arm .timer2 (s.timerDue 2 s.cycle)).arm .timer4 (s.timerDue 4 s.cycle)

/-- IRQEN write: a disabled source's status returns to 1 (R394). -/
def State.irqenWrite (s : State) (v : Byte) : State :=
  { s with pokey := { s.pokey with irqen := v, irqst := s.pokey.irqst ||| ~~~v } }

/-- What a POKEY write at an offset does beyond the byte held in `sram` (R393). -/
def State.pokeyWrite (s : State) (off : Nat) (v : Byte) : State :=
  if off = 9 then s.stimerWrite
  else if off = 13 then s.seroutWrite v
  else if off = 14 then s.irqenWrite v
  else s

end Sys2Proof.Machine
end

