-- ==== Sys2Proof/Machine/Device.lean ====
section
/-! DEFINITION. The device window `$D000..$D7FF`: PIA, GTIA and ANTIC registers, and the selection of a chip by
address (spec/20_memory.md R72, spec/61_platform_devices.md R375, R387, R401). -/

namespace Sys2Proof.Machine

/-! ## PIA -/

/-- A port read: latch and input merged by direction, or the direction register (R404). -/
def portRead (control latch direction input : Byte) : Byte :=
  if control.getLsbD 2 then (latch &&& direction) ||| (input &&& ~~~direction) else direction

/-- A PIA read at an offset 0..3 (R402, R404). -/
def State.piaRead (s : State) (off : Nat) : Byte :=
  let p := s.pia
  if off = 0 then portRead p.pactl p.porta p.ddra p.portaIn
  else if off = 1 then portRead p.pbctl p.portb p.ddrb p.portbIn
  else if off = 2 then p.pactl &&& 0x3F
  else p.pbctl &&& 0x3F

/-- PORTB data write: the latch, then `install()` (R403, 20_memory.md R75). -/
def State.portbWrite (s : State) (v : Byte) : State := { s with pia := { s.pia with portb := v } }.install

/-- A PIA write at an offset 0..3 (R402, R403). -/
def State.piaWrite (s : State) (off : Nat) (v : Byte) : State :=
  if off = 0 then
    if s.pia.pactl.getLsbD 2 then { s with pia := { s.pia with porta := v } }
    else { s with pia := { s.pia with ddra := v } }
  else if off = 1 then
    if s.pia.pbctl.getLsbD 2 then s.portbWrite v
    else { s with pia := { s.pia with ddrb := v } }
  else if off = 2 then { s with pia := { s.pia with pactl := v } }
  else { s with pia := { s.pia with pbctl := v } }

/-! ## GTIA -/

/-- GRACTL as written (R387). -/
def State.gractl (s : State) : Byte := s.sram.read 0xD01D

/-- A trigger counts as pressed: now, or since the latch was enabled (R390). -/
def State.triggerDown (s : State) (n : Nat) : Bool :=
  s.gtia.trigPressed.getLsbD n || (s.gractl.getLsbD 2 && s.gtia.trigLatched.getLsbD n)

/-- A GTIA read at an offset 0..31 (R387, R388, R390). -/
def State.gtiaRead (s : State) (off : Nat) : Byte :=
  if off < 16 then s.ram.read (0xD000 + off) &&& 0x0F
  else if off < 20 then (if s.triggerDown (off - 16) then 0 else 1)
  else if off = 20 then 1
  else if off = 31 then s.gtia.consol.setWidth 8
  else s.params.devUnmappedRead

/-- HITCLR: all sixteen collision registers are cleared (R387, R388). -/
def State.clearCollisions (s : State) : State := { s with ram := s.ram.splice 0xD000 16 [] }

/-- GRACTL write: bit 2 latches the triggers now pressed, its absence clears the latches (R390). -/
def State.gractlWrite (s : State) (v : Byte) : State :=
  { s with gtia := { s.gtia with
      trigLatched := if v.getLsbD 2 then s.gtia.trigLatched ||| s.gtia.trigPressed else 0 } }

/-- What a GTIA write at an offset does beyond the byte held in `sram` (R387). VDELAY and the speaker bit of CONSOL, to which
R387 gives no effect, have none (DESIGN CHOICE, notes/assumptions/46.md). -/
def State.gtiaWrite (s : State) (off : Nat) (v : Byte) : State :=
  if off = 0x0D then { s with gtia := { s.gtia with grafp0 := v } }
  else if off = 0x0E then { s with gtia := { s.gtia with grafp1 := v } }
  else if off = 0x0F then { s with gtia := { s.gtia with grafp2 := v } }
  else if off = 0x10 then { s with gtia := { s.gtia with grafp3 := v } }
  else if off = 0x11 then { s with gtia := { s.gtia with grafm := v } }
  else if off = 0x1D then s.gractlWrite v
  else if off = 0x1E then s.clearCollisions
  else s

/-! ## ANTIC -/

/-- NMIST as read: bit 5 reads 0, bits 4..0 read 1 (R381). -/
def State.nmistRead (s : State) : Byte := (s.antic.nmist &&& 0xC0) ||| 0x1F

/-- An ANTIC read at an offset 0..15 (R375, R377, R381). -/
def State.anticRead (s : State) (off : Nat) : Byte :=
  if off = 11 then BitVec.ofNat 8 (s.antic.scanline / 2)
  else if off = 15 then s.nmistRead
  else s.params.devUnmappedRead

/-- `stall_until <- max(stall_until, t)`: a writer never lowers it (10_state.md R33). -/
def State.raiseStall (s : State) (t : Nat) : State := { s with stallUntil := max s.stallUntil t }

/-- What an ANTIC write at an offset does beyond the byte held in `sram` (R375, R378, R380, R381). -/
def State.anticWrite (s : State) (off : Nat) (v : Byte) : State :=
  if off = 2 then { s with antic := { s.antic with dlpc := joinBytes (hiByte s.antic.dlpc) v } }
  else if off = 3 then { s with antic := { s.antic with dlpc := joinBytes v (loByte s.antic.dlpc) } }
  else if off = 10 then s.raiseStall (s.antic.lineStart + 114)
  else if off = 14 then { s with antic := { s.antic with nmien := v } }
  else if off = 15 then { s with antic := { s.antic with nmist := 0 } }
  else s

/-! ## The window -/

/-- The chips of the device window (20_memory.md R72). -/
inductive Chip where
  | gtia
  | pokey
  | pia
  | antic
  | unmapped
  deriving DecidableEq, Repr

/-- The chip an address of the window selects; there are no mirrors (R72, D26). -/
def chipOf (a : Nat) : Chip :=
  if inRange 0xD000 32 a then .gtia
  else if inRange 0xD200 16 a then .pokey
  else if inRange 0xD300 4 a then .pia
  else if inRange 0xD400 16 a then .antic
  else .unmapped

/-- `dev_read(a)` (R72). -/
def State.devRead (s : State) (a : Nat) : Byte × State :=
  match chipOf a with
  | .gtia => (s.gtiaRead (a - 0xD000), s)
  | .pokey => s.pokeyRead (a - 0xD200)
  | .pia => (s.piaRead (a - 0xD300), s)
  | .antic => (s.anticRead (a - 0xD400), s)
  | .unmapped => (s.params.devUnmappedRead, s)

/-- What comes before a device write is stored: POKEY's `sync(cycle)` for the registers it depends on (R393). -/
def State.beforeDevWrite (s : State) (a : Nat) : State :=
  match chipOf a with
  | .pokey => if pokeySyncsBefore (a - 0xD200) then s.sync s.cycle else s
  | .gtia | .pia | .antic | .unmapped => s

/-- `dev_write(a, v)` (R72). -/
def State.devWrite (s : State) (a : Nat) (v : Byte) : State :=
  match chipOf a with
  | .gtia => s.gtiaWrite (a - 0xD000) v
  | .pokey => s.pokeyWrite (a - 0xD200) v
  | .pia => s.piaWrite (a - 0xD300) v
  | .antic => s.anticWrite (a - 0xD400) v
  | .unmapped => s

end Sys2Proof.Machine
end

