-- ==== Sys2Proof/Machine/Flags.lean ====
section
/-! DEFINITION. The status byte and every flag computation: results, compares, binary and decimal addition and
subtraction, shifts and rotates (spec/10_state.md R30, R31, spec/43_logic_compare.md R217, spec/44_arithmetic.md R220
to R223, spec/45_shift_incdec.md R240). -/

namespace Sys2Proof.Machine

/-- A boolean as the number 0 or 1 (00_scope.md R8). -/
def bit (p : Bool) : Nat := if p then 1 else 0

/-! ## The status byte -/

/-- `pack(b)`: bit 5 is 1, bit 4 is `b`, not the stored `B` (R28, R30). -/
def Flags.pack (f : Flags) (b : Bool) : Byte :=
  BitVec.ofBool f.n ++ BitVec.ofBool f.v ++ 1#1 ++ BitVec.ofBool b ++ BitVec.ofBool f.d ++ BitVec.ofBool f.i ++
    BitVec.ofBool f.z ++ BitVec.ofBool f.c

/-- `unpack(v)`: bit 5 is ignored (R31). -/
def unpack (v : Byte) : Flags where
  n := v.getLsbD 7
  v := v.getLsbD 6
  b := v.getLsbD 4
  d := v.getLsbD 3
  i := v.getLsbD 2
  z := v.getLsbD 1
  c := v.getLsbD 0

/-! ## Results and compares -/

/-- `setNZ(v)` (00_scope.md R9). -/
def Flags.setNZ (f : Flags) (v : Byte) : Flags := { f with n := v.msb, z := decide (v = 0) }

/-- `compare(reg, m)`: `N`, `Z`, `C` of an unsigned comparison; `V` and `D` play no part (R217). -/
def Flags.compare (f : Flags) (reg m : Byte) : Flags :=
  { f with c := decide (m.toNat ≤ reg.toNat), z := decide (reg = m), n := (reg - m).msb }

/-- BIT: `Z` from the and, `N` and `V` from the memory byte (43_logic_compare.md R213). -/
def Flags.testBits (f : Flags) (a m : Byte) : Flags :=
  { f with z := decide (a &&& m = 0), n := m.getLsbD 7, v := m.getLsbD 6 }

/-! ## Addition and subtraction: the new accumulator and the new flags -/

/-- The sum `A + m + C` before it is cut (R220). -/
def addSum (a m : Byte) (c : Bool) : Nat := a.toNat + m.toNat + bit c

/-- The flags of a binary addition: operands of equal sign and a result of the other sign set `V` (R220). -/
def Flags.ofSum (f : Flags) (a m : Byte) : Flags :=
  let r := BitVec.ofNat 8 (addSum a m f.c)
  { f with
    v := decide ((a ^^^ r) &&& (m ^^^ r) &&& 0x80 ≠ 0)
    c := decide (255 < addSum a m f.c)
    n := r.msb
    z := decide (r = 0) }

/-- Binary addition (R220). -/
def adcBinary (f : Flags) (a m : Byte) : Byte × Flags := (BitVec.ofNat 8 (addSum a m f.c), f.ofSum a m)

/-- The low digit of a decimal addition after its correction pass (R221). -/
def decimalAddLow (a m : Byte) (c : Bool) : Nat :=
  let al := a.toNat % 16 + m.toNat % 16 + bit c
  if 10 ≤ al then (al + 6) % 16 + 16 else al

/-- The sum of a decimal addition after both correction passes (R221). -/
def decimalAddSum (a m : Byte) (c : Bool) : Nat :=
  let t := a.toNat / 16 * 16 + m.toNat / 16 * 16 + decimalAddLow a m c
  if 0xA0 ≤ t then t + 0x60 else t

/-- Decimal addition: `Z`, `N`, `V` come from the binary sum, `C` and the value from the corrected one
(R221, 90_conflicts.md C11). -/
def adcDecimal (f : Flags) (a m : Byte) : Byte × Flags :=
  let t := decimalAddSum a m f.c
  (BitVec.ofNat 8 t, { f.ofSum a m with c := decide (0x100 ≤ t) })

/-- `adc(m)`: `D` selects the function (R224). -/
def adc (f : Flags) (a m : Byte) : Byte × Flags := if f.d then adcDecimal f a m else adcBinary f a m

/-- Binary subtraction: addition of the complement (R222). -/
def sbcBinary (f : Flags) (a m : Byte) : Byte × Flags := adcBinary f a (~~~m)

/-- The low digit of a decimal subtraction after its correction pass, a signed integer (R223). -/
def decimalSubLow (a m : Byte) (c : Bool) : Int :=
  let al : Int := (a.toNat % 16 : Int) - (m.toNat % 16 : Int) + bit c - 1
  if al < 0 then (al - 6) % 16 - 16 else al

/-- The value of a decimal subtraction after both correction passes, before it is cut (R223). -/
def decimalSubDifference (a m : Byte) (c : Bool) : Int :=
  let t : Int := (a.toNat / 16 * 16 : Int) - (m.toNat / 16 * 16 : Int) + decimalSubLow a m c
  if t < 0 then t - 0x60 else t

/-- Decimal subtraction: all four flags are the binary ones, only the value is corrected (R223). -/
def sbcDecimal (f : Flags) (a m : Byte) : Byte × Flags :=
  (BitVec.ofInt 8 (decimalSubDifference a m f.c), f.ofSum a (~~~m))

/-- `sbc(m)`: `D` selects the function (R225). -/
def sbc (f : Flags) (a m : Byte) : Byte × Flags := if f.d then sbcDecimal f a m else sbcBinary f a m

/-! ## Shifts and rotates: the new byte and the new carry (R240) -/

/-- `asl(v)` -/
def shiftLeft (_ : Bool) (v : Byte) : Byte × Bool := (v <<< 1, v.getLsbD 7)

/-- `lsr(v)` -/
def shiftRight (_ : Bool) (v : Byte) : Byte × Bool := (v >>> 1, v.getLsbD 0)

/-- `rol(v)`, given the old carry -/
def rotateLeft (c : Bool) (v : Byte) : Byte × Bool := (v.extractLsb' 0 7 ++ BitVec.ofBool c, v.getLsbD 7)

/-- `ror(v)`, given the old carry -/
def rotateRight (c : Bool) (v : Byte) : Byte × Bool := (BitVec.ofBool c ++ v.extractLsb' 1 7, v.getLsbD 0)

end Sys2Proof.Machine
end

