-- ==== Sys2Proof/Machine/Ops.lean ====
section
/-! DEFINITION. The named operations over memory and registers: the two access primitives, words, the stack, register
writes, taking an interrupt and returning from one (spec/20_memory.md R64, R65, spec/10_state.md R27,
spec/60_exceptions.md R326, R331). -/

namespace Sys2Proof.Machine

/-! ## Memory -/

/-- `MemRead(a)` (R64). -/
def State.memRead (s : State) (a : Word) : Byte × State :=
  match s.banks.dispatch a.toNat with
  | .ram | .rom => (s.ram.read a.toNat, s)
  | .dev => s.devRead a.toNat

/-- A byte stored in the write-shadow array. -/
def State.setShadow (s : State) (a : Nat) (v : Byte) : State := { s with sram := s.sram.write a v }

/-- `MemWrite(a, v)` (R65). -/
def State.memWrite (s : State) (a : Word) (v : Byte) : State :=
  match s.banks.dispatch a.toNat with
  | .ram => { s with ram := s.ram.write a.toNat v }
  | .rom => s.setShadow a.toNat v
  | .dev => ((s.beforeDevWrite a.toNat).setShadow a.toNat v).devWrite a.toNat v

/-- Two bytes read in order, the first the low byte, as a word (R66). -/
def State.readPair (s : State) (lo hi : Word) : Word × State :=
  let l := s.memRead lo
  let h := l.2.memRead hi
  (joinBytes h.1 l.1, h.2)

/-- `read16(a)` (00_scope.md R9). -/
def State.read16 (s : State) (a : Word) : Word × State := s.readPair a (a + 1)

/-- The word address of a page-zero byte. -/
def zeroPage (d : Byte) : Word := joinBytes 0 d

/-- `read16_zp(z)`: the second byte wraps inside page zero (00_scope.md R9). -/
def State.read16zp (s : State) (z : Byte) : Word × State := s.readPair (zeroPage z) (zeroPage (z + 1))

/-! ## Registers -/

/-- `A <- v; setNZ(A)` -/
def State.loadA (s : State) (v : Byte) : State := { s with a := v, flags := s.flags.setNZ v }
/-- `X <- v; setNZ(X)` -/
def State.loadX (s : State) (v : Byte) : State := { s with x := v, flags := s.flags.setNZ v }
/-- `Y <- v; setNZ(Y)` -/
def State.loadY (s : State) (v : Byte) : State := { s with y := v, flags := s.flags.setNZ v }
/-- `setNZ(v)` -/
def State.setNZ (s : State) (v : Byte) : State := { s with flags := s.flags.setNZ v }
/-- The carry written. -/
def State.setC (s : State) (c : Bool) : State := { s with flags := { s.flags with c := c } }
/-- The program counter written. -/
def State.setPc (s : State) (w : Word) : State := { s with pc := w }
/-- The accumulator and the flags written from an addition or subtraction. -/
def State.setResult (s : State) (r : Byte × Flags) : State := { s with a := r.1, flags := r.2 }

/-! ## Stack (R27) -/

/-- `$0100 | SP`: every stack access is in page 1 (R21). -/
def stackAddress (sp : Byte) : Word := joinBytes 1 sp

/-- `push8(v)` -/
def State.push8 (s : State) (v : Byte) : State :=
  let t := s.memWrite (stackAddress s.sp) v
  { t with sp := t.sp - 1 }

/-- `pull8()` -/
def State.pull8 (s : State) : Byte × State :=
  { s with sp := s.sp + 1 }.memRead (stackAddress (s.sp + 1))

/-- `push16(w)`: high byte first, at the higher address -/
def State.push16 (s : State) (w : Word) : State := (s.push8 (hiByte w)).push8 (loByte w)

/-- `pull16()` -/
def State.pull16 (s : State) : Word × State :=
  let l := s.pull8
  let h := l.2.pull8
  (joinBytes h.1 l.1, h.2)

/-! ## Taking an interrupt and returning from one -/

/-- The shape every handler entry shares: push the return address, push the packed flags with bit 4 as given, set `I`,
load `PC` from a vector (60_exceptions.md R320, R326, R327). The pushed status holds the old `I`. -/
def State.enterHandler (s : State) (ret : Word) (brk : Bool) (vector : Word) : State :=
  let t := (s.push16 ret).push8 (s.flags.pack brk)
  let u := { t with flags := { t.flags with i := true } }
  let w := u.read16 vector
  w.2.setPc w.1

/-- The NMI vector (20_memory.md R77). -/
def nmiVector : Word := 0xFFFA
/-- The reset vector (R77). -/
def resetVector : Word := 0xFFFC
/-- The vector IRQ and BRK share (R77). -/
def irqVector : Word := 0xFFFE

/-- `service_irq()` (60_exceptions.md R326). -/
def State.serviceIrq (s : State) : State :=
  let t := (s.enterHandler s.pc false irqVector).addCycles 7
  { t with irqPending := t.irqPending - 1 }

/-- `nmi()` (60_exceptions.md R331). -/
def State.nmi (s : State) : State := (s.enterHandler s.pc false nmiVector).addCycles s.params.nmiCost

/-- The return from a handler: the flags, then `PC` (46_control_flow.md R253, 60_exceptions.md R328). -/
def State.returnFromHandler (s : State) : State :=
  let p := s.pull8
  let t := { p.2 with flags := unpack p.1 }
  let w := t.pull16
  w.2.setPc w.1

end Sys2Proof.Machine
end

