-- ==== Sys2Proof/Machine/Operands.lean ====
section
/-! DEFINITION. The addressing modes, the operand helpers and the cycle accounting
(spec/40_step_and_addressing.md R138 to R153). The operand bytes are part of the instruction term: `step` fetched them,
and `PC` is already past them (R136). -/

namespace Sys2Proof.Machine

/-- The record `r` of R138: effective address, immediate or displacement byte, page crossed. -/
structure Resolved where
  ea      : Word
  val     : Byte
  crossed : Bool
  deriving DecidableEq, Repr

/-- An address with no page crossed. -/
def Resolved.at (ea : Word) : Resolved := { ea := ea, val := 0, crossed := false }

/-- An indexed address; crossed when the high bytes differ (R146, R149). -/
def Resolved.indexed (base : Word) (index : Byte) : Resolved :=
  let ea := base + index.setWidth 16
  { ea := ea, val := 0, crossed := hiByte ea != hiByte base }

/-- Where the high byte of an indirect jump's target is read (R147). -/
def indirectHigh (wrap : Bool) (ptr : Word) : Word :=
  if wrap then joinBytes (hiByte ptr) (loByte ptr + 1) else ptr + 1

/-- `resolve(mode)` (R138 to R150): the pointer bytes of the indirect modes are read here, low byte first. -/
def State.resolve (s : State) : Operand → Resolved × State
  | .imp | .acc => (Resolved.at 0, s)
  | .imm v | .rel v => ({ ea := 0, val := v, crossed := false }, s)
  | .zp d => (Resolved.at (zeroPage d), s)
  | .zpx d => (Resolved.at (zeroPage (d + s.x)), s)
  | .zpy d => (Resolved.at (zeroPage (d + s.y)), s)
  | .abs w => (Resolved.at w, s)
  | .abx w => (Resolved.indexed w s.x, s)
  | .aby w => (Resolved.indexed w s.y, s)
  | .ind w =>
    let p := s.readPair w (indirectHigh s.params.jmpIndPageWrap w)
    (Resolved.at p.1, p.2)
  | .izx d =>
    let p := s.read16zp (d + s.x)
    (Resolved.at p.1, p.2)
  | .izy d =>
    let p := s.read16zp d
    (Resolved.indexed p.1 p.2.y, p.2)

/-- `load(mode, r)` (R151). -/
def State.load (s : State) (o : Operand) (r : Resolved) : Byte × State :=
  match o.mode with
  | .imm => (r.val, s)
  | .acc => (s.a, s)
  | _ => s.memRead r.ea

/-- `store(mode, r, v)` (R151). -/
def State.store (s : State) (o : Operand) (r : Resolved) (v : Byte) : State :=
  match o.mode with
  | .acc => { s with a := v }
  | _ => s.memWrite r.ea v

/-! ## Cycle costs by mode (30_encoding.md R105, R106, R152, R153) -/

/-- Base cost of the instructions that read their operand. -/
def readCycles : Mode → Nat
  | .imp | .acc | .imm | .rel => 2
  | .zp => 3
  | .zpx | .zpy | .abs | .abx | .aby => 4
  | .izy | .ind => 5
  | .izx => 6

/-- Base cost of the stores, which pay for the index always. -/
def storeCycles : Mode → Nat
  | .imp | .acc | .imm | .rel => 2
  | .zp => 3
  | .zpx | .zpy | .abs => 4
  | .abx | .aby | .ind => 5
  | .izx | .izy => 6

/-- Base cost of the read-modify-write instructions. -/
def rmwCycles : Mode → Nat
  | .imp | .acc | .imm | .rel => 2
  | .zp => 5
  | .zpx | .zpy | .abs | .ind => 6
  | .abx | .aby => 7
  | .izx | .izy => 8

/-- The page-cross penalty of a penalised read opcode: `crossed` is set only in the indexed modes (R153). -/
def Resolved.penalty (r : Resolved) : Nat := if r.crossed then 1 else 0

/-! ## The three shapes of an instruction with an operand -/

/-- Read the operand byte, then act on it. -/
def State.readOperand (s : State) (o : Operand) (act : State → Byte → State) : State :=
  let q := s.resolve o
  let l := q.2.load o q.1
  (act l.2 l.1).addCycles (readCycles o.mode + q.1.penalty)

/-- Store a byte at the effective address. -/
def State.storeOperand (s : State) (o : Operand) (value : State → Resolved → Byte) : State :=
  let q := s.resolve o
  (q.2.store o q.1 (value q.2 q.1)).addCycles (storeCycles o.mode)

/-- Read, modify, write back once (20_memory.md R69); `f` gives the new byte and the new carry, `after` acts on the
new byte. -/
def State.modifyOperand (s : State) (o : Operand) (f : Bool → Byte → Byte × Bool) (after : State → Byte → State) : State :=
  let q := s.resolve o
  let l := q.2.load o q.1
  let n := f l.2.flags.c l.1
  (after ((l.2.setC n.2).store o q.1 n.1) n.1).addCycles (rmwCycles o.mode)

/-- Increment for `modifyOperand`: the carry stays. -/
def increment (c : Bool) (v : Byte) : Byte × Bool := (v + 1, c)

/-- Decrement for `modifyOperand`: the carry stays. -/
def decrement (c : Bool) (v : Byte) : Byte × Bool := (v - 1, c)

/-- The byte an instruction with this operand loads. -/
def State.operandByte (s : State) (o : Operand) : Byte :=
  ((s.resolve o).2.load o (s.resolve o).1).1

/-- The effective address of an operand. -/
def State.effectiveAddress (s : State) (o : Operand) : Word := (s.resolve o).1.ea

end Sys2Proof.Machine
end

