-- ==== Sys2Proof/Machine/LoadStore.lean ====
section
/-! DEFINITION. Loads, stores and register transfers (spec/41_load_store_transfer.md R180 to R191). -/

namespace Sys2Proof.Machine

/-- What one instruction answers. -/
abbrev Result := Host.Outcome State Fault Refusal

/-- LDA (R180) -/
def execLda (o : Operand) (s : State) : Result := .next (s.readOperand o State.loadA)
/-- LDX (R181) -/
def execLdx (o : Operand) (s : State) : Result := .next (s.readOperand o State.loadX)
/-- LDY (R182) -/
def execLdy (o : Operand) (s : State) : Result := .next (s.readOperand o State.loadY)

/-- STA (R183) -/
def execSta (o : Operand) (s : State) : Result := .next (s.storeOperand o fun t _ => t.a)
/-- STX (R184) -/
def execStx (o : Operand) (s : State) : Result := .next (s.storeOperand o fun t _ => t.x)
/-- STY (R185) -/
def execSty (o : Operand) (s : State) : Result := .next (s.storeOperand o fun t _ => t.y)

/-- TAX (R186) -/
def execTax (s : State) : Result := .next ((s.loadX s.a).addCycles 2)
/-- TAY (R187) -/
def execTay (s : State) : Result := .next ((s.loadY s.a).addCycles 2)
/-- TXA (R188) -/
def execTxa (s : State) : Result := .next ((s.loadA s.x).addCycles 2)
/-- TYA (R189) -/
def execTya (s : State) : Result := .next ((s.loadA s.y).addCycles 2)
/-- TSX (R190) -/
def execTsx (s : State) : Result := .next ((s.loadX s.sp).addCycles 2)
/-- TXS, the one transfer that writes no flag (R191) -/
def execTxs (s : State) : Result := .next ({ s with sp := s.x }.addCycles 2)

end Sys2Proof.Machine
end

