-- ==== Sys2Proof/Machine/Control.lean ====
section
/-! DEFINITION. Jumps, subroutines, returns, BRK and branches (spec/46_control_flow.md R250 to R264). `PC` is the
address of the next instruction when a meaning runs. -/

namespace Sys2Proof.Machine

/-- Base cost of JMP: 3 absolute, 5 indirect (R250). -/
def jumpCycles : Mode → Nat
  | .ind => 5
  | _ => 3

/-- JMP (R250) -/
def execJmp (o : Operand) (s : State) : Result :=
  let q := s.resolve o
  .next ((q.2.setPc q.1.ea).addCycles (jumpCycles o.mode))

/-- JSR: the pushed word is the address of the instruction's last byte (R251) -/
def execJsr (target : Word) (s : State) : Result :=
  .next (((s.push16 (s.pc - 1)).setPc target).addCycles 6)

/-- RTS (R252) -/
def execRts (s : State) : Result :=
  let w := s.pull16
  .next ((w.2.setPc (w.1 + 1)).addCycles 6)

/-- RTI (R253) -/
def execRti (s : State) : Result := .next (s.returnFromHandler.addCycles 6)

/-- BRK takes the handler at the IRQ vector; the return address is that of BRK plus 2 (R254) -/
def execBrk (s : State) : Result := .next ((s.enterHandler (s.pc + 1) true irqVector).addCycles 7)

/-- The target of a branch (R150, R255). -/
def branchTarget (pc : Word) (d : Byte) : Word := pc + d.signExtend 16

/-- `branch(cond)`: 2 cycles, 3 when taken, 4 when taken to another page than the next instruction's (R255). -/
def State.branch (s : State) (cond : Bool) (d : Byte) : State :=
  if cond then
    let target := branchTarget s.pc d
    (s.setPc target).addCycles (2 + if hiByte target = hiByte s.pc then 1 else 2)
  else s.addCycles 2

/-- BPL (R256) -/
def execBpl (d : Byte) (s : State) : Result := .next (s.branch (!s.flags.n) d)
/-- BMI (R257) -/
def execBmi (d : Byte) (s : State) : Result := .next (s.branch s.flags.n d)
/-- BVC (R258) -/
def execBvc (d : Byte) (s : State) : Result := .next (s.branch (!s.flags.v) d)
/-- BVS (R259) -/
def execBvs (d : Byte) (s : State) : Result := .next (s.branch s.flags.v d)
/-- BCC (R260) -/
def execBcc (d : Byte) (s : State) : Result := .next (s.branch (!s.flags.c) d)
/-- BCS (R261) -/
def execBcs (d : Byte) (s : State) : Result := .next (s.branch s.flags.c d)
/-- BNE (R262) -/
def execBne (d : Byte) (s : State) : Result := .next (s.branch (!s.flags.z) d)
/-- BEQ (R263) -/
def execBeq (d : Byte) (s : State) : Result := .next (s.branch s.flags.z d)

end Sys2Proof.Machine
end

