-- ==== Sys2Proof/Machine/FlagOps.lean ====
section
/-! DEFINITION. Flag instructions and NOP (spec/47_flags_nop.md R270 to R277). -/

namespace Sys2Proof.Machine

/-- CLC (R270) -/
def execClc (s : State) : Result := .next ({ s with flags := { s.flags with c := false } }.addCycles 2)
/-- SEC (R271) -/
def execSec (s : State) : Result := .next ({ s with flags := { s.flags with c := true } }.addCycles 2)
/-- CLI (R272) -/
def execCli (s : State) : Result := .next ({ s with flags := { s.flags with i := false } }.addCycles 2)
/-- SEI (R273) -/
def execSei (s : State) : Result := .next ({ s with flags := { s.flags with i := true } }.addCycles 2)
/-- CLV (R274) -/
def execClv (s : State) : Result := .next ({ s with flags := { s.flags with v := false } }.addCycles 2)
/-- CLD (R275) -/
def execCld (s : State) : Result := .next ({ s with flags := { s.flags with d := false } }.addCycles 2)
/-- SED (R276) -/
def execSed (s : State) : Result := .next ({ s with flags := { s.flags with d := true } }.addCycles 2)
/-- NOP `$EA` (R277) -/
def execNop (s : State) : Result := .next (s.addCycles 2)

end Sys2Proof.Machine
end

