-- ==== Sys2Proof/Machine/Stack.lean ====
section
/-! DEFINITION. Stack instructions (spec/42_stack.md R200 to R203). -/

namespace Sys2Proof.Machine

/-- PHA (R200) -/
def execPha (s : State) : Result := .next ((s.push8 s.a).addCycles 3)

/-- PHP: bits 4 and 5 of the pushed byte are set (R201) -/
def execPhp (s : State) : Result := .next ((s.push8 (s.flags.pack true)).addCycles 3)

/-- PLA (R202) -/
def execPla (s : State) : Result :=
  let p := s.pull8
  .next ((p.2.loadA p.1).addCycles 4)

/-- PLP (R203) -/
def execPlp (s : State) : Result :=
  let p := s.pull8
  .next ({ p.2 with flags := unpack p.1 }.addCycles 4)

end Sys2Proof.Machine
end

