-- ==== Sys2Proof/Machine/Arith.lean ====
section
/-! DEFINITION. Addition and subtraction with carry (spec/44_arithmetic.md R220 to R226). -/

namespace Sys2Proof.Machine

/-- `adc(m)` on the state (R224). -/
def State.adc (s : State) (m : Byte) : State := s.setResult (Machine.adc s.flags s.a m)

/-- `sbc(m)` on the state (R225). -/
def State.sbc (s : State) (m : Byte) : State := s.setResult (Machine.sbc s.flags s.a m)

/-- ADC (R224) -/
def execAdc (o : Operand) (s : State) : Result := .next (s.readOperand o State.adc)

/-- SBC (R225) -/
def execSbc (o : Operand) (s : State) : Result := .next (s.readOperand o State.sbc)

end Sys2Proof.Machine
end

