-- ==== Sys2Proof/Machine/Logic.lean ====
section
/-! DEFINITION. Logic, bit test and compares (spec/43_logic_compare.md R210 to R217). -/

namespace Sys2Proof.Machine

/-- `compare(reg, m)` on the state's flags (R217). -/
def State.compare (s : State) (reg m : Byte) : State := { s with flags := s.flags.compare reg m }

/-- AND (R210) -/
def execAnd (o : Operand) (s : State) : Result := .next (s.readOperand o fun t m => t.loadA (t.a &&& m))
/-- ORA (R211) -/
def execOra (o : Operand) (s : State) : Result := .next (s.readOperand o fun t m => t.loadA (t.a ||| m))
/-- EOR (R212) -/
def execEor (o : Operand) (s : State) : Result := .next (s.readOperand o fun t m => t.loadA (t.a ^^^ m))

/-- BIT (R213) -/
def execBit (o : Operand) (s : State) : Result :=
  .next (s.readOperand o fun t m => { t with flags := t.flags.testBits t.a m })

/-- CMP (R214) -/
def execCmp (o : Operand) (s : State) : Result := .next (s.readOperand o fun t m => t.compare t.a m)
/-- CPX (R215) -/
def execCpx (o : Operand) (s : State) : Result := .next (s.readOperand o fun t m => t.compare t.x m)
/-- CPY (R216) -/
def execCpy (o : Operand) (s : State) : Result := .next (s.readOperand o fun t m => t.compare t.y m)

end Sys2Proof.Machine
end

