-- ==== Sys2Proof/Machine/Shift.lean ====
section
/-! DEFINITION. Shifts, rotates, increments and decrements (spec/45_shift_incdec.md R230 to R240). -/

namespace Sys2Proof.Machine

/-- ASL (R230) -/
def execAsl (o : Operand) (s : State) : Result := .next (s.modifyOperand o shiftLeft State.setNZ)
/-- LSR (R231) -/
def execLsr (o : Operand) (s : State) : Result := .next (s.modifyOperand o shiftRight State.setNZ)
/-- ROL (R232) -/
def execRol (o : Operand) (s : State) : Result := .next (s.modifyOperand o rotateLeft State.setNZ)
/-- ROR (R233) -/
def execRor (o : Operand) (s : State) : Result := .next (s.modifyOperand o rotateRight State.setNZ)
/-- INC (R234) -/
def execInc (o : Operand) (s : State) : Result := .next (s.modifyOperand o increment State.setNZ)
/-- DEC (R235) -/
def execDec (o : Operand) (s : State) : Result := .next (s.modifyOperand o decrement State.setNZ)

/-- INX (R236) -/
def execInx (s : State) : Result := .next ((s.loadX (s.x + 1)).addCycles 2)
/-- INY (R237) -/
def execIny (s : State) : Result := .next ((s.loadY (s.y + 1)).addCycles 2)
/-- DEX (R238) -/
def execDex (s : State) : Result := .next ((s.loadX (s.x - 1)).addCycles 2)
/-- DEY (R239) -/
def execDey (s : State) : Result := .next ((s.loadY (s.y - 1)).addCycles 2)

end Sys2Proof.Machine
end

