-- ==== Sys2Proof/Machine/Undocumented.lean ====
section
/-! DEFINITION. Undocumented opcodes and the no-op fallback (spec/48_undocumented.md R280 to R303). -/

namespace Sys2Proof.Machine

/-- A no-op of R303: the operand is resolved, nothing is accessed, the cycles pass. -/
def State.noop (s : State) (cycles : Nat) : State := s.addCycles cycles

/-- The opcode is one the parameter `UNSTABLE_SET` turns into a no-op beyond the fixed 14 (R303, D11). -/
def State.unstable (s : State) (op : Byte) : Bool := s.params.unstableExtra.contains op

/-- LAX (R281) -/
def execLax (o : Operand) (s : State) : Result := .next (s.readOperand o fun t m => { t with x := m }.loadA m)

/-- SAX (R282) -/
def execSax (o : Operand) (s : State) : Result := .next (s.storeOperand o fun t _ => t.a &&& t.x)

/-- SLO (R283) -/
def execSlo (o : Operand) (s : State) : Result :=
  .next (s.modifyOperand o shiftLeft fun t m => t.loadA (t.a ||| m))
/-- RLA (R284) -/
def execRla (o : Operand) (s : State) : Result :=
  .next (s.modifyOperand o rotateLeft fun t m => t.loadA (t.a &&& m))
/-- SRE (R285) -/
def execSre (o : Operand) (s : State) : Result :=
  .next (s.modifyOperand o shiftRight fun t m => t.loadA (t.a ^^^ m))
/-- RRA: the ADC takes the carry the rotate just produced (R286) -/
def execRra (o : Operand) (s : State) : Result := .next (s.modifyOperand o rotateRight State.adc)
/-- DCP (R287) -/
def execDcp (o : Operand) (s : State) : Result :=
  .next (s.modifyOperand o decrement fun t m => t.compare t.a m)
/-- ISC (R288) -/
def execIsc (o : Operand) (s : State) : Result := .next (s.modifyOperand o increment State.sbc)

/-- ANC: `C` becomes a copy of `N` (R289). Both opcode values behave alike. -/
def execAnc (_op : Byte) (v : Byte) (s : State) : Result :=
  let t := s.loadA (s.a &&& v)
  .next ((t.setC t.flags.n).addCycles 2)

/-- ALR (R290) -/
def execAlr (v : Byte) (s : State) : Result :=
  let n := shiftRight s.flags.c (s.a &&& v)
  .next (((s.setC n.2).loadA n.1).addCycles 2)

/-- ARR: `C` is bit 6 of the result, `V` bit 6 against bit 5; `D` is ignored (R291) -/
def execArr (v : Byte) (s : State) : Result :=
  let r := (rotateRight s.flags.c (s.a &&& v)).1
  let t := s.loadA r
  .next ({ t with flags := { t.flags with c := r.getLsbD 6, v := r.getLsbD 6 ^^ r.getLsbD 5 } }.addCycles 2)

/-- SBX (R292) -/
def execSbx (v : Byte) (s : State) : Result :=
  let t := s.a &&& s.x
  .next (((s.setC (decide (v.toNat ≤ t.toNat))).loadX (t - v)).addCycles 2)

/-- USBC: exactly SBC immediate (R293) -/
def execUsbc (v : Byte) (s : State) : Result := .next (s.readOperand (.imm v) State.sbc)

/-- `(H+1)`: one more than the high byte of the unindexed base address (R294). -/
def nextHigh (ea : Word) (index : Byte) : Byte := hiByte (ea - index.setWidth 16) + 1

/-- The opcode of SHA in a mode (30_encoding.md R106). -/
def shaOpcode (o : Operand) : Byte := if o.mode = .izy then 0x93 else 0x9F

/-- The SHA class: a store, or a no-op of the same cost and the same pointer reads when the opcode is unstable
(R294, R303). -/
def State.storeUnlessUnstable (s : State) (op : Byte) (o : Operand) (value : State → Resolved → Byte) : State :=
  if s.unstable op then (s.resolve o).2.noop (storeCycles o.mode) else s.storeOperand o value

/-- SHA (R294) -/
def execSha (o : Operand) (s : State) : Result :=
  .next (s.storeUnlessUnstable (shaOpcode o) o fun t r => t.a &&& t.x &&& nextHigh r.ea t.y)

/-- SHX (R295) -/
def execShx (w : Word) (s : State) : Result :=
  .next (s.storeUnlessUnstable 0x9E (.aby w) fun t r => t.x &&& nextHigh r.ea t.y)

/-- SHY (R298) -/
def execShy (w : Word) (s : State) : Result :=
  .next (s.storeUnlessUnstable 0x9C (.abx w) fun t r => t.y &&& nextHigh r.ea t.x)

/-- TAS: `SP` first, then the store (R296) -/
def execTas (w : Word) (s : State) : Result :=
  .next (if s.unstable 0x9B then s.noop (storeCycles .aby)
    else { s with sp := s.a &&& s.x }.storeOperand (.aby w) fun t r => t.sp &&& nextHigh r.ea t.y)

/-- LAS into A, X and SP (R297); unstable, it keeps its cost and its page-cross penalty (R303) -/
def execLas (w : Word) (s : State) : Result :=
  .next (if s.unstable 0xBB then s.noop (readCycles .aby + (s.resolve (.aby w)).1.penalty)
    else s.readOperand (.aby w) fun t m =>
      let v := m &&& t.sp
      { t with x := v, sp := v }.loadA v)

/-- The modes whose operand an undocumented NOP reads when `NOP_OPERAND_ACCESS` is set (R299). -/
def isNopAccess : Mode → Bool
  | .zp | .zpx | .abs | .abx => true
  | _ => false

/-- The undocumented NOPs (R299) -/
def execNopx (_op : Byte) (o : Operand) (s : State) : Result :=
  let q := s.resolve o
  let t := if s.params.nopOperandAccess && isNopAccess o.mode then (q.2.memRead q.1.ea).2 else q.2
  .next (t.noop (readCycles o.mode + q.1.penalty))

/-- ANE, a no-op (R300) -/
def execAne (_v : Byte) (s : State) : Result := .next (s.noop 2)
/-- LXA, a no-op (R301) -/
def execLxa (_v : Byte) (s : State) : Result := .next (s.noop 2)
/-- JAM, a no-op (R302) -/
def execJam (_op : Byte) (s : State) : Result := .next (s.noop 2)

end Sys2Proof.Machine
end

