-- ==== Sys2Proof/Machine/Playfield.lean ====
section
/-! DEFINITION. The playfield renderer (spec/61_platform_devices.md R372, R376, R383 to R385): which byte of the screen a
column shows, which bits of it, and the colour and priority they look up. All display reads take `ram` directly
(spec/20_memory.md R86). -/

namespace Sys2Proof.Machine

/-- CYCLES_PER_LINE (00_scope.md R6). -/
def cyclesPerLine : Nat := 114
/-- LINES_PER_FRAME (R6). -/
def linesPerFrame : Nat := 312
/-- The VBI scanline (R6). -/
def vbiLine : Nat := 248
/-- The display-list restart scanline (R6). -/
def displayLine : Nat := 8

/-- DMACTL as written (R376). -/
def State.dmactl (s : State) : Byte := s.sram.read 0xD400
/-- HSCROL as written, bits 3..0 (R375). -/
def State.hscrol (s : State) : Byte := s.sram.read 0xD404 &&& 0x0F
/-- VSCROL as written, bits 3..0 (R375). -/
def State.vscrol (s : State) : Nat := (s.sram.read 0xD405 &&& 0x0F).toNat

/-- Columns of the framebuffer (R6). -/
def frameColumns : Nat := 456

/-! ## Mode geometry (R384) -/

/-- The row of a mode; modes 0 and 1 display nothing. -/
def modeRow (p : Params) (mode : Nat) : ModeRow :=
  if mode < 2 then ⟨1, 0, false, 1, 1⟩ else p.modeTable.getD (mode - 2) ⟨1, 0, false, 1, 1⟩

/-- Bytes per mode line at a DMACTL width: none, narrow 4/5, normal, wide 6/5 (R376, R384). -/
def ModeRow.widthBytes (r : ModeRow) (width : Nat) : Nat :=
  match width with
  | 0 => 0
  | 1 => r.bytes * 4 / 5
  | 2 => r.bytes
  | _ => r.bytes * 6 / 5

/-- The playfield width of DMACTL bits 1..0 (R376). -/
def State.playfieldWidth (s : State) : Nat := (s.dmactl &&& 3).toNat

/-- The mode of the mode line the current scanline belongs to; 0 where it carries no playfield: on the lines 248 to 311
and 0 to 7 (R367), on blank lines and on jumps. -/
def State.lineMode (s : State) : Nat :=
  let mode := (s.antic.dlcmd &&& 0x0F).toNat
  if displayLine ≤ s.antic.scanline ∧ s.antic.scanline < vbiLine ∧ 0 < s.antic.rowsLeft ∧ 2 ≤ mode then mode else 0

/-- The table row of the current mode line. -/
def State.lineRow (s : State) : ModeRow := modeRow s.params s.lineMode

/-- The current mode line has its HSCROL bit set (R370). -/
def State.lineScrolled (s : State) : Bool := s.antic.dlcmd.getLsbD 4

/-- The bytes the current mode line consumes; none at width 0 (R376, R384, R385). -/
def State.lineBytes (s : State) : Nat :=
  if s.lineMode = 0 ∨ s.playfieldWidth = 0 then 0
  else if s.lineScrolled then Config.scrolledBytes s.lineMode s.playfieldWidth s.hscrol
  else s.lineRow.widthBytes s.playfieldWidth

/-- The memory-scan pointer past some bytes, inside its 4 KB window if the parameter says so (R372). -/
def memscanPast (wraps : Bool) (p : Word) (n : Nat) : Word :=
  let q := p + BitVec.ofNat 16 n
  if wraps then (p &&& 0xF000) ||| (q &&& 0x0FFF) else q

/-- The renderer advances the memory scan at the last scanline of a mode line (R372). -/
def State.advanceMemscan (s : State) : State :=
  if s.lineMode ≠ 0 ∧ s.antic.rowsLeft = 1 then
    { s with antic := { s.antic with memscan := memscanPast s.params.memscanWraps s.antic.memscan s.lineBytes } }
  else s

/-! ## Colours -/

/-- CHACTL as written (R375). -/
def State.chactl (s : State) : Byte := s.sram.read 0xD401
/-- CHBASE as written (R375). -/
def State.chbase (s : State) : Byte := s.sram.read 0xD409
/-- PRIOR as written (R389). -/
def State.prior (s : State) : Byte := s.sram.read 0xD01B
/-- COLPMn as written. -/
def State.colpm (s : State) (n : Fin 4) : Byte := s.sram.read (0xD012 + n.val)

/-- COLPF0..3 and COLBK as written (R383). -/
def State.colours (s : State) : Colours where
  pf0 := s.sram.read 0xD016
  pf1 := s.sram.read 0xD017
  pf2 := s.sram.read 0xD018
  pf3 := s.sram.read 0xD019
  bak := s.sram.read 0xD01A

/-- The nine colour registers the blending tables take (R389). -/
def State.nineColours (s : State) : List Byte :=
  [s.colpm 0, s.colpm 1, s.colpm 2, s.colpm 3, s.colours.pf0, s.colours.pf1, s.colours.pf2, s.colours.pf3, s.colours.bak]

/-- The priority byte of a playfield pixel: bit `f` for playfield `f`, 0 for the background (R383, R388; the bit order:
PRESUMED, notes/assumptions/37.md). -/
def Source.priority : Source → Byte
  | .background => 0
  | .pf0 => 1
  | .pf1 => 2
  | .pf2 => 4
  | .pf3 => 8

/-- The GTIA mode of PRIOR bits 7 and 6 (R389). -/
def gtiaMode (prior : Byte) : Option GtiaMode :=
  match prior.getLsbD 7, prior.getLsbD 6 with
  | false, false => none
  | false, true => some .luminances
  | true, false => some .registers
  | true, true => some .hues

/-! ## One column (R385) -/

/-- Byte `i` of the current mode line (R372, R383). -/
def State.screenByte (s : State) (i : Nat) : Byte :=
  s.ram.read (memscanPast s.params.memscanWraps s.antic.memscan i).toNat

/-- A character code as CHACTL bit 1 leaves it: "bit 1 masks them to 7 bits" (R375, R385, U22). -/
def charCode (chactl b : Byte) : Byte := if b.msb && chactl.getLsbD 1 then b &&& 0x7F else b

/-- The scanline within the glyph; CHACTL bit 2 reflects it (R375, R385). A row past the last line of the mode reflects to
line 0 (DESIGN CHOICE, notes/assumptions/12.md). -/
def glyphLine (chactl : Byte) (lines row : Nat) : Nat := if chactl.getLsbD 2 then lines - 1 - row else row

/-- The glyph byte of a character on the current scanline: blank for a high-bit character with CHACTL bit 0 set, else a
byte of the character generator table (R385). -/
def State.glyphByte (s : State) (b : Byte) : Byte :=
  if b.msb && s.chactl.getLsbD 0 then 0
  else
    let line := glyphLine s.chactl s.lineRow.lines s.antic.row
    s.ram.read ((s.chbase.toNat * 256 + Config.glyphOffset s.lineMode (charCode s.chactl b) line) % 65536)

/-- Pixel `k` of a byte at a number of bits per pixel, the most significant bits first (PRESUMED,
notes/assumptions/40.md). -/
def pixelValue (bits : Nat) (b : Byte) (k : Nat) : Nat := b.toNat / 2 ^ (8 - bits * (k + 1)) % 2 ^ bits

/-- The pixel column `c` of a screen byte shows, from its bits per pixel and the columns it covers. -/
def pixelIndex (bits columns c : Nat) : Nat := c * (8 / bits) / columns

/-- The GTIA mode in force on the current line: in character modes and in mode 15 (R384, R385). -/
def State.lineGtia (s : State) : Option GtiaMode :=
  if s.lineRow.text || s.lineMode == 15 then gtiaMode s.prior else none

/-- Colour and source of column `c` of a screen byte (R385): the bits of the glyph or of the byte itself, looked up in the
blending tables, in the character colours with the top bit as inverse-video selector, or in the map colours. A GTIA mode
replaces the character colours whole, the selector with them (DESIGN CHOICE, notes/assumptions/12.md). -/
def State.screenPixel (s : State) (b : Byte) (c : Nat) : Byte × Source :=
  let row := s.lineRow
  let shape := if row.text then s.glyphByte b else b
  match s.lineGtia with
  | some mode => Config.blendColour mode (pixelValue 4 shape (pixelIndex 4 row.columns c)) s.nineColours
  | none =>
    let value := pixelValue row.bits shape (pixelIndex row.bits row.columns c)
    if row.text then Config.textColour s.lineMode (charCode s.chactl b) b.msb value s.colours
    else Config.mapColour s.lineMode value s.colours

/-- What the border shows, and a line without a playfield: the background colour and priority (R385). -/
def State.border (s : State) : Byte × Source := (s.colours.bak, .background)

/-- Whether a column is inside the playfield of the DMACTL width: as many columns as the bytes of R384 cover, none at width
0 (R376, R385). -/
def State.inPlayfield (s : State) (column : Nat) : Bool :=
  let left := Config.playfieldLeft s.playfieldWidth
  decide (left ≤ column) && decide (column < left + s.lineRow.widthBytes s.playfieldWidth * s.lineRow.columns)

/-- The column of the first byte of the line: the left edge of the playfield, which HSCROL shifts (R385). -/
def State.lineStartColumn (s : State) : Nat :=
  if s.lineScrolled then Config.scrolledStart s.playfieldWidth s.hscrol else Config.playfieldLeft s.playfieldWidth

/-- Colour and source of a framebuffer column: inside the playfield width the bytes of the line from its start column on,
outside it the border (R385). A column inside that the bytes of a scrolled line do not reach shows the border too (DESIGN
CHOICE, notes/assumptions/12.md). -/
def State.playfieldPixel (s : State) (column : Nat) : Byte × Source :=
  if s.lineMode = 0 ∨ s.inPlayfield column = false then s.border
  else
    let start := s.lineStartColumn
    let c := column - start
    if start ≤ column ∧ c < s.lineBytes * s.lineRow.columns then
      s.screenPixel (s.screenByte (c / s.lineRow.columns)) (c % s.lineRow.columns)
    else s.border

/-- One row of a plane replaced. -/
def Memory.setRow (m : Memory) (line : Nat) (row : List Byte) : Memory :=
  m.splice (frameColumns * line) frameColumns (Memory.ofBytes (frameColumns * line) (row.take frameColumns))

/-- `render_playfield(scanline)`: one row of the framebuffer and of the priority plane (R383). -/
def State.renderPlayfield (s : State) : State :=
  let pixels := (List.range frameColumns).map s.playfieldPixel
  { s with
    frame := s.frame.setRow s.antic.scanline (pixels.map Prod.fst)
    prio := s.prio.setRow s.antic.scanline (pixels.map fun (p : Byte × Source) => p.2.priority) }.advanceMemscan

end Sys2Proof.Machine
end

