-- ==== Sys2Proof/Machine/Sprites.lean ====
section
/-! DEFINITION. The GTIA compositor (spec/61_platform_devices.md R382, R386 to R389): player/missile DMA, the objects in
their draw order, priorities, colours and collisions. -/

namespace Sys2Proof.Machine

/-! ## Player/missile DMA (R382) -/

/-- The base address of player/missile graphics (R382). -/
def State.pmBase (s : State) : Nat :=
  let mask : Byte := if s.dmactl.getLsbD 4 then 0xF8 else 0xFC
  (s.sram.read 0xD407 &&& mask).toNat * 256

/-- The graphics byte of player `n` on this line, by single-line or double-line resolution (R382). -/
def State.playerByte (s : State) (n : Nat) : Byte :=
  let a := if s.dmactl.getLsbD 4 then 0x400 + 0x100 * n + s.antic.scanline else 0x200 + 0x80 * n + s.antic.scanline / 2
  s.ram.read ((s.pmBase + a) % 65536)

/-- The missiles' graphics byte on this line (R382). -/
def State.missileByte (s : State) : Byte :=
  let a := if s.dmactl.getLsbD 4 then 0x300 + s.antic.scanline else 0x180 + s.antic.scanline / 2
  s.ram.read ((s.pmBase + a) % 65536)

/-- Player DMA, when DMACTL bit 3 and GRACTL bit 1 enable it (R382). -/
def State.playerDma (s : State) : State :=
  if s.dmactl.getLsbD 3 && s.gractl.getLsbD 1 then
    { s with gtia := { s.gtia with grafp0 := s.playerByte 0, grafp1 := s.playerByte 1, grafp2 := s.playerByte 2,
                                   grafp3 := s.playerByte 3 } }
  else s

/-- Missile DMA, when DMACTL bit 2 and GRACTL bit 0 enable it (R382). -/
def State.missileDma (s : State) : State :=
  if s.dmactl.getLsbD 2 && s.gractl.getLsbD 0 then { s with gtia := { s.gtia with grafm := s.missileByte } } else s

/-! ## Objects -/

/-- The objects in draw order: players 3, 2, 1, 0, then missiles 3, 2, 1, 0 (R386). -/
def Sprite.drawOrder : List Sprite :=
  [.player 3, .player 2, .player 1, .player 0, .missile 3, .missile 2, .missile 1, .missile 0]

/-- The graphics bits of an object; missile `n` has bits `2n + 1` and `2n` of GRAFM (PRESUMED,
notes/assumptions/37.md). -/
def Gtia.graphics (g : Gtia) : Sprite → Byte
  | .player 0 => g.grafp0
  | .player 1 => g.grafp1
  | .player 2 => g.grafp2
  | .player 3 => g.grafp3
  | .missile n => (g.grafm >>> (2 * n.val)) &&& 3

/-- How many graphics bits an object has. -/
def Sprite.bits : Sprite → Nat
  | .player _ => 8
  | .missile _ => 2

/-- The horizontal position of an object as written (R387). -/
def State.spritePosition (s : State) : Sprite → Byte
  | .player n => s.sram.read (0xD000 + n.val)
  | .missile n => s.sram.read (0xD004 + n.val)

/-- The size code of an object: SIZEPn bits 1..0, or its two bits of SIZEM (R387; which two: PRESUMED,
notes/assumptions/37.md). -/
def State.spriteSize (s : State) : Sprite → Byte
  | .player n => s.sram.read (0xD008 + n.val) &&& 3
  | .missile n => (s.sram.read 0xD00C >>> (2 * n.val)) &&& 3

/-- The size factor of a size code: normal, double, quadruple; R387 gives the code 2 no meaning. -/
def sizeFactor (code : Byte) : Nat :=
  if code = 0 then 1 else if code = 1 then 2 else if code = 3 then 4 else Config.spriteSizeTwo

/-- An object is drawn if its graphics and its horizontal position are nonzero (R386). -/
def State.drawn (s : State) (o : Sprite) : Bool := s.gtia.graphics o != 0 && s.spritePosition o != 0

/-- Whether an object's graphics cover a column; the most significant graphics bit is leftmost (PRESUMED,
notes/assumptions/37.md). -/
def State.covers (s : State) (o : Sprite) (column : Nat) : Bool :=
  let left := Config.spriteColumn (s.spritePosition o)
  let width := Config.spriteBitColumns * sizeFactor (s.spriteSize o)
  let c := column - left
  s.drawn o && decide (left ≤ column) && decide (c < o.bits * width) &&
    (s.gtia.graphics o).getLsbD (o.bits - 1 - c / width)

/-- The colour of an object: its COLPM, or COLPF3 for a missile with the fifth player enabled (R386, R389). -/
def State.spriteColour (s : State) : Sprite → Byte
  | .player n => s.colpm n
  | .missile n => if s.prior.getLsbD 4 then s.colours.pf3 else s.colpm n

/-! ## One column (R386, R389) -/

/-- A column while the objects are drawn over it. -/
structure Dot where
  colour  : Byte
  /-- priority bits: 3..0 the playfield's, 7..4 those of the players drawn so far, and what missiles left -/
  prio    : Byte
  /-- the colours of the players drawn so far, OR-ed -/
  players : Byte
  deriving DecidableEq, Repr

/-- One object drawn over a column it covers: shown unless a priority bit of its mask is set; with PRIOR bit 5 a player
shows its colour OR-ed with those of the players it overlaps. Which priority bits a missile leaves is a free value
(notes/assumptions/13.md). -/
def State.drawOver (s : State) (o : Sprite) (d : Dot) : Dot :=
  let own := s.spriteColour o
  let hidden := d.prio &&& Config.priorityMask (s.prior.extractLsb' 0 5) o != 0
  match o with
  | .player n =>
    let shown := if s.prior.getLsbD 5 then own ||| d.players else own
    { colour := if hidden then d.colour else shown
      prio := d.prio ||| (16 <<< n.val)
      players := d.players ||| own }
  | .missile n =>
    { d with
      colour := if hidden then d.colour else own
      prio := d.prio ||| Config.missilePriority n (s.prior.getLsbD 4) }

/-- A column after all objects, in draw order. -/
def State.spriteDot (s : State) (column : Nat) (d : Dot) : Dot :=
  Sprite.drawOrder.foldl (fun d o => if s.covers o column then s.drawOver o d else d) d

/-- The colour of a column of the current scanline after all objects. -/
def State.spritePixel (s : State) (column : Nat) : Byte :=
  let a := frameColumns * s.antic.scanline + column
  (s.spriteDot column { colour := s.frame.read a, prio := s.prio.read a, players := 0 }).colour

/-! ## Collisions (R388) -/

/-- The playfields an object touches on the line: the playfield priority bits of the columns it covers. -/
def State.touchedPlayfields (s : State) (o : Sprite) : Byte :=
  (List.range frameColumns).foldl
    (fun acc c => if s.covers o c then acc ||| (s.prio.read (frameColumns * s.antic.scanline + c) &&& 0x0F) else acc) 0

/-- Two objects cover a column in common. -/
def State.overlap (s : State) (o p : Sprite) : Bool := (List.range frameColumns).any fun c => s.covers o c && s.covers p c

/-- The players an object touches on the line, player `p` in bit `p` (PRESUMED, notes/assumptions/37.md); a player does
not touch itself. Of two players each gets the other's bit, so a later-drawn one feeds the register of an earlier one. -/
def State.touchedPlayers (s : State) (o : Sprite) : Byte :=
  ([0, 1, 2, 3] : List (Fin 4)).foldl
    (fun acc p => if o != .player p && s.overlap o (.player p) then acc ||| (1 <<< p.val) else acc) 0

/-- The collision registers `$D000..$D00F` in order: missiles and players against playfields, missiles and players
against players (R387). -/
def Sprite.collisionOrder : List Sprite :=
  [.missile 0, .missile 1, .missile 2, .missile 3, .player 0, .player 1, .player 2, .player 3]

/-- The missiles drawn after an object: all of them after a player, the lower ones after a missile (R386). -/
def Sprite.laterMissiles : Sprite → List (Fin 4)
  | .player _ => [3, 2, 1, 0]
  | .missile n => ([3, 2, 1, 0] : List (Fin 4)).filter (· < n)

/-- What the later-drawn missiles that overlap an object feed into its two collision registers: "later-drawn objects'
collision results feed earlier ones' registers" (R386). Which bits is a free value (notes/assumptions/13.md). -/
def State.fedByMissiles (s : State) (o : Sprite) : Byte × Byte :=
  o.laterMissiles.foldl
    (fun acc m =>
      if s.overlap o (.missile m) then
        let f := Config.missileFeed m o (s.prior.getLsbD 4)
        (acc.1 ||| f.1, acc.2 ||| f.2)
      else acc)
    (0, 0)

/-- The bits collision register `j` gains on this line: what its object touches, and what later missiles feed it. Priority
bits that an earlier missile left are not among those touched (DESIGN CHOICE, notes/assumptions/13.md). -/
def State.collisionBits (s : State) (j : Nat) : Byte :=
  let o := Sprite.collisionOrder.getD (j % 8) (.missile 0)
  if !s.drawn o then 0
  else if j < 8 then s.touchedPlayfields o ||| (s.fedByMissiles o).1
  else s.touchedPlayers o ||| (s.fedByMissiles o).2

/-- Collisions accumulate in the registers that `ram` holds at `$D000..$D00F` (R388, 20_memory.md R61). -/
def State.collisionRam (s : State) : Memory :=
  (List.range 16).foldl (fun m j => m.write (0xD000 + j) (m.read (0xD000 + j) ||| s.collisionBits j)) s.ram

/-- Some object is drawn on this line. -/
def State.anyDrawn (s : State) : Bool := Sprite.drawOrder.any s.drawn

/-- `composite_sprites(scanline)` (R386, R388); with nothing drawn it changes nothing. -/
def State.compositeSprites (s : State) : State :=
  if s.anyDrawn then
    { s with ram := s.collisionRam
             frame := s.frame.setRow s.antic.scanline ((List.range frameColumns).map s.spritePixel) }
  else s

end Sys2Proof.Machine
end

