-- ==== Sys2Proof/Machine/Antic.lean ====
section
/-! DEFINITION. The ANTIC engine: display list, scanline boundary, VBI and DLI, and the draw event
(spec/61_platform_devices.md R365 to R374). -/

namespace Sys2Proof.Machine

/-! ## Display list -/

/-- One display-list byte; the pointer stays in its 1 KB window (R369). -/
def State.dlByte (s : State) : Byte × State :=
  (s.ram.read s.antic.dlpc.toNat,
   { s with antic := { s.antic with dlpc := (s.antic.dlpc &&& 0xFC00) ||| ((s.antic.dlpc + 1) &&& 0x03FF) } })

/-- Two display-list bytes as a word, low byte first (R369). -/
def State.dlWord (s : State) : Word × State :=
  let l := s.dlByte
  let h := l.2.dlByte
  (joinBytes h.1 l.1, h.2)

/-- The scanlines of a mode line, adjusted when a scrolled region is entered or left (R373). -/
def scrolledLines (on before : Bool) (lines vscrol : Nat) : Nat :=
  if on && !before then (if vscrol < lines then lines - vscrol else Config.vscrolOverrun lines vscrol)
  else if !on && before then vscrol + 1
  else lines

/-- A display-list instruction covers `n` scanlines from the current one; past line 247 no further one is fetched in
this frame (R369). -/
def State.coverLines (s : State) (n row : Nat) : State :=
  { s with antic := { s.antic with
      dlTarget := s.antic.scanline + n
      dlWait := s.antic.dlWait || decide (vbiLine ≤ s.antic.scanline + n)
      rowsLeft := n
      row := row } }

/-- JMP and JVB: the pointer is loaded, JVB waits for the next frame (R369). Answers the lines covered, if any. -/
def State.dlJump (s : State) (wait : Bool) : Option Nat × State :=
  let w := s.dlWord
  let t := { w.2 with antic := { w.2.antic with dlpc := w.1, vscrolOn := false, vscrolOffset := 0 } }
  if wait then (none, { t with antic := { t.antic with dlTarget := displayLine, dlWait := true, rowsLeft := 0, row := 0 } })
  else (some 1, t.coverLines 1 0)

/-- A display mode: LMS loads the memory scan, vertical scroll adjusts the lines (R369, R373). -/
def State.dlDisplay (s : State) (cmd : Byte) : Option Nat × State :=
  let s := if cmd.getLsbD 6 then (let w := s.dlWord; { w.2 with antic := { w.2.antic with memscan := w.1 } }) else s
  let on := cmd.getLsbD 5
  let before := s.antic.vscrolOn
  let n := scrolledLines on before (modeRow s.params (cmd &&& 0x0F).toNat).lines s.vscrol
  let first := if on && !before then s.vscrol else 0
  (some n, { s with antic := { s.antic with vscrolOn := on, vscrolOffset := first } }.coverLines n first)

/-- Blank lines: 1 to 8 (R370, 90_conflicts.md C4). -/
def State.dlBlank (s : State) (cmd : Byte) : Option Nat × State :=
  let n := (cmd.extractLsb' 4 3).toNat + 1
  (some n, { s with antic := { s.antic with vscrolOn := false, vscrolOffset := 0 } }.coverLines n 0)

/-- One display-list instruction by its mode nibble (R369, R370). -/
def State.dlExecute (s : State) (cmd : Byte) : Option Nat × State :=
  let s := { s with antic := { s.antic with dlcmd := cmd } }
  if cmd &&& 0x0F = 0 then s.dlBlank cmd
  else if cmd &&& 0x0F = 1 then s.dlJump (cmd.getLsbD 6)
  else s.dlDisplay cmd

/-- `fetch_dl_instruction(t)` (R369). -/
def State.fetchDlInstruction (s : State) (t : Nat) : State :=
  let c := s.dlByte
  let r := c.2.dlExecute c.1
  if c.1.getLsbD 7 then
    r.2.arm .dli (some (t + (r.1.getD 1 - 1) * cyclesPerLine + r.2.params.dliOffset))
  else r.2

/-! ## Scanline boundary -/

/-- `raise_vbi()` (R368). -/
def State.raiseVbi (s : State) : State :=
  let s := { s with antic := { s.antic with nmist := (s.antic.nmist &&& ~~~0x80) ||| 0x40 } }
  if s.antic.nmien.getLsbD 6 then s.nmi else s

/-- `dl_dma_enabled`: DMACTL bit 5 (R366, D40). -/
def State.dlDmaEnabled (s : State) : Bool := s.dmactl.getLsbD 5

/-- The next scanline begins: the counter, the row inside the mode line, and on line 0 the restart of the display
list (R365, R366). -/
def State.nextScanline (s : State) (t : Nat) : State :=
  let line := (s.antic.scanline + 1) % linesPerFrame
  let a := { s.antic with
    scanline := line
    lineStart := t
    rowsLeft := s.antic.rowsLeft - 1
    row := if s.antic.rowsLeft ≤ 1 then 0 else s.antic.row + 1
    phase := .draw }
  { s with antic :=
      if line = 0 then
        { a with dlpc := joinBytes (s.sram.read 0xD403) (s.sram.read 0xD402), dlTarget := displayLine,
                 dlWait := false, rowsLeft := 0, row := 0 }
      else a }

/-- Whether the current scanline fetches a display-list instruction (R366, R369). -/
def State.fetchesHere (s : State) : Bool :=
  s.dlDmaEnabled && decide (s.antic.scanline = s.antic.dlTarget) && !s.antic.dlWait &&
    decide (s.antic.scanline < vbiLine)

/-- The line state `dma_stall` is looked up by (R365, R379). -/
def State.lineState (s : State) : LineState where
  scanline := s.antic.scanline
  dlTarget := s.antic.dlTarget
  dlWait := s.antic.dlWait
  dlpc := s.antic.dlpc
  dlcmd := s.antic.dlcmd
  memscan := s.antic.memscan
  rowsLeft := s.antic.rowsLeft
  row := s.antic.row
  vscrolOn := s.antic.vscrolOn
  vscrolOffset := s.antic.vscrolOffset
  phase := s.antic.phase
  dmactl := s.dmactl

/-- `dma_stall(line state)`, default 0 (R379, D29). -/
def State.dmaStall (s : State) : Nat := (s.params.dmaStall.lookup s.lineState).getD 0

/-- `handle(ev_fetch, t)` (R366). -/
def State.handleFetch (s : State) (t : Nat) : State :=
  let s := s.nextScanline t
  let s := if s.antic.scanline = vbiLine then s.raiseVbi else s
  let s := if s.fetchesHere then s.fetchDlInstruction t else s
  let s := s.raiseStall (t + s.dmaStall)
  (s.arm .fetch (some (t + cyclesPerLine))).arm .draw (some (t + s.params.drawOffset))

/-- `handle(ev_dli, t)` (R371). -/
def State.handleDli (s : State) : State :=
  let s := { s with antic := { s.antic with nmist := (s.antic.nmist &&& ~~~0x40) ||| 0x80 } }
  let s := if s.antic.nmien.getLsbD 7 then s.nmi else s
  s.arm .dli none

/-- The phase after the draw: whether the next boundary will fetch (R365). -/
def State.phaseAfterDraw (s : State) : LinePhase :=
  if s.dlDmaEnabled && !s.antic.dlWait && decide (s.antic.scanline + 1 = s.antic.dlTarget) then .fetch else .nonFetch

/-- `handle(ev_draw, t)` (R374). -/
def State.handleDraw (s : State) : State :=
  let s := if s.antic.scanline = 0 then { s with prio := [] } else s
  let s := s.renderPlayfield
  let s := s.playerDma.missileDma.compositeSprites
  { s with antic := { s.antic with phase := s.phaseAfterDraw } }.arm .draw none

end Sys2Proof.Machine
end

