-- ==== Sys2Proof/Machine/Scheduler.lean ====
section
/-! DEFINITION. Event service and the event gate (spec/60_exceptions.md R334, R335,
spec/40_step_and_addressing.md R132, R135). -/

namespace Sys2Proof.Machine

/-- A timer event: its status bit, its IRQ, and the next period from the due cycle (61_platform_devices.md R396). -/
def State.handleTimer (s : State) (e : EventId) (n : Nat) (bits : Byte) (t : Nat) : State :=
  let s := s.fireIrq bits
  s.arm e (s.timerDue n t)

/-- A serial event: its status bit, its IRQ, disarmed (61_platform_devices.md R411, R412). -/
def State.handleSerial (s : State) (e : EventId) (bits : Byte) : State := (s.fireIrq bits).arm e none

/-- `handle(e, t)` (R334). -/
def State.handle (s : State) (e : EventId) (t : Nat) : State :=
  match e with
  | .fetch => s.handleFetch t
  | .draw => s.handleDraw
  | .dli => s.handleDli
  | .timer1 => s.handleTimer .timer1 1 0x01 t
  | .timer2 => s.handleTimer .timer2 2 0x02 t
  | .timer4 => s.handleTimer .timer4 4 0x04 t
  | .serOutNeeded => s.handleSerial .serOutNeeded 0x10
  | .serOutDone => s.handleSerial .serOutDone 0x08
  | .serInReady => s.handleSerial .serInReady 0x20

/-- The armed event with the least due cycle, ties broken by the order of R335, with that cycle. -/
def Events.earliest (v : Events) : Option (EventId × Nat) :=
  match v.least with
  | none => none
  | some t =>
    match v.firstAt t EventId.all with
    | none => none
    | some e => some (e, t)

/-- Whether the service is over, noted in the state. -/
def State.noteService (s : State) : State := { s with serviceOpen := reached s.nextWake s.cycle }

/-- `service_events()`, at most a number of events of it (R334). When events are still due after that many, the service
stays open. -/
def State.serviceEvents : Nat → State → State
  | 0, s => s.noteService
  | k + 1, s =>
    if reached s.nextWake s.cycle then
      match s.events.earliest with
      | some (e, t) => State.serviceEvents k (s.handle e t)
      | none => s.recomputeNext.noteService
    else s.noteService

/-- The events one step handles. It grows with how late the service is, and is enough for the whole service while
`NMI_COST` is such that the NMIs of a frame fit in a frame (notes/assumptions/20.md). -/
def State.serviceFuel (s : State) : Nat := 1000 * (s.cycle - s.nextWake.getD s.cycle) + 10000000

/-- `event_gate()` (R135). -/
def State.eventGate (s : State) : State := s.serviceEvents s.serviceFuel

/-- `stalled_advance()`: to the end of the stall or the next event, never backwards (R132, 10_state.md R32). -/
def State.stalledAdvance (s : State) : State :=
  { s with cycle := max s.cycle (match s.nextWake with | none => s.stallUntil | some t => min s.stallUntil t) }

end Sys2Proof.Machine
end

