-- ==== Sys2Proof/Machine/Fetch.lean ====
section
/-! DEFINITION. Fetching an instruction's bytes, and placing an instruction where the next step fetches it
(spec/40_step_and_addressing.md R134, R136, spec/30_encoding.md R102). -/

namespace Sys2Proof.Machine

/-- One byte at `PC`, which moves past it, modulo 65536 (10_state.md R22). -/
def State.fetchByte (s : State) : Byte × State :=
  let b := s.memRead s.pc
  (b.1, b.2.setPc (s.pc + 1))

/-- The instruction at `PC`: the opcode, then the operand bytes of its format in ascending order, each read once
(R136). `PC` is past the instruction afterwards. -/
def State.fetchInstr (s : State) : Instr × State :=
  let op := s.fetchByte
  match lengthOf op.1 with
  | 1 => (decodeOp op.1 0 0, op.2)
  | 2 =>
    let d := op.2.fetchByte
    (decodeOp op.1 d.1 0, d.2)
  | _ =>
    let l := op.2.fetchByte
    let h := l.2.fetchByte
    (decodeOp op.1 0 (joinBytes h.1 l.1), h.2)

/-- `execute_instruction()` (R134). -/
def State.executeInstruction (s : State) : Result :=
  let f := s.fetchInstr
  exec f.1 f.2

/-- The event gate after an action that gave a state (R131, R135). -/
def gateAfter : Result → Result
  | .next s => .next s.eventGate
  | .fault r => .fault r
  | .refused r => .refused r

/-- A byte written into the visible array, where RAM and ROM reads find it. -/
def State.placeByte (s : State) (a : Word) (v : Byte) : State := { s with ram := s.ram.write a.toNat v }

/-- A state whose next step fetches the given three bytes: they are placed at `PC`, or at `$0600` when an
instruction at `PC` would be fetched from the device window; no stall is in force, no IRQ is pending and no event service
is open, so that the step executes an instruction (R131; notes/assumptions/29.md). -/
def State.placeInstr (s : State) (b0 b1 b2 : Byte) : State :=
  let clear := !isDevice s.pc.toNat && !isDevice (s.pc + 1).toNat && !isDevice (s.pc + 2).toNat
  let pc := if clear then s.pc else 0x0600
  let t := { s with
    pc := pc
    stallUntil := min s.stallUntil s.cycle
    irqPending := if s.flags.i then s.irqPending else 0
    serviceOpen := false }
  ((t.placeByte pc b0).placeByte (pc + 1) b1).placeByte (pc + 2) b2

end Sys2Proof.Machine
end

