-- ==== Sys2Proof/Machine/Step.lean ====
section
/-! DEFINITION. One step (spec/40_step_and_addressing.md R131). -/

namespace Sys2Proof.Machine

/-- One step: exactly one of a stalled advance, an IRQ service and an instruction, then the event gate (R131). While an
event service is open the step goes on with it: the action that opened it is not over (R334). -/
def step (s : State) : Host.Outcome State Fault Refusal :=
  if s.serviceOpen then .next s.eventGate
  else if s.cycle < s.stallUntil then gateAfter (.next s.stalledAdvance)
  else if 0 < s.irqPending ∧ s.flags.i = false then gateAfter (.next s.serviceIrq)
  else gateAfter s.executeInstruction

/-- The state with an instruction's bits stored where `step` fetches its next instruction; bit 0 of `w` is the least
significant bit of the first byte, every bit from `nbits` up is 0. -/
def State.withFetchWord (s : State) (nbits w : Nat) : State :=
  match tableBytes nbits w with
  | [b0, b1, b2] => s.placeInstr b0 b1 b2
  | _ => s

end Sys2Proof.Machine
end

