-- ==== Sys2Proof/Machine/HostInterface.lean ====
section
/-! DEFINITION. What the host may do between `run()` calls (spec/61_platform_devices.md R414,
spec/70_reset_and_hazards.md R420 to R425). No step calls anything of this file. -/

namespace Sys2Proof.Machine

/-! ## Reset -/

/-- `reset()` (R420): `SP`, `I`, `irq_pending` and `PC`, nothing else. -/
def State.resetCpu (s : State) : State :=
  let t := { s with sp := 0xFD, flags := { s.flags with i := true }, irqPending := 0 }
  let w := t.read16 resetVector
  w.2.setPc w.1

/-- A machine at creation with given parameters, before any image is loaded and any `reset()`: `INIT_CPU`, `INIT_EVENTS`,
`PORTB` = `$FF`, everything else as State.reset has it (10_state.md R43, R423, 61_platform_devices.md R363). -/
def State.create (p : Params) : State :=
  let c := p.initCpu
  let e := p.initEvents
  { State.reset with
    a := c.a, x := c.x, y := c.y, sp := c.sp, pc := c.pc, flags := unpack c.status
    events := e.events, nextWake := e.events.least
    antic := { State.reset.antic with scanline := e.scanline, lineStart := e.lineStart, nmien := e.nmien, nmist := e.nmist }
    pokey := { State.reset.pokey with irqen := e.irqen, irqst := e.irqst }
    params := p }

/-- A hard reset: the creation state with the loaded images, the host's inputs and the parameters kept, the map
installed, then `reset()` (R423). -/
def State.hardReset (s : State) : State :=
  let t := State.create s.params
  ({ t with
    osRom := s.osRom, basicRom := s.basicRom, disk := s.disk
    gtia := { t.gtia with trigPressed := s.gtia.trigPressed, consol := s.gtia.consol }
    pia := { t.pia with portaIn := s.pia.portaIn, portbIn := s.pia.portbIn } }.install).resetCpu

/-! ## Images -/

/-- A region's RAM comes back before its image is replaced. -/
def State.unmapRegion (s : State) (r : Region) : State := if s.banks.rom r then s.romToRam r else s

/-- Load the OS ROM: exactly 16384 bytes, else nothing changes; the map is installed (20_memory.md R73, R425). -/
def State.loadOsRom (s : State) (image : List Byte) : State :=
  if image.length = 16384 then
    { ((s.unmapRegion .selfTest).unmapRegion .osLow).unmapRegion .osHigh with osRom := some image }.install
  else s

/-- Load the BASIC ROM: exactly 8192 bytes, else nothing changes; the map is installed (R73, R425). -/
def State.loadBasicRom (s : State) (image : List Byte) : State :=
  if image.length = 8192 then { s.unmapRegion .basic with basicRom := some image }.install else s

/-- Load a disk image (61_platform_devices.md R413). -/
def State.loadDisk (s : State) (image : List Byte) : State := { s with disk := some image }

/-- "is ready": OS and BASIC are loaded (R414, R425). -/
def State.isReady (s : State) : Bool := s.osRom.isSome && s.basicRom.isSome

/-- "is running": R414 names the query and nothing says what it answers (N23), so the answer is a free value
(notes/assumptions/39.md). -/
def State.isRunning (s : State) : Bool := Config.runningAnswer s.isReady s.cycle

/-- The ROM and disk present flags (R414). -/
def State.osRomPresent (s : State) : Bool := s.osRom.isSome
/-- The BASIC ROM present flag (R414). -/
def State.basicRomPresent (s : State) : Bool := s.basicRom.isSome
/-- The disk present flag (R414). -/
def State.diskPresent (s : State) : Bool := s.disk.isSome

/-! ## Input -/

/-- A source holds a key down (R397). -/
def State.holdKey (s : State) (key : Key) (source : Nat) : State :=
  { s with pokey := { s.pokey with keysDown := (key, source) :: s.pokey.keysDown } }

/-- A source releases a key; the key is up when every source has released it (R397). -/
def State.releaseKey (s : State) (key : Key) (source : Nat) : State :=
  { s with pokey := { s.pokey with keysDown := s.pokey.keysDown.erase (key, source) } }

/-- A key goes down from a source: its code with the modifiers in bits 7 and 6, its IRQ (R397). Control comes with the
event, shift is what its sources hold (DESIGN CHOICE, notes/assumptions/41.md). -/
def State.keyDown (s : State) (key : BitVec 6) (control : Bool) (source : Nat) : State :=
  let t := s.holdKey (.code key) source
  { t with pokey := { t.pokey with
      kbcode := BitVec.ofBool control ++ BitVec.ofBool (!s.pokey.shiftDown.isEmpty) ++ key } }.fireIrq 0x40

/-- A source releases a key with a code (R397). -/
def State.keyUp (s : State) (key : BitVec 6) (source : Nat) : State := s.releaseKey (.code key) source

/-- The BREAK key goes down from a source: held like any key, its own IRQ (R397); it has no code and leaves KBCODE alone
(DESIGN CHOICE, notes/assumptions/41.md). -/
def State.breakDown (s : State) (source : Nat) : State := (s.holdKey .brk source).fireIrq 0x80

/-- A source releases BREAK (R397). -/
def State.breakUp (s : State) (source : Nat) : State := s.releaseKey .brk source

/-- A source presses or releases shift, which is down while some source holds it (R397); no IRQ (DESIGN CHOICE,
notes/assumptions/41.md). -/
def State.setShift (s : State) (down : Bool) (source : Nat) : State :=
  { s with pokey := { s.pokey with
      shiftDown := if down then source :: s.pokey.shiftDown else s.pokey.shiftDown.erase source } }

/-- The joysticks move (R401). No operation moves `portbIn` (DESIGN CHOICE, notes/assumptions/45.md). -/
def State.setJoysticks (s : State) (v : Byte) : State := { s with pia := { s.pia with portaIn := v } }

/-- The triggers move; with GRACTL bit 2 set a press is latched (R390). -/
def State.setTriggers (s : State) (pressed : BitVec 4) : State :=
  { s with gtia := { s.gtia with
      trigPressed := pressed
      trigLatched := if s.gractl.getLsbD 2 then s.gtia.trigLatched ||| pressed else s.gtia.trigLatched } }

/-- The console keys move: OPTION, SELECT, START in bits 2..0, 0 = pressed (R387, R390). -/
def State.setConsole (s : State) (v : BitVec 3) : State := { s with gtia := { s.gtia with consol := v } }

/-! ## Audio -/

/-- The audio record changed after POKEY has caught up with the cycle counter (R398, R399). -/
def State.mapAudio (s : State) (f : Option Audio → Option Audio) : State :=
  let t := s.sync s.cycle
  { t with pokey := { t.pokey with audio := f t.pokey.audio } }

/-- Audio output is enabled: an empty ring at the nominal rate (R39, R399). -/
def State.audioOn (s : State) : State :=
  s.mapAudio fun _ =>
    some { ring := [], accumulator := 0, cyclesPerSample := s.params.audioRate, sampleClock := 0, queueHint := 0 }

/-- Audio output is disabled (R39). -/
def State.audioOff (s : State) : State := s.mapAudio fun _ => none

/-- The occupancy hint adjusts the rate by at most 2.5 percent either way (R399), from the present cycle on. -/
def State.audioHint (s : State) (queued : Nat) : State :=
  let rate := s.params.audioRate
  let wanted := Config.hintedRate rate queued
  s.mapAudio fun audio => audio.map fun u =>
    { u with queueHint := queued, cyclesPerSample := max (rate * 39 / 40) (min (rate * 41 / 40) wanted) }

/-- The ring buffer as the host reads it, all samples up to the present cycle in it (R399, R414). -/
def State.audioRing (s : State) : List Int :=
  match (s.sync s.cycle).pokey.audio with
  | none => []
  | some u => u.ring

/-- The host consumes samples from the ring buffer, the oldest first (R399). -/
def State.audioTake (s : State) (n : Nat) : List Int × State :=
  (s.audioRing.take n, s.mapAudio fun audio => audio.map fun u => { u with ring := u.ring.drop n })

/-! ## Reading -/

/-- The raw CPU register file, the one observer of `B` (10_state.md R45). -/
def State.registerFile (s : State) : Byte × Byte × Byte × Byte × Word × Flags := (s.a, s.x, s.y, s.sp, s.pc, s.flags)

/-- A byte of the framebuffer (R39, R414). -/
def State.pixel (s : State) (column line : Nat) : Byte := s.frame.read (frameColumns * line + column)

end Sys2Proof.Machine
end

