-- ==== Sys2Proof/Safety.lean ====
section
/-! DEFINITION. The terms in which claims about the machine are stated: what a memory access may change, the invariants
of a state, the parameters under which every step ends its event service, and which instructions write what. -/

namespace Sys2Proof.Machine

/-! ## What a read may change -/

/-- `s` with the four fields taken from `l` that the read of a device register may change: POKEY, the SIO machine, and
the event fields with the wake cycle (spec/61_platform_devices.md R393, R398, R411). -/
def State.withReadEffects (s l : State) : State :=
  { s with events := l.events, nextWake := l.nextWake, pokey := l.pokey, sio := l.sio }

/-- `s` with the fields taken from `t` that a byte stored through `MemWrite` may change: both arrays, the dispatch table,
the device records, the events they arm, the stall limit and the disk image (spec/20_memory.md R65, R70, R72). The CPU
registers, the flags, the cycle counter, the pending count, the output planes, the ROM images and the parameters are not
among them. -/
def State.withWriteEffects (s t : State) : State :=
  { s with stallUntil := t.stallUntil, events := t.events, nextWake := t.nextWake, ram := t.ram, sram := t.sram,
           banks := t.banks, pia := t.pia, antic := t.antic, gtia := t.gtia, pokey := t.pokey, sio := t.sio,
           disk := t.disk }

/-- The two registers whose read changes state: RANDOM and SERIN (R398, R411). -/
def readHasEffect (a : Nat) : Bool := a == 0xD20A || a == 0xD20D

/-- The state after an operand is read: its pointer, then the byte itself. -/
def State.afterOperand (s : State) (o : Operand) : State := ((s.resolve o).2.load o (s.resolve o).1).2

/-- One cycle when an indexed operand crosses a page, else none (spec/40_step_and_addressing.md R153). -/
def State.crossing (s : State) (o : Operand) : Nat := (s.resolve o).1.penalty

/-- The state after a byte is stored at an operand's address, the operand having been read first: a read-modify-write
(spec/20_memory.md R69). -/
def State.afterModify (s : State) (o : Operand) (v : Byte) : State :=
  s.withWriteEffects ((s.afterOperand o).memWrite (s.effectiveAddress o) v)

/-- The state after a byte is stored at an operand's address. -/
def State.afterStore (s : State) (o : Operand) (v : Byte) : State :=
  s.withWriteEffects (s.memWrite (s.effectiveAddress o) v)

/-- `N` and `Z` as a result byte sets them, by its unsigned value; the other flags stay (spec/00_scope.md R9). -/
def Flags.signZero (f : Flags) (v : Byte) : Flags := { f with n := decide (128 ≤ v.toNat), z := decide (v.toNat = 0) }

/-- `Z` and `C` of an unsigned comparison, `N` bit 7 of the difference modulo 256; the other flags stay
(spec/43_logic_compare.md R217). -/
def Flags.unsignedCompare (f : Flags) (reg m : Byte) : Flags :=
  { f with c := decide (m.toNat ≤ reg.toNat), z := decide (reg.toNat = m.toNat),
           n := decide (128 ≤ (reg.toNat + 256 - m.toNat) % 256) }

/-- The "Encodings" entry of an instruction rule: per mode the opcode value, the base cycle cost, and whether a page
cross costs one cycle more (spec/30_encoding.md R105, R106). The modes listed are all the instruction has. -/
def Encodings (mk : Operand → Instr) (rows : List (Mode × Byte × Nat × Bool)) : Prop :=
  (∀ o, (mk o).WellFormed ↔ o.mode ∈ rows.map Prod.fst) ∧
  ∀ row ∈ rows, ∀ (o : Operand) (s : State), o.mode = row.1 →
    opcodeOf (mk o) = some row.2.1 ∧
    ∃ t, exec (mk o) s = .next t ∧ t.cycle = s.cycle + row.2.2.1 + if row.2.2.2 then s.crossing o else 0

/-! ## Invariants -/

/-- The four byte arrays are in canonical form. -/
abbrev State.Canonical (s : State) : Prop :=
  s.ram.wf = true ∧ s.sram.wf = true ∧ s.frame.wf = true ∧ s.prio.wf = true

/-- `next_wake` is the minimum of the nine event fields (spec/61_platform_devices.md R361, R362). -/
abbrev State.WakeIsLeast (s : State) : Prop := s.nextWake = s.events.least

/-- No event is due (spec/60_exceptions.md R334, spec/61_platform_devices.md R364). -/
abbrev State.WakeAhead (s : State) : Prop := reached s.nextWake s.cycle = false

/-- The raster: the next boundary is one line after the current one, the current one is past, and the scanline counts
the boundaries modulo 312 (spec/61_platform_devices.md R365 to R367). -/
abbrev State.OnRaster (s : State) : Prop :=
  s.events.fetch = some (s.antic.lineStart + cyclesPerLine) ∧ s.antic.lineStart ≤ s.cycle ∧
    s.antic.lineStart % cyclesPerLine = 0 ∧ s.antic.scanline = s.antic.lineStart / cyclesPerLine % linesPerFrame

/-- The dispatch table is what `install()` builds from the PORTB latch (spec/20_memory.md R75). -/
def State.Installed (s : State) : Prop := ∀ r : Region, s.banks.rom r = s.wantsRom r

/-- Every region that is ROM shows its image's bytes (spec/20_memory.md R73, R76). -/
def State.RomVisible (s : State) : Prop :=
  ∀ (r : Region) (image : List Byte), s.banks.rom r = true → s.imageOf r = some image →
    ∀ k < r.size, s.ram.read (r.base + k) = (r.bytes image).getD k Memory.blank

/-- The invariant of a running machine. -/
structure State.Inv (s : State) : Prop where
  canonical   : s.Canonical
  wakeIsLeast : s.WakeIsLeast
  onRaster    : s.OnRaster
  installed   : s.Installed
  romVisible  : s.RomVisible

end Sys2Proof.Machine

namespace Sys2Proof

/-- Parameters under which event service settles: both offsets inside a line (92_eei_decisions.md D28), and an
`NMI_COST` of which four fit in a line (notes/assumptions/20.md). -/
def Params.legal (p : Params) : Bool :=
  decide (0 < p.drawOffset) && decide (p.drawOffset < Machine.cyclesPerLine) && decide (0 < p.dliOffset) &&
    decide (p.dliOffset < Machine.cyclesPerLine) && decide (4 * p.nmiCost < Machine.cyclesPerLine)

/-! ## Classes of instructions -/

/-- The instructions that store a byte at their operand's address, in the form that names memory: stores,
read-modify-writes, and their undocumented kin. -/
def Instr.storesOperand : Instr → Bool
  | .sta _ | .stx _ | .sty _ | .sax _ | .sha _ | .shx _ | .shy _ | .tas _ => true
  | .asl o | .lsr o | .rol o | .ror o => o != .acc
  | .inc _ | .dec _ | .slo _ | .rla _ | .sre _ | .rra _ | .dcp _ | .isc _ => true
  | _ => false

/-- The instructions that push on the stack. -/
def Instr.pushes : Instr → Bool
  | .pha | .php | .jsr _ | .brk => true
  | _ => false

/-- The instructions that write `SP` (spec/10_state.md R21). -/
def Instr.writesSp : Instr → Bool
  | .txs | .pha | .php | .pla | .plp | .jsr _ | .rts | .rti | .brk | .tas _ | .las _ => true
  | _ => false

/-- The instructions that write the decimal flag (R24). -/
def Instr.writesD : Instr → Bool
  | .cld | .sed | .plp | .rti => true
  | _ => false

/-- The instructions that write the interrupt-disable flag (R24, R25). -/
def Instr.writesI : Instr → Bool
  | .cli | .sei | .plp | .rti | .brk => true
  | _ => false

/-- The instructions that write the stored break flag (R24, R28). -/
def Instr.writesB : Instr → Bool
  | .plp | .rti => true
  | _ => false

/-- The instructions that write the overflow flag (R24). -/
def Instr.writesV : Instr → Bool
  | .adc _ | .sbc _ | .bit _ | .clv | .plp | .rti | .rra _ | .isc _ | .arr _ | .usbc _ => true
  | _ => false

/-- The instructions that write the carry flag (R24). -/
def Instr.writesC : Instr → Bool
  | .adc _ | .sbc _ | .cmp _ | .cpx _ | .cpy _ | .asl _ | .lsr _ | .rol _ | .ror _ | .sec | .clc | .plp | .rti => true
  | .slo _ | .rla _ | .sre _ | .rra _ | .dcp _ | .isc _ | .anc _ _ | .alr _ | .arr _ | .sbx _ | .usbc _ => true
  | _ => false

/-- The instructions that write the negative and the zero flag (R24). -/
def Instr.writesNZ : Instr → Bool
  | .lda _ | .ldx _ | .ldy _ | .tax | .tay | .txa | .tya | .tsx | .pla | .plp | .rti => true
  | .and _ | .ora _ | .eor _ | .bit _ | .cmp _ | .cpx _ | .cpy _ | .adc _ | .sbc _ => true
  | .asl _ | .lsr _ | .rol _ | .ror _ | .inc _ | .dec _ | .inx | .iny | .dex | .dey => true
  | .lax _ | .slo _ | .rla _ | .sre _ | .rra _ | .dcp _ | .isc _ | .anc _ _ | .alr _ | .arr _ | .sbx _ | .las _ |
    .usbc _ => true
  | _ => false

/-- The instructions that write `PC` beyond its advance past their own bytes (R22). -/
def Instr.writesPc : Instr → Bool
  | .jmp _ | .jsr _ | .rts | .rti | .brk => true
  | .bpl _ | .bmi _ | .bvc _ | .bvs _ | .bcc _ | .bcs _ | .bne _ | .beq _ => true
  | _ => false

end Sys2Proof
end

