-- ==== Sys2Proof/Certificates/Slice0/Obligations.lean ====
section
/-! DEFINITION. The statements for the provers, each from the numbered rules of spec/. The next state of an instruction
is written as a record update, so that what a statement does not name is unchanged; `withReadEffects` and
`withWriteEffects` (Safety.lean) name the fields that device registers may change. -/

open Sys2Proof Sys2Proof.Machine

/-! ## Encoding -/

/-- Words written out from the encoding tables of R104 to R106 decode to their instructions; nothing is left over. -/
def Obligations.KnownWordsDecode : Prop :=
  decode [0b10101001, 0b10000000] = .ok (.lda (.imm 0x80), []) ∧
  decode [0b10001101, 0b00001010, 0b11010100] = .ok (.sta (.abs 0xD40A), []) ∧
  decode [0b10101010] = .ok (.tax, []) ∧
  decode [0b01001000] = .ok (.pha, []) ∧
  decode [0b00110001, 0b00010000] = .ok (.and (.izy 0x10), []) ∧
  decode [0b11010101, 0b00010000] = .ok (.cmp (.zpx 0x10), []) ∧
  decode [0b01100001, 0b00010000] = .ok (.adc (.izx 0x10), []) ∧
  decode [0b11111001, 0b00110100, 0b00010010] = .ok (.sbc (.aby 0x1234), []) ∧
  decode [0b00001010] = .ok (.asl .acc, []) ∧
  decode [0b11111110, 0b00110100, 0b00010010] = .ok (.inc (.abx 0x1234), []) ∧
  decode [0b01101100, 0b11111111, 0b00000010] = .ok (.jmp (.ind 0x02FF), []) ∧
  decode [0b00000000] = .ok (.brk, []) ∧
  decode [0b11110000, 0b11111110] = .ok (.beq 0xFE, []) ∧
  decode [0b01011000] = .ok (.cli, []) ∧
  decode [0b10110111, 0b00010000] = .ok (.lax (.zpy 0x10), []) ∧
  decode [0b00101011, 0b01111111] = .ok (.anc 0x2B 0x7F, []) ∧
  decode [0b10011111, 0b00000000, 0b00010010] = .ok (.sha (.aby 0x1200), []) ∧
  decode [0b11110010] = .ok (.jam 0xF2, [])

/-- Decoding the bytes of a well-formed instruction gives it back, with every operand, and leaves what follows. -/
def Obligations.DecodeInvertsEncode : Prop :=
  ∀ (i : Instr) (rest : List Byte), i.WellFormed → decode (encode i ++ rest) = .ok (i, rest)

/-- What the decoder reads is well formed, and its encoding is exactly the bytes read. -/
def Obligations.EncodeInvertsDecode : Prop :=
  ∀ (bytes rest : List Byte) (i : Instr), decode bytes = .ok (i, rest) → i.WellFormed ∧ bytes = encode i ++ rest

/-- R107, R109, R110: every opcode value decodes once its operand bytes are there; the opcode alone gives the length, 1, 2
or 3; only missing bytes are an error. -/
def Obligations.EveryOpcodeDecodes : Prop :=
  ∀ (op : Byte) (rest : List Byte),
    (lengthOf op = 1 ∨ lengthOf op = 2 ∨ lengthOf op = 3) ∧
    (lengthOf op ≤ rest.length + 1 →
      ∃ i, decode (op :: rest) = .ok (i, rest.drop (lengthOf op - 1)) ∧ i.WellFormed ∧ i.length = lengthOf op) ∧
    (rest.length + 1 < lengthOf op → decode (op :: rest) = .error .truncated)

/-! ## The step -/

/-- A step that is neither stalled nor an IRQ service, with no event service of an earlier
step still open (notes/assumptions/20.md), runs the instruction the bytes at `PC` decode to, with `PC` moved
past them, then passes the event gate. Fetched from the device window or not, the bytes come through `MemRead`, in
ascending order, each once, all of them before the instruction acts (R131, R134, R136). -/
def Obligations.StepRunsDecodedInstruction : Prop :=
  (∀ (s : State) (i : Instr) (bytes : List Byte),
      s.serviceOpen = false → s.stallUntil ≤ s.cycle → (s.irqPending = 0 ∨ s.flags.i = true) → decode bytes = .ok (i, []) →
      (∀ k < bytes.length, isDevice (s.pc + BitVec.ofNat 16 k).toNat = false ∧
        s.ram.read (s.pc + BitVec.ofNat 16 k).toNat = bytes.getD k 0) →
      step s = gateAfter (exec i (s.setPc (s.pc + BitVec.ofNat 16 bytes.length)))) ∧
  ∀ s : State, s.serviceOpen = false → s.stallUntil ≤ s.cycle → (s.irqPending = 0 ∨ s.flags.i = true) →
      let b0 := s.memRead s.pc
      let b1 := b0.2.memRead (s.pc + 1)
      let b2 := b1.2.memRead (s.pc + 2)
      (∀ i, decode [b0.1] = .ok (i, []) → step s = gateAfter (exec i (b0.2.setPc (s.pc + 1)))) ∧
      (∀ i, decode [b0.1, b1.1] = .ok (i, []) → step s = gateAfter (exec i (b1.2.setPc (s.pc + 2)))) ∧
      (∀ i, decode [b0.1, b1.1, b2.1] = .ok (i, []) → step s = gateAfter (exec i (b2.2.setPc (s.pc + 3))))

/-- R132: a stalled step moves the cycle counter, and nothing else, to the end of the stall or to the next event,
whichever is earlier; with an event already due it does not move it. The event gate follows. That no event service is open
is a premise about the model's own note (notes/assumptions/20.md). -/
def Obligations.StalledStepOnlyAdvancesCycle : Prop :=
  ∀ s : State, s.serviceOpen = false → s.cycle < s.stallUntil →
    (s.WakeAhead → ∃ c, s.cycle < c ∧ c ≤ s.stallUntil ∧ (∀ w, s.nextWake = some w → c ≤ w) ∧
      (c = s.stallUntil ∨ s.nextWake = some c) ∧ step s = gateAfter (.next { s with cycle := c })) ∧
    (¬ s.WakeAhead → step s = gateAfter (.next s))

/-- The bytes an interrupt entry pushes, at the addresses of R327: return address high and low, then the status. -/
def Obligations.HandlerStackLayout : Prop :=
  ∀ s : State, s.ram.wf = true →
    let at_ := fun (k : Byte) => 0x100 + (s.sp - k).toNat
    let entered := fun (t : State) (ret : Word) (brk : Bool) =>
      t.sp = s.sp - 3 ∧ t.flags = { s.flags with i := true } ∧
      t.ram.read (at_ 0) = hiByte ret ∧ t.ram.read (at_ 1) = loByte ret ∧ t.ram.read (at_ 2) = s.flags.pack brk ∧
      ∀ a, a ≠ at_ 0 → a ≠ at_ 1 → a ≠ at_ 2 → t.ram.read a = s.ram.read a
    entered s.serviceIrq s.pc false ∧ entered s.nmi s.pc false ∧
      ∃ t, exec .brk s = .next t ∧ entered t (s.pc + 1) true

/-- R133, R326, R331: with no stall, a pending request and `I` clear, the step is an interrupt entry and no instruction.
`nmi()` enters its handler at once, whatever `I` and the stall are, and touches no pending count. That no event service is
open is a premise about the model's own note (notes/assumptions/20.md). -/
def Obligations.InterruptEntries : Prop :=
  (∀ s : State, s.serviceOpen = false → s.stallUntil ≤ s.cycle → 0 < s.irqPending → s.flags.i = false →
      step s = gateAfter (.next { s with
        ram := ((s.ram.write (0x100 + s.sp.toNat) (hiByte s.pc)).write (0x100 + (s.sp - 1).toNat) (loByte s.pc)).write
          (0x100 + (s.sp - 2).toNat) (s.flags.pack false)
        sp := s.sp - 3
        flags := { s.flags with i := true }
        pc := joinBytes (s.ram.read 0xFFFF) (s.ram.read 0xFFFE)
        cycle := s.cycle + 7
        irqPending := s.irqPending - 1 })) ∧
  ∀ s : State, s.nmi = { s with
      ram := ((s.ram.write (0x100 + s.sp.toNat) (hiByte s.pc)).write (0x100 + (s.sp - 1).toNat) (loByte s.pc)).write
        (0x100 + (s.sp - 2).toNat) (s.flags.pack false)
      sp := s.sp - 3
      flags := { s.flags with i := true }
      pc := joinBytes (s.ram.read 0xFFFB) (s.ram.read 0xFFFA)
      cycle := s.cycle + s.params.nmiCost }

/-- R30, R31: the packed status byte, bit by bit as a number, and the seven flags read back; bit 5 is ignored. -/
def Obligations.StatusByteRoundTrip : Prop :=
  ∀ (f : Flags) (b : Bool) (v : Byte),
    (f.pack b).toNat = 128 * bit f.n + 64 * bit f.v + 32 + 16 * bit b + 8 * bit f.d + 4 * bit f.i + 2 * bit f.z +
      bit f.c ∧
    unpack (f.pack b) = { f with b := b } ∧
    unpack v = { n := v.getLsbD 7, v := v.getLsbD 6, b := v.getLsbD 4, d := v.getLsbD 3, i := v.getLsbD 2,
                 z := v.getLsbD 1, c := v.getLsbD 0 }

/-- R334, R335: when an event is due, the loop of event service handles one, at its due cycle, and goes on from there; it
is an armed event of least due cycle, and among those due at that cycle the first in the order of R335. -/
def Obligations.EarliestEventIsServiced : Prop :=
  ∀ s : State, s.WakeIsLeast → ¬ s.WakeAhead →
    ∃ e t, (∀ k, s.serviceEvents (k + 1) = (s.handle e t).serviceEvents k) ∧
      s.events.earliest = some (e, t) ∧ s.events.get e = some t ∧ t ≤ s.cycle ∧
      (∀ e' t', s.events.get e' = some t' → t ≤ t') ∧
      ∀ before after, EventId.all = before ++ e :: after → ∀ e' ∈ before, s.events.get e' ≠ some t

/-- R135, R364: the gate handles nothing while no event is due. After a step no event is due, or its service is not over
(the model's own note, notes/assumptions/20.md); the step after such a one does nothing but go on with the service. -/
def Obligations.NoEventDueAfterStep : Prop :=
  (∀ s : State, s.WakeAhead → s.eventGate = { s with serviceOpen := false }) ∧
  (∀ s t : State, step s = .next t → (t.serviceOpen = false ↔ t.WakeAhead)) ∧
  ∀ s : State, s.serviceOpen = true → step s = .next s.eventGate

/-- Every step keeps the invariant: canonical arrays, `next_wake` the least due cycle (R362), the raster (R365 to R367),
the dispatch table as PORTB selects it (R75), and the ROM bytes visible and unmodified (R76). -/
def Obligations.StepKeepsInvariant : Prop := ∀ s t : State, s.Inv → step s = .next t → t.Inv

/-- The machine right after reset meets the invariant. -/
def Obligations.ResetMeetsInvariant : Prop := State.reset.Inv

/-- Every step of every state answers a next state: no fault, no refusal (R88, R321). Under the invariant and parameters
in the range of notes/assumptions/20.md its event service is over: no event is due after it (R135, R334). -/
def Obligations.StepAlwaysAnswers : Prop :=
  ∀ s : State, ∃ t, step s = .next t ∧
    (s.Inv → s.params.legal = true → t.WakeAhead ∧ t.serviceOpen = false)

/-- Every step from a state with no event due and no service open moves the cycle counter forward (R32, R130, R364). -/
def Obligations.StepAdvancesCycle : Prop :=
  ∀ s t : State, s.WakeAhead → s.serviceOpen = false → step s = .next t → s.cycle < t.cycle

/-- No step changes the ROM images, the open parameters or the host's inputs (R40, R390, R414). -/
def Obligations.StepKeepsHostInputs : Prop :=
  ∀ s t : State, step s = .next t →
    t.osRom = s.osRom ∧ t.basicRom = s.basicRom ∧ t.params = s.params ∧
    t.pia.portaIn = s.pia.portaIn ∧ t.pia.portbIn = s.pia.portbIn ∧
    t.gtia.trigPressed = s.gtia.trigPressed ∧ t.gtia.consol = s.gtia.consol ∧
    t.pokey.kbcode = s.pokey.kbcode ∧ t.pokey.keysDown = s.pokey.keysDown ∧ t.pokey.shiftDown = s.pokey.shiftDown

/-! ## Operands -/

/-- R139 to R150: the effective address of every mode as a number, the page-cross mark, and the state, which only the
pointer of an indirect jump can change. -/
def Obligations.EffectiveAddresses : Prop :=
  ∀ (s : State) (d v : Byte) (w : Word),
    (∀ o, o = .imp ∨ o = .acc → (s.resolve o).1.crossed = false ∧ (s.resolve o).2 = s) ∧
    (∀ o, o = .imm v ∨ o = .rel v → (s.resolve o).1.val = v ∧ (s.resolve o).1.crossed = false ∧ (s.resolve o).2 = s) ∧
    (let r := s.resolve (.zp d); r.1.ea.toNat = d.toNat ∧ r.1.crossed = false ∧ r.2 = s) ∧
    (let r := s.resolve (.zpx d); r.1.ea.toNat = (d.toNat + s.x.toNat) % 256 ∧ r.1.crossed = false ∧ r.2 = s) ∧
    (let r := s.resolve (.zpy d); r.1.ea.toNat = (d.toNat + s.y.toNat) % 256 ∧ r.1.crossed = false ∧ r.2 = s) ∧
    (let r := s.resolve (.abs w); r.1.ea = w ∧ r.1.crossed = false ∧ r.2 = s) ∧
    (let r := s.resolve (.abx w)
     r.1.ea.toNat = (w.toNat + s.x.toNat) % 65536 ∧
       (r.1.crossed = true ↔ r.1.ea.toNat / 256 ≠ w.toNat / 256) ∧ r.2 = s) ∧
    (let r := s.resolve (.aby w)
     r.1.ea.toNat = (w.toNat + s.y.toNat) % 65536 ∧
       (r.1.crossed = true ↔ r.1.ea.toNat / 256 ≠ w.toNat / 256) ∧ r.2 = s) ∧
    (let r := s.resolve (.izx d)
     let z := (d.toNat + s.x.toNat) % 256
     r.1.ea.toNat = (s.ram.read z).toNat + 256 * (s.ram.read ((z + 1) % 256)).toNat ∧ r.1.crossed = false ∧ r.2 = s) ∧
    (let r := s.resolve (.izy d)
     let base := (s.ram.read d.toNat).toNat + 256 * (s.ram.read ((d.toNat + 1) % 256)).toNat
     r.1.ea.toNat = (base + s.y.toNat) % 65536 ∧
       (r.1.crossed = true ↔ r.1.ea.toNat / 256 ≠ base / 256) ∧ r.2 = s) ∧
    ∃ high : Word,
      high.toNat = (if s.params.jmpIndPageWrap then w.toNat / 256 * 256 + (w.toNat % 256 + 1) % 256
        else (w.toNat + 1) % 65536) ∧
      let l := s.memRead w
      let h := l.2.memRead high
      let r := s.resolve (.ind w)
      r.1.ea.toNat = l.1.toNat + 256 * h.1.toNat ∧ r.1.crossed = false ∧ r.2 = h.2

/-- R70, R151: what reading an operand changes. It is nothing, unless the byte read is RANDOM or SERIN; then it is at most
POKEY, the SIO machine and the events. An undecoded address of the window gives the parameter (R72). -/
def Obligations.ReadsChangeOnlyPokeyState : Prop :=
  (∀ (s : State) (a : Word), (s.memRead a).2 = s.withReadEffects (s.memRead a).2) ∧
  (∀ (s : State) (a : Word), readHasEffect a.toNat = false → (s.memRead a).2 = s) ∧
  (∀ (s : State) (a : Word), isDevice a.toNat = false → s.memRead a = (s.ram.read a.toNat, s)) ∧
  (∀ (s : State) (a : Word), isDevice a.toNat = true → chipOf a.toNat = .unmapped →
    s.memRead a = (s.params.devUnmappedRead, s)) ∧
  ∀ (s : State) (o : Operand), o.mode ≠ .ind → (o.mode = .imm ∨ o.mode = .acc ∨
    readHasEffect (s.effectiveAddress o).toNat = false) → s.afterOperand o = s

/-! ## Memory -/

/-- R74, R75: the dispatch entry of every address, from the PORTB latch and the loaded images. -/
def Obligations.BankMapFollowsPortb : Prop :=
  ∀ (s : State) (a : Nat), s.Installed → a < 65536 →
    let p := s.pia.portb
    let os := s.osRom.isSome
    let rom :=
      (0x5000 ≤ a ∧ a ≤ 0x57FF ∧ p.getLsbD 7 = false ∧ p.getLsbD 0 = true ∧ os = true) ∨
      (0xA000 ≤ a ∧ a ≤ 0xBFFF ∧ p.getLsbD 1 = false ∧ s.basicRom.isSome = true) ∨
      (0xC000 ≤ a ∧ a ≤ 0xCFFF ∧ p.getLsbD 0 = true ∧ os = true) ∨
      (0xD800 ≤ a ∧ a ≤ 0xFFFF ∧ p.getLsbD 0 = true ∧ os = true)
    (s.banks.dispatch a = .dev ↔ 0xD000 ≤ a ∧ a ≤ 0xD7FF) ∧ (s.banks.dispatch a = .rom ↔ rom)

/-- R64, R65: a byte written to RAM is read back and no other byte changes; a byte written to ROM lands in the shadow
array and leaves what every address reads. -/
def Obligations.WritesReachRamOrShadow : Prop :=
  ∀ (s : State) (a : Word) (v : Byte), s.ram.wf = true → s.sram.wf = true →
    let t := s.memWrite a v
    (s.banks.dispatch a.toNat = .ram →
      t = { s with ram := t.ram } ∧ ∀ b : Nat, t.ram.read b = if b = a.toNat then v else s.ram.read b) ∧
    (s.banks.dispatch a.toNat = .rom →
      t = { s with sram := t.sram } ∧ ∀ b : Nat, t.sram.read b = if b = a.toNat then v else s.sram.read b) ∧
    (s.banks.dispatch a.toNat = .dev → t.sram.read a.toNat = v)

/-- A store through `MemWrite` reaches no CPU register, no flag, no counter of the CPU and no output plane; in the device
window only PORTB and HITCLR change a byte of the visible array, and only PORTB another byte of the shadow (R65, R70). -/
def Obligations.StoresLeaveCpuAlone : Prop :=
  ∀ (s : State) (a : Word) (v : Byte), s.ram.wf = true → s.sram.wf = true →
    s.memWrite a v = s.withWriteEffects (s.memWrite a v) ∧
    (s.banks.dispatch a.toNat = .dev → a.toNat ≠ 0xD301 → a.toNat ≠ 0xD01E →
      (s.memWrite a v).ram = s.ram ∧ (s.memWrite a v).banks = s.banks ∧
      ∀ b ≠ a.toNat, (s.memWrite a v).sram.read b = s.sram.read b)

/-- R76: the two transitions of a region. To ROM: its bytes are saved and the image's appear. To RAM: the saved bytes come
back. Each touches its region alone, and one after the other gives back every byte of RAM. -/
def Obligations.BankSwitchKeepsHiddenRam : Prop :=
  ∀ (s : State) (r : Region), s.ram.wf = true → s.sram.wf = true →
    (let u := s.romToRam r
     (∀ k < r.size, u.ram.read (r.base + k) = s.sram.read (r.base + k)) ∧
     (∀ a, ¬ (r.base ≤ a ∧ a < r.base + r.size) → u.ram.read a = s.ram.read a) ∧ u.sram = s.sram ∧
     u.banks.rom r = false ∧ ∀ q ≠ r, u.banks.rom q = s.banks.rom q) ∧
    ∀ image : List Byte, s.imageOf r = some image →
      let t := s.ramToRom r
      (∀ k < r.size, t.ram.read (r.base + k) = (r.bytes image).getD k 0 ∧
        t.sram.read (r.base + k) = s.ram.read (r.base + k)) ∧
      (∀ a, ¬ (r.base ≤ a ∧ a < r.base + r.size) → t.ram.read a = s.ram.read a ∧ t.sram.read a = s.sram.read a) ∧
      t.banks.rom r = true ∧ (∀ q ≠ r, t.banks.rom q = s.banks.rom q) ∧ (t.romToRam r).ram = s.ram

/-- R75, R76, R403: a store to PORTB with PBCTL bit 2 set writes the latch and installs the map it selects. A region whose
state does not change keeps every byte of both arrays; one that turns from ROM to RAM shows the bytes the shadow holds; one
that turns from RAM to ROM shows its image, and its RAM bytes stand in the shadow; outside the regions only the stored byte
changes. With the bit clear the store writes the direction register alone. -/
def Obligations.PortbStoreInstallsMap : Prop :=
  ∀ (s : State) (v : Byte), s.Canonical →
    let t := s.memWrite 0xD301 v
    (s.pia.pbctl.getLsbD 2 = true → t.pia = { s.pia with portb := v } ∧ t.Installed ∧
      (∀ r : Region, ∀ k < r.size,
        (s.banks.rom r = t.banks.rom r →
          t.ram.read (r.base + k) = s.ram.read (r.base + k) ∧ t.sram.read (r.base + k) = s.sram.read (r.base + k)) ∧
        (s.banks.rom r = true → t.banks.rom r = false →
          t.ram.read (r.base + k) = s.sram.read (r.base + k) ∧ t.sram.read (r.base + k) = s.sram.read (r.base + k)) ∧
        (s.banks.rom r = false → t.banks.rom r = true → ∃ image, s.imageOf r = some image ∧
          t.ram.read (r.base + k) = (r.bytes image).getD k 0 ∧ t.sram.read (r.base + k) = s.ram.read (r.base + k))) ∧
      ∀ a : Nat, (∀ r : Region, ¬ (r.base ≤ a ∧ a < r.base + r.size)) →
        t.ram.read a = s.ram.read a ∧ t.sram.read a = if a = 0xD301 then v else s.sram.read a) ∧
    (s.pia.pbctl.getLsbD 2 = false →
      t = { s with sram := s.sram.write 0xD301 v, pia := { s.pia with ddrb := v } })

/-- R401 to R404: the PIA's other registers. -/
def Obligations.PiaRegisters : Prop :=
  ∀ (s : State) (v : Byte),
    let port := fun (c latch dir inp : Byte) =>
      if c.getLsbD 2 then (latch &&& dir) ||| (inp &&& (dir ^^^ 0xFF)) else dir
    s.memRead 0xD300 = (port s.pia.pactl s.pia.porta s.pia.ddra s.pia.portaIn, s) ∧
    s.memRead 0xD301 = (port s.pia.pbctl s.pia.portb s.pia.ddrb s.pia.portbIn, s) ∧
    s.memRead 0xD302 = (s.pia.pactl &&& 0x3F, s) ∧ s.memRead 0xD303 = (s.pia.pbctl &&& 0x3F, s) ∧
    s.memWrite 0xD300 v = { s with
      sram := s.sram.write 0xD300 v
      pia := if s.pia.pactl.getLsbD 2 then { s.pia with porta := v } else { s.pia with ddra := v } } ∧
    s.memWrite 0xD302 v = { s with sram := s.sram.write 0xD302 v, pia := { s.pia with pactl := v } } ∧
    s.memWrite 0xD303 v = { s with sram := s.sram.write 0xD303 v, pia := { s.pia with pbctl := v } }

/-! ## Interrupt and stall registers -/

/-- R378: a WSYNC store stalls to the next scanline boundary, at least one cycle and at most one line ahead, whatever the
value; a read of the address does nothing. -/
def Obligations.WsyncStallsToBoundary : Prop :=
  ∀ (s : State) (v : Byte),
    s.memWrite 0xD40A v = { s with
      sram := s.sram.write 0xD40A v, stallUntil := max s.stallUntil (s.antic.lineStart + 114) } ∧
    (s.memRead 0xD40A).2 = s ∧
    (s.OnRaster → s.WakeIsLeast → s.WakeAhead →
      s.cycle < s.antic.lineStart + 114 ∧ s.antic.lineStart + 114 ≤ s.cycle + 114)

/-- R380, R381, R394, R395: NMIEN, NMIST/NMIRES, IRQEN and IRQST. No write of them makes a request or loses one. -/
def Obligations.InterruptControlRegisters : Prop :=
  (∀ (s : State) (v : Byte),
      s.memWrite 0xD40E v = { s with sram := s.sram.write 0xD40E v, antic := { s.antic with nmien := v } } ∧
      s.memRead 0xD40F = ((s.antic.nmist &&& 0xC0) ||| 0x1F, s) ∧
      s.memWrite 0xD40F v = { s with sram := s.sram.write 0xD40F v, antic := { s.antic with nmist := 0 } }) ∧
  ∀ (s : State) (v : Byte),
      s.memWrite 0xD20E v = { s with
        sram := s.sram.write 0xD20E v
        pokey := { s.pokey with irqen := v, irqst := s.pokey.irqst ||| (v ^^^ 0xFF) } } ∧
      s.memRead 0xD20E = (s.pokey.irqst, s)

/-- R368, R371: the VBI and the DLI set their own NMIST bit, clear the other's, and call `nmi()` if NMIEN enables them;
the DLI disarms its event. R324, R325, R396, R411, R412: the six event sources of IRQ. Each clears its IRQST bit, adds
one to the pending count if IRQEN enables it, and is re-armed one period on (timers) or disarmed (serial); no other field
changes. -/
def Obligations.InterruptSources : Prop :=
  (∀ s : State,
      (let t := { s with antic := { s.antic with nmist := (s.antic.nmist &&& 0x7F) ||| 0x40 } }
       s.raiseVbi = if s.antic.nmien.getLsbD 6 then t.nmi else t) ∧
      (let t := { s with antic := { s.antic with nmist := (s.antic.nmist &&& 0xBF) ||| 0x80 } }
       s.handleDli = (if s.antic.nmien.getLsbD 7 then t.nmi else t).arm .dli none)) ∧
  ∀ (s : State) (t : Nat),
      let fired := fun (e : EventId) (bits : Byte) (due : Option Nat) =>
        { s with
          pokey := { s.pokey with irqst := s.pokey.irqst &&& (bits ^^^ 0xFF) }
          irqPending := if s.pokey.irqen &&& bits = 0 then s.irqPending else s.irqPending + 1
          events := s.events.set e due
          nextWake := (s.events.set e due).least }
      let period := fun n => if s.period n = 0 then none else some (t + s.period n)
      s.handle .timer1 t = fired .timer1 1 (period 1) ∧ s.handle .timer2 t = fired .timer2 2 (period 2) ∧
      s.handle .timer4 t = fired .timer4 4 (period 4) ∧ s.handle .serOutNeeded t = fired .serOutNeeded 0x10 none ∧
      s.handle .serOutDone t = fired .serOutDone 0x08 none ∧ s.handle .serInReady t = fired .serInReady 0x20 none

/-- R366, R367: the scanline advance. The counter steps modulo 312, the boundary is the due cycle, the next boundary is 114
cycles on and the draw event at its offset; the VBI is raised on scanline 248 and there alone. -/
def Obligations.ScanlineAdvance : Prop :=
  ∀ (s : State) (t : Nat),
    let u := s.handle .fetch t
    u.antic.scanline = (s.antic.scanline + 1) % 312 ∧ u.antic.lineStart = t ∧ u.events.fetch = some (t + 114) ∧
    u.events.draw = some (t + s.params.drawOffset) ∧ s.stallUntil ≤ u.stallUntil ∧
    ((s.antic.scanline + 1) % 312 ≠ 248 →
      u.antic.nmist = s.antic.nmist ∧ u.pc = s.pc ∧ u.sp = s.sp ∧ u.cycle = s.cycle ∧ u.ram = s.ram) ∧
    ((s.antic.scanline + 1) % 312 = 248 → u.antic.nmist = (s.antic.nmist &&& 0x7F) ||| 0x40 ∧
      (s.antic.nmien.getLsbD 6 = true → u.pc = joinBytes (s.ram.read 0xFFFB) (s.ram.read 0xFFFA) ∧
        u.sp = s.sp - 3 ∧ u.flags.i = true ∧ u.cycle = s.cycle + s.params.nmiCost) ∧
      (s.antic.nmien.getLsbD 6 = false → u.pc = s.pc ∧ u.sp = s.sp ∧ u.flags = s.flags ∧ u.cycle = s.cycle ∧
        u.ram = s.ram))

/-- R396, R411: STIMER arms the three timers; a SERIN read consumes one byte of the response and announces the next. -/
def Obligations.TimerAndSerialRegisters : Prop :=
  ∀ (s : State) (v : Byte),
    (let due := fun n => if s.period n = 0 then none else some (s.cycle + s.period n)
     let e := { s.events with timer1 := due 1, timer2 := due 2, timer4 := due 4 }
     s.memWrite 0xD209 v = { s with sram := s.sram.write 0xD209 v, events := e, nextWake := e.least }) ∧
    (s.sio.remaining = 0 → s.memRead 0xD20D = (s.sio.lastByte, s)) ∧
    (0 < s.sio.remaining →
      let r := s.memRead 0xD20D
      r.1 = s.sio.response.getD s.sio.index s.sio.lastByte ∧ r.2.sio.remaining = s.sio.remaining - 1 ∧
      r.2.sio.lastByte = r.1 ∧
      (1 < s.sio.remaining → r.2.sio.index = s.sio.index + 1 ∧ r.2.sio.response = s.sio.response ∧
        r.2.events = { s.events with serInReady := some (s.cycle + s.params.serialByte) } ∧
        r.2.nextWake = r.2.events.least) ∧
      (s.sio.remaining = 1 → r.2.events = s.events ∧ r.2.nextWake = s.nextWake))

/-- R409, R408: what a WRITE SECTOR stores is what a READ SECTOR of the same valid sector reads, and no byte outside the
sector changes. -/
def Obligations.SectorWriteReadsBack : Prop :=
  ∀ (image data : List Byte) (n : Nat), sectorValid image n = true → data.length = sectorBytes image n →
    readSector (writeSector image n data) n = data ∧ (writeSector image n data).length = image.length ∧
    ∀ k, ¬ (sectorOffset image n ≤ k ∧ k < sectorOffset image n + data.length) →
      (writeSector image n data)[k]? = image[k]?

/-- R410: the checksum is the running sum modulo 255 of the bytes, a byte, and 0 only when every byte is 0. -/
def Obligations.SioChecksumIsModularSum : Prop :=
  ∀ bytes : List Byte,
    (sioChecksum bytes).toNat % 255 = (bytes.map BitVec.toNat).sum % 255 ∧
    (sioChecksum bytes = 0 ↔ ∀ b ∈ bytes, b = 0)

/-! ## Reset -/

/-- R420: `reset()` writes `SP`, `I`, the pending count and `PC`, and nothing else. -/
def Obligations.ResetChangesFourFields : Prop :=
  ∀ s : State, s.resetCpu = { s with
    sp := 0xFD
    flags := { s.flags with i := true }
    irqPending := 0
    pc := joinBytes (s.ram.read 0xFFFD) (s.ram.read 0xFFFC) }

/-- R43, R363, R423: the values the spec gives for reset and creation. `PC` is the reset vector the memory holds. -/
def Obligations.ResetStateValues : Prop :=
  let s := State.reset
  s.sp = 0xFD ∧ s.flags.i = true ∧ s.irqPending = 0 ∧ s.cycle = 0 ∧ s.stallUntil = 0 ∧
  s.events = { fetch := some 114, draw := none, dli := none, timer1 := none, timer2 := none, timer4 := none,
               serOutNeeded := none, serOutDone := none, serInReady := none } ∧
  s.antic.scanline = 0 ∧ s.antic.lineStart = 0 ∧ s.antic.nmien = 0 ∧ s.antic.nmist = 0 ∧
  s.pokey.irqen = 0 ∧ s.pokey.irqst = 0xFF ∧ s.pia.portb = 0xFF ∧ s.pokey.audio = none ∧
  (∀ a : Nat, 0xD000 ≤ a → a ≤ 0xD7FF → s.sram.read a = 0) ∧
  s.pc = joinBytes (s.ram.read 0xFFFD) (s.ram.read 0xFFFC) ∧ s.resetCpu = s

/-! ## Loads, stores, transfers -/

/-- R180 to R182, R281: the loads. `m` is the byte at the operand; nothing but the register, `N`, `Z`, `PC`'s advance (made
by the fetch), the cycles, and what the read of a device register changes. -/
def Obligations.LoadInstructions : Prop :=
  (∀ (s : State) (o : Operand),
    let m := s.operandByte o
    let t := { s.withReadEffects (s.afterOperand o) with
      flags := s.flags.signZero m, cycle := s.cycle + readCycles o.mode + s.crossing o }
    exec (.lda o) s = .next { t with a := m } ∧ exec (.ldx o) s = .next { t with x := m } ∧
    exec (.ldy o) s = .next { t with y := m } ∧ exec (.lax o) s = .next { t with a := m, x := m }) ∧
  Encodings .lda [(.imm, 0xA9, 2, false), (.zp, 0xA5, 3, false), (.zpx, 0xB5, 4, false), (.abs, 0xAD, 4, false),
    (.abx, 0xBD, 4, true), (.aby, 0xB9, 4, true), (.izx, 0xA1, 6, false), (.izy, 0xB1, 5, true)] ∧
  Encodings .ldx [(.imm, 0xA2, 2, false), (.zp, 0xA6, 3, false), (.zpy, 0xB6, 4, false), (.abs, 0xAE, 4, false),
    (.aby, 0xBE, 4, true)] ∧
  Encodings .ldy [(.imm, 0xA0, 2, false), (.zp, 0xA4, 3, false), (.zpx, 0xB4, 4, false), (.abs, 0xAC, 4, false),
    (.abx, 0xBC, 4, true)] ∧
  Encodings .lax [(.zp, 0xA7, 3, false), (.zpy, 0xB7, 4, false), (.abs, 0xAF, 4, false), (.aby, 0xBF, 4, true),
    (.izx, 0xA3, 6, false), (.izy, 0xB3, 5, true)]

/-- R183 to R185, R282: the stores. One byte at the effective address, no flag, no read of the target. -/
def Obligations.StoreInstructions : Prop :=
  (∀ (s : State) (o : Operand),
    let stored := fun v => { s.afterStore o v with cycle := s.cycle + storeCycles o.mode }
    ((Instr.sta o).WellFormed → exec (.sta o) s = .next (stored s.a)) ∧
    ((Instr.stx o).WellFormed → exec (.stx o) s = .next (stored s.x)) ∧
    ((Instr.sty o).WellFormed → exec (.sty o) s = .next (stored s.y)) ∧
    ((Instr.sax o).WellFormed → exec (.sax o) s = .next (stored (s.a &&& s.x)))) ∧
  Encodings .sta [(.zp, 0x85, 3, false), (.zpx, 0x95, 4, false), (.abs, 0x8D, 4, false), (.abx, 0x9D, 5, false),
    (.aby, 0x99, 5, false), (.izx, 0x81, 6, false), (.izy, 0x91, 6, false)] ∧
  Encodings .stx [(.zp, 0x86, 3, false), (.zpy, 0x96, 4, false), (.abs, 0x8E, 4, false)] ∧
  Encodings .sty [(.zp, 0x84, 3, false), (.zpx, 0x94, 4, false), (.abs, 0x8C, 4, false)] ∧
  Encodings .sax [(.zp, 0x87, 3, false), (.zpy, 0x97, 4, false), (.abs, 0x8F, 4, false), (.izx, 0x83, 6, false)]

/-- R186 to R191: the transfers, one byte, 2 cycles; TXS writes no flag. -/
def Obligations.TransferInstructions : Prop :=
  (∀ s : State,
    exec .tax s = .next { s with x := s.a, flags := s.flags.signZero s.a, cycle := s.cycle + 2 } ∧
    exec .tay s = .next { s with y := s.a, flags := s.flags.signZero s.a, cycle := s.cycle + 2 } ∧
    exec .txa s = .next { s with a := s.x, flags := s.flags.signZero s.x, cycle := s.cycle + 2 } ∧
    exec .tya s = .next { s with a := s.y, flags := s.flags.signZero s.y, cycle := s.cycle + 2 } ∧
    exec .tsx s = .next { s with x := s.sp, flags := s.flags.signZero s.sp, cycle := s.cycle + 2 } ∧
    exec .txs s = .next { s with sp := s.x, cycle := s.cycle + 2 }) ∧
  encode .tax = [0xAA] ∧ encode .tay = [0xA8] ∧ encode .txa = [0x8A] ∧ encode .tya = [0x98] ∧ encode .tsx = [0xBA] ∧
  encode .txs = [0x9A]

/-! ## Stack -/

/-- R200 to R203 with R21, R27: pushes write at `$0100 | SP` and decrement, pulls increment and read; both wrap inside
page 1, which is RAM. -/
def Obligations.StackInstructions : Prop :=
  (∀ s : State,
    let here := 0x100 + s.sp.toNat
    let pulled := s.ram.read (0x100 + (s.sp + 1).toNat)
    exec .pha s = .next { s with ram := s.ram.write here s.a, sp := s.sp - 1, cycle := s.cycle + 3 } ∧
    exec .php s = .next { s with ram := s.ram.write here (s.flags.pack true), sp := s.sp - 1, cycle := s.cycle + 3 } ∧
    exec .pla s = .next { s with
      a := pulled, flags := s.flags.signZero pulled, sp := s.sp + 1, cycle := s.cycle + 4 } ∧
    exec .plp s = .next { s with flags := unpack pulled, sp := s.sp + 1, cycle := s.cycle + 4 }) ∧
  encode .pha = [0x48] ∧ encode .php = [0x08] ∧ encode .pla = [0x68] ∧ encode .plp = [0x28]

/-! ## Logic and compare -/

/-- R210 to R213: AND, ORA, EOR, and BIT, which writes flags alone. -/
def Obligations.LogicInstructions : Prop :=
  (∀ (s : State) (o : Operand),
    let m := s.operandByte o
    let t := { s.withReadEffects (s.afterOperand o) with cycle := s.cycle + readCycles o.mode + s.crossing o }
    let result := fun v => Host.Outcome.next { t with a := v, flags := s.flags.signZero v }
    exec (.and o) s = result (s.a &&& m) ∧ exec (.ora o) s = result (s.a ||| m) ∧
    exec (.eor o) s = result (s.a ^^^ m) ∧
    exec (.bit o) s = .next { t with
      flags := { s.flags with z := decide (s.a &&& m = 0), n := m.getLsbD 7, v := m.getLsbD 6 } }) ∧
  Encodings .and [(.imm, 0x29, 2, false), (.zp, 0x25, 3, false), (.zpx, 0x35, 4, false), (.abs, 0x2D, 4, false),
    (.abx, 0x3D, 4, true), (.aby, 0x39, 4, true), (.izx, 0x21, 6, false), (.izy, 0x31, 5, true)] ∧
  Encodings .ora [(.imm, 0x09, 2, false), (.zp, 0x05, 3, false), (.zpx, 0x15, 4, false), (.abs, 0x0D, 4, false),
    (.abx, 0x1D, 4, true), (.aby, 0x19, 4, true), (.izx, 0x01, 6, false), (.izy, 0x11, 5, true)] ∧
  Encodings .eor [(.imm, 0x49, 2, false), (.zp, 0x45, 3, false), (.zpx, 0x55, 4, false), (.abs, 0x4D, 4, false),
    (.abx, 0x5D, 4, true), (.aby, 0x59, 4, true), (.izx, 0x41, 6, false), (.izy, 0x51, 5, true)] ∧
  Encodings .bit [(.zp, 0x24, 3, false), (.abs, 0x2C, 4, false)]

/-- R214 to R217: the compares; `N` is bit 7 of the difference, `V` and `D` play no part, no register changes. -/
def Obligations.CompareInstructions : Prop :=
  (∀ (s : State) (o : Operand),
    let m := s.operandByte o
    let compared := fun reg => Host.Outcome.next { s.withReadEffects (s.afterOperand o) with
      flags := s.flags.unsignedCompare reg m, cycle := s.cycle + readCycles o.mode + s.crossing o }
    exec (.cmp o) s = compared s.a ∧ exec (.cpx o) s = compared s.x ∧ exec (.cpy o) s = compared s.y) ∧
  Encodings .cmp [(.imm, 0xC9, 2, false), (.zp, 0xC5, 3, false), (.zpx, 0xD5, 4, false), (.abs, 0xCD, 4, false),
    (.abx, 0xDD, 4, true), (.aby, 0xD9, 4, true), (.izx, 0xC1, 6, false), (.izy, 0xD1, 5, true)] ∧
  Encodings .cpx [(.imm, 0xE0, 2, false), (.zp, 0xE4, 3, false), (.abs, 0xEC, 4, false)] ∧
  Encodings .cpy [(.imm, 0xC0, 2, false), (.zp, 0xC4, 3, false), (.abs, 0xCC, 4, false)]

/-! ## Addition and subtraction -/

/-- R220, R226: binary addition in integers. The unsigned sum modulo 256 with the carry out, and overflow exactly when the
signed sum is outside -128..127; `N` and `Z` of the result; the other flags stay. -/
def Obligations.BinaryAdditionInIntegers : Prop :=
  ∀ (f : Flags) (a m : Byte),
    let r := adcBinary f a m
    r.1.toNat + 256 * bit r.2.c = a.toNat + m.toNat + bit f.c ∧
    (r.2.v = true ↔ a.toInt + m.toInt + bit f.c < -128 ∨ 127 < a.toInt + m.toInt + bit f.c) ∧
    r.2 = { f.signZero r.1 with v := r.2.v, c := r.2.c }

/-- R222: binary subtraction in integers. `C` is "no borrow" in and out. -/
def Obligations.BinarySubtractionInIntegers : Prop :=
  ∀ (f : Flags) (a m : Byte),
    let r := sbcBinary f a m
    let d : Int := a.toNat - m.toNat - (1 - bit f.c)
    (r.1.toNat : Int) = d % 256 ∧ (r.2.c = true ↔ 0 ≤ d) ∧
    (r.2.v = true ↔ a.toInt - m.toInt - (1 - bit f.c) < -128 ∨ 127 < a.toInt - m.toInt - (1 - bit f.c)) ∧
    r.2 = { f.signZero r.1 with v := r.2.v, c := r.2.c }

/-- R221: decimal addition. On valid digits it adds two-digit decimal numbers; on every operand `N`, `V` and `Z` are those
of the binary sum, and the value and `C` follow the two correction passes. -/
def Obligations.DecimalAddition : Prop :=
  (∀ (f : Flags) (a m : Byte),
      let r := adcDecimal f a m
      let value := fun (b : Byte) => b.toNat / 16 * 10 + b.toNat % 16
      let valid := fun (b : Byte) => b.toNat / 16 < 10 ∧ b.toNat % 16 < 10
      (valid a → valid m → valid r.1 ∧ value r.1 + 100 * bit r.2.c = value a + value m + bit f.c) ∧
      r.2 = { (adcBinary f a m).2 with c := r.2.c }) ∧
  ∀ (f : Flags) (a m : Byte),
      let lo := a.toNat % 16 + m.toNat % 16 + bit f.c
      let lo := if 10 ≤ lo then (lo + 6) % 16 + 16 else lo
      let t := a.toNat - a.toNat % 16 + (m.toNat - m.toNat % 16) + lo
      let t := if 160 ≤ t then t + 96 else t
      (adcDecimal f a m).1.toNat = t % 256 ∧ ((adcDecimal f a m).2.c = true ↔ 256 ≤ t)

/-- R223: decimal subtraction. On valid digits it subtracts two-digit decimal numbers modulo 100; on every operand all four
flags are those of the binary subtraction, and the value follows the two passes. -/
def Obligations.DecimalSubtractionOfDigits : Prop :=
  ∀ (f : Flags) (a m : Byte),
    let r := sbcDecimal f a m
    let value := fun (b : Byte) => b.toNat / 16 * 10 + b.toNat % 16
    let valid := fun (b : Byte) => b.toNat / 16 < 10 ∧ b.toNat % 16 < 10
    (valid a → valid m → valid r.1 ∧ (value r.1 : Int) = ((value a : Int) - value m - (1 - bit f.c)) % 100) ∧
    r.2 = (sbcBinary f a m).2 ∧
    let lo : Int := (a.toNat % 16 : Nat) - (m.toNat % 16 : Nat) + bit f.c - 1
    let lo := if lo < 0 then (lo - 6) % 16 - 16 else lo
    let t : Int := (a.toNat - a.toNat % 16 : Nat) - (m.toNat - m.toNat % 16 : Nat) + lo
    let t := if t < 0 then t - 96 else t
    (r.1.toNat : Int) = t % 256

/-- R224, R225, R293: ADC, SBC and USBC; `D` selects the function and costs nothing; USBC is SBC immediate. -/
def Obligations.AddAndSubtractInstructions : Prop :=
  (∀ (s : State) (o : Operand),
    let m := s.operandByte o
    let result := fun (r : Byte × Flags) => Host.Outcome.next { s.withReadEffects (s.afterOperand o) with
      a := r.1, flags := r.2, cycle := s.cycle + readCycles o.mode + s.crossing o }
    exec (.adc o) s = result (if s.flags.d then adcDecimal s.flags s.a m else adcBinary s.flags s.a m) ∧
    exec (.sbc o) s = result (if s.flags.d then sbcDecimal s.flags s.a m else sbcBinary s.flags s.a m)) ∧
  (∀ (s : State) (v : Byte), exec (.usbc v) s = exec (.sbc (.imm v)) s) ∧
  Encodings .adc [(.imm, 0x69, 2, false), (.zp, 0x65, 3, false), (.zpx, 0x75, 4, false), (.abs, 0x6D, 4, false),
    (.abx, 0x7D, 4, true), (.aby, 0x79, 4, true), (.izx, 0x61, 6, false), (.izy, 0x71, 5, true)] ∧
  Encodings .sbc [(.imm, 0xE9, 2, false), (.zp, 0xE5, 3, false), (.zpx, 0xF5, 4, false), (.abs, 0xED, 4, false),
    (.abx, 0xFD, 4, true), (.aby, 0xF9, 4, true), (.izx, 0xE1, 6, false), (.izy, 0xF1, 5, true)] ∧
  ∀ v : Byte, encode (.usbc v) = [0xEB, v]

/-! ## Shifts, increments, decrements -/

/-- R240 as numbers: the four byte functions with the old carry in and the new carry out. -/
def Obligations.ShiftAndRotateFunctions : Prop :=
  ∀ (c : Bool) (v : Byte),
    (shiftLeft c v).1.toNat + 256 * bit (shiftLeft c v).2 = 2 * v.toNat ∧
    2 * (shiftRight c v).1.toNat + bit (shiftRight c v).2 = v.toNat ∧
    (rotateLeft c v).1.toNat + 256 * bit (rotateLeft c v).2 = 2 * v.toNat + bit c ∧
    2 * (rotateRight c v).1.toNat + bit (rotateRight c v).2 = v.toNat + 256 * bit c

/-- R230 to R233: the shifts and rotates, on the accumulator and on memory. The memory forms read the byte, then store the
new one at the same address; `A` stays. -/
def Obligations.ShiftInstructions : Prop :=
  (∀ (s : State) (o : Operand),
    let m := s.operandByte o
    let shifted := fun (n : Byte × Bool) => { s.flags with c := n.2 }.signZero n.1
    let outcome := fun (n : Byte × Bool) => Host.Outcome.next (
      if o = .acc then { s with a := n.1, flags := shifted n, cycle := s.cycle + 2 }
      else { s.afterModify o n.1 with flags := shifted n, cycle := s.cycle + rmwCycles o.mode })
    ((Instr.asl o).WellFormed → exec (.asl o) s = outcome (shiftLeft s.flags.c m)) ∧
    ((Instr.lsr o).WellFormed → exec (.lsr o) s = outcome (shiftRight s.flags.c m)) ∧
    ((Instr.rol o).WellFormed → exec (.rol o) s = outcome (rotateLeft s.flags.c m)) ∧
    ((Instr.ror o).WellFormed → exec (.ror o) s = outcome (rotateRight s.flags.c m))) ∧
  Encodings .asl [(.acc, 0x0A, 2, false), (.zp, 0x06, 5, false), (.zpx, 0x16, 6, false), (.abs, 0x0E, 6, false),
    (.abx, 0x1E, 7, false)] ∧
  Encodings .lsr [(.acc, 0x4A, 2, false), (.zp, 0x46, 5, false), (.zpx, 0x56, 6, false), (.abs, 0x4E, 6, false),
    (.abx, 0x5E, 7, false)] ∧
  Encodings .rol [(.acc, 0x2A, 2, false), (.zp, 0x26, 5, false), (.zpx, 0x36, 6, false), (.abs, 0x2E, 6, false),
    (.abx, 0x3E, 7, false)] ∧
  Encodings .ror [(.acc, 0x6A, 2, false), (.zp, 0x66, 5, false), (.zpx, 0x76, 6, false), (.abs, 0x6E, 6, false),
    (.abx, 0x7E, 7, false)]

/-- R234 to R239: increments and decrements modulo 256; neither `C` nor `V` changes. -/
def Obligations.IncrementAndDecrement : Prop :=
  (∀ (s : State) (o : Operand),
    let m := s.operandByte o
    let outcome := fun (n : Byte) => Host.Outcome.next
      { s.afterModify o n with flags := s.flags.signZero n, cycle := s.cycle + rmwCycles o.mode }
    ((Instr.inc o).WellFormed → exec (.inc o) s = outcome (m + 1)) ∧
    ((Instr.dec o).WellFormed → exec (.dec o) s = outcome (m - 1))) ∧
  (∀ s : State,
    exec .inx s = .next { s with x := s.x + 1, flags := s.flags.signZero (s.x + 1), cycle := s.cycle + 2 } ∧
    exec .iny s = .next { s with y := s.y + 1, flags := s.flags.signZero (s.y + 1), cycle := s.cycle + 2 } ∧
    exec .dex s = .next { s with x := s.x - 1, flags := s.flags.signZero (s.x - 1), cycle := s.cycle + 2 } ∧
    exec .dey s = .next { s with y := s.y - 1, flags := s.flags.signZero (s.y - 1), cycle := s.cycle + 2 }) ∧
  Encodings .inc [(.zp, 0xE6, 5, false), (.zpx, 0xF6, 6, false), (.abs, 0xEE, 6, false), (.abx, 0xFE, 7, false)] ∧
  Encodings .dec [(.zp, 0xC6, 5, false), (.zpx, 0xD6, 6, false), (.abs, 0xCE, 6, false), (.abx, 0xDE, 7, false)] ∧
  encode .inx = [0xE8] ∧ encode .iny = [0xC8] ∧ encode .dex = [0xCA] ∧ encode .dey = [0x88]

/-! ## Control flow -/

/-- R250 to R252: JMP writes `PC` alone; the pointer of the indirect form is read through `MemRead`. JSR pushes the address
of its last byte, high byte first; RTS pulls a word, low byte first, and adds one; both wrap inside page 1. -/
def Obligations.JumpAndSubroutine : Prop :=
  ((∀ (s : State) (w : Word),
      exec (.jmp (.abs w)) s = .next { s with pc := w, cycle := s.cycle + 3 } ∧
      exec (.jmp (.ind w)) s = .next { s.withReadEffects (s.resolve (.ind w)).2 with
        pc := s.effectiveAddress (.ind w), cycle := s.cycle + 5 }) ∧
    Encodings .jmp [(.abs, 0x4C, 3, false), (.ind, 0x6C, 5, false)]) ∧
  (∀ (s : State) (w : Word),
      exec (.jsr w) s = .next { s with
        ram := (s.ram.write (0x100 + s.sp.toNat) (hiByte (s.pc - 1))).write (0x100 + (s.sp - 1).toNat) (loByte (s.pc - 1))
        sp := s.sp - 2, pc := w, cycle := s.cycle + 6 } ∧
      exec .rts s = .next { s with
        pc := joinBytes (s.ram.read (0x100 + (s.sp + 2).toNat)) (s.ram.read (0x100 + (s.sp + 1).toNat)) + 1
        sp := s.sp + 2, cycle := s.cycle + 6 }) ∧
    (∀ w : Word, encode (.jsr w) = [0x20, loByte w, hiByte w]) ∧ encode .rts = [0x60]

/-- R253, R254, R328: BRK enters the handler of the IRQ vector with the address of BRK plus 2 and bit 4 set, whatever `I`
is; RTI pulls the flags, then `PC`. -/
def Obligations.BreakAndReturn : Prop :=
  (∀ s : State,
    exec .brk s = .next { s with
      ram := ((s.ram.write (0x100 + s.sp.toNat) (hiByte (s.pc + 1))).write (0x100 + (s.sp - 1).toNat)
        (loByte (s.pc + 1))).write (0x100 + (s.sp - 2).toNat) (s.flags.pack true)
      sp := s.sp - 3
      flags := { s.flags with i := true }
      pc := joinBytes (s.ram.read 0xFFFF) (s.ram.read 0xFFFE)
      cycle := s.cycle + 7 } ∧
    exec .rti s = .next { s with
      flags := unpack (s.ram.read (0x100 + (s.sp + 1).toNat))
      pc := joinBytes (s.ram.read (0x100 + (s.sp + 3).toNat)) (s.ram.read (0x100 + (s.sp + 2).toNat))
      sp := s.sp + 3, cycle := s.cycle + 6 }) ∧
  encode .brk = [0x00] ∧ encode .rti = [0x40]

/-- An interrupt entry followed by RTI gives back `PC`, `SP` and every flag but the stored `B` (R327, R328). -/
def Obligations.ReturnUndoesInterruptEntry : Prop :=
  ∀ s : State, s.ram.wf = true → ∀ t, (t = s.serviceIrq ∨ t = s.nmi) →
    ∃ u, exec .rti t = .next u ∧ u.pc = s.pc ∧ u.sp = s.sp ∧ u.flags = { s.flags with b := false } ∧
      u.a = s.a ∧ u.x = s.x ∧ u.y = s.y

/-- R255 to R263, R150: the branches. `PC` is the address of the next instruction; a taken branch adds the signed
displacement modulo 65536 and costs 3 cycles, or 4 when the target is on another page; no flag changes. -/
def Obligations.BranchInstructions : Prop :=
  (∀ (s : State) (d : Byte),
    ∃ target : Word, (target.toNat : Int) = ((s.pc.toNat : Int) + d.toInt) % 65536 ∧
    let outcome := fun (taken : Bool) => Host.Outcome.next (
      if taken then { s with
        pc := target, cycle := s.cycle + if target.toNat / 256 = s.pc.toNat / 256 then 3 else 4 }
      else { s with cycle := s.cycle + 2 })
    exec (.bpl d) s = outcome (!s.flags.n) ∧ exec (.bmi d) s = outcome s.flags.n ∧
    exec (.bvc d) s = outcome (!s.flags.v) ∧ exec (.bvs d) s = outcome s.flags.v ∧
    exec (.bcc d) s = outcome (!s.flags.c) ∧ exec (.bcs d) s = outcome s.flags.c ∧
    exec (.bne d) s = outcome (!s.flags.z) ∧ exec (.beq d) s = outcome s.flags.z) ∧
  ∀ d : Byte, encode (.bpl d) = [0x10, d] ∧ encode (.bmi d) = [0x30, d] ∧ encode (.bvc d) = [0x50, d] ∧
    encode (.bvs d) = [0x70, d] ∧ encode (.bcc d) = [0x90, d] ∧ encode (.bcs d) = [0xB0, d] ∧
    encode (.bne d) = [0xD0, d] ∧ encode (.beq d) = [0xF0, d]

/-! ## Flags and no-ops -/

/-- R270 to R277: each flag instruction writes its one flag; NOP writes nothing; 2 cycles. -/
def Obligations.FlagInstructions : Prop :=
  (∀ s : State,
    let outcome := fun f => Host.Outcome.next { s with flags := f, cycle := s.cycle + 2 }
    exec .clc s = outcome { s.flags with c := false } ∧ exec .sec s = outcome { s.flags with c := true } ∧
    exec .cli s = outcome { s.flags with i := false } ∧ exec .sei s = outcome { s.flags with i := true } ∧
    exec .clv s = outcome { s.flags with v := false } ∧ exec .cld s = outcome { s.flags with d := false } ∧
    exec .sed s = outcome { s.flags with d := true } ∧ exec .nop s = outcome s.flags) ∧
  encode .clc = [0x18] ∧ encode .sec = [0x38] ∧ encode .cli = [0x58] ∧ encode .sei = [0x78] ∧ encode .clv = [0xB8] ∧
  encode .cld = [0xD8] ∧ encode .sed = [0xF8] ∧ encode .nop = [0xEA]

/-- R299 to R303: the undocumented NOPs and the unstable opcodes change nothing but the cycle counter; with the parameter
set a NOP discards one read of its address; an indexed absolute NOP pays for a page cross. -/
def Obligations.NoOpInstructions : Prop :=
  (∀ (s : State) (op : Byte) (o : Operand), (Instr.nopx op o).WellFormed →
    exec (.nopx op o) s = .next { (if s.params.nopOperandAccess = true ∧ o.mode ≠ .imp ∧ o.mode ≠ .imm
        then s.withReadEffects (s.afterOperand o) else s) with
      cycle := s.cycle + readCycles o.mode + s.crossing o } ∧
    encode (.nopx op o) = op :: o.bytes) ∧
  (∀ (s : State) (v op : Byte),
    exec (.ane v) s = .next { s with cycle := s.cycle + 2 } ∧ exec (.lxa v) s = .next { s with cycle := s.cycle + 2 } ∧
    exec (.jam op) s = .next { s with cycle := s.cycle + 2 } ∧
    encode (.ane v) = [0x8B, v] ∧ encode (.lxa v) = [0xAB, v] ∧
    ((Instr.jam op).WellFormed → encode (.jam op) = [op])) ∧
  (∀ op : Byte, (Instr.jam op).WellFormed ↔
    op ∈ [0x02, 0x12, 0x22, 0x32, 0x42, 0x52, 0x62, 0x72, 0x92, 0xB2, 0xD2, 0xF2]) ∧
  ∀ (op : Byte) (o : Operand), (Instr.nopx op o).WellFormed ↔ op ∈ ((match o.mode with
    | .imp => [0x1A, 0x3A, 0x5A, 0x7A, 0xDA, 0xFA]
    | .imm => [0x80, 0x82, 0x89, 0xC2, 0xE2]
    | .zp => [0x04, 0x44, 0x64]
    | .zpx => [0x14, 0x34, 0x54, 0x74, 0xD4, 0xF4]
    | .abs => [0x0C]
    | .abx => [0x1C, 0x3C, 0x5C, 0x7C, 0xDC, 0xFC]
    | _ => []) : List Byte)

/-! ## Undocumented instructions -/

/-- R283 to R288: the read-modify-writes with an accumulator operation on the new byte. RRA adds with the carry the rotate
produced; that RRA and ISC honour `D` is an inference the spec marks in R286 and R288. -/
def Obligations.CombinedReadModifyWrites : Prop :=
  (∀ (s : State) (o : Operand), o.mode.isMemory = true →
    let m := s.operandByte o
    let after := fun (n a : Byte) (f : Flags) => Host.Outcome.next { s.afterModify o n with
      a := a, flags := f, cycle := s.cycle + rmwCycles o.mode }
    let carried := fun c => { s.flags with c := c }
    let logic := fun (n : Byte × Bool) (a : Byte) => after n.1 a ((carried n.2).signZero a)
    let asl := shiftLeft s.flags.c m
    let rol := rotateLeft s.flags.c m
    let lsr := shiftRight s.flags.c m
    let ror := rotateRight s.flags.c m
    exec (.slo o) s = logic asl (s.a ||| asl.1) ∧ exec (.rla o) s = logic rol (s.a &&& rol.1) ∧
    exec (.sre o) s = logic lsr (s.a ^^^ lsr.1) ∧
    (let r := adc (carried ror.2) s.a ror.1; exec (.rra o) s = after ror.1 r.1 r.2) ∧
    exec (.dcp o) s = after (m - 1) s.a (s.flags.unsignedCompare s.a (m - 1)) ∧
    (let r := sbc s.flags s.a (m + 1); exec (.isc o) s = after (m + 1) r.1 r.2)) ∧
  (let rows := fun (zp zpx abs abx aby izx izy : Byte) =>
    [(Mode.zp, zp, 5, false), (.zpx, zpx, 6, false), (.abs, abs, 6, false), (.abx, abx, 7, false),
     (.aby, aby, 7, false), (.izx, izx, 8, false), (.izy, izy, 8, false)]
   Encodings .slo (rows 0x07 0x17 0x0F 0x1F 0x1B 0x03 0x13) ∧ Encodings .rla (rows 0x27 0x37 0x2F 0x3F 0x3B 0x23 0x33) ∧
   Encodings .sre (rows 0x47 0x57 0x4F 0x5F 0x5B 0x43 0x53) ∧ Encodings .rra (rows 0x67 0x77 0x6F 0x7F 0x7B 0x63 0x73) ∧
   Encodings .dcp (rows 0xC7 0xD7 0xCF 0xDF 0xDB 0xC3 0xD3) ∧ Encodings .isc (rows 0xE7 0xF7 0xEF 0xFF 0xFB 0xE3 0xF3))

/-- R289 to R292: ANC, ALR, ARR, SBX; two bytes, 2 cycles, no memory access after the fetch. -/
def Obligations.ImmediateUndocumented : Prop :=
  (∀ (s : State) (v op : Byte),
    let m := s.a &&& v
    let r := (rotateRight s.flags.c m).1
    exec (.anc op v) s = .next { s with
      a := m, flags := { s.flags.signZero m with c := decide (128 ≤ m.toNat) }, cycle := s.cycle + 2 } ∧
    exec (.alr v) s = .next { s with
      a := m >>> 1, flags := { s.flags.signZero (m >>> 1) with c := m.getLsbD 0 }, cycle := s.cycle + 2 } ∧
    exec (.arr v) s = .next { s with
      a := r, flags := { s.flags.signZero r with c := r.getLsbD 6, v := r.getLsbD 6 ^^ r.getLsbD 5 }
      cycle := s.cycle + 2 } ∧
    (let t := s.a &&& s.x
     exec (.sbx v) s = .next { s with
       x := t - v, flags := { s.flags.signZero (t - v) with c := decide (v.toNat ≤ t.toNat) }
       cycle := s.cycle + 2 })) ∧
  (∀ v : Byte, encode (.anc 0x0B v) = [0x0B, v] ∧ encode (.anc 0x2B v) = [0x2B, v] ∧ encode (.alr v) = [0x4B, v] ∧
    encode (.arr v) = [0x6B, v] ∧ encode (.sbx v) = [0xCB, v]) ∧
  ∀ op v : Byte, (Instr.anc op v).WellFormed ↔ op = 0x0B ∨ op = 0x2B

/-- R294 to R298, R303: the SHA class and LAS. The byte stored is masked with one more than the high byte of the unindexed
base; an opcode the parameter adds to the unstable set keeps its cost and loses its effect. -/
def Obligations.ShaClassInstructions : Prop :=
  (∀ (s : State) (w : Word) (d : Byte),
    let next := fun (w : Word) => hiByte w + 1
    let base := joinBytes (s.ram.read ((d.toNat + 1) % 256)) (s.ram.read d.toNat)
    let when_ := fun (op : Byte) (cycles : Nat) (t : State) =>
      Host.Outcome.next { (if s.params.unstableExtra.contains op then s else t) with cycle := s.cycle + cycles }
    exec (.sha (.aby w)) s = when_ 0x9F 5 (s.afterStore (.aby w) (s.a &&& s.x &&& next w)) ∧
    exec (.sha (.izy d)) s = when_ 0x93 6 (s.afterStore (.izy d) (s.a &&& s.x &&& next base)) ∧
    exec (.shx w) s = when_ 0x9E 5 (s.afterStore (.aby w) (s.x &&& next w)) ∧
    exec (.shy w) s = when_ 0x9C 5 (s.afterStore (.abx w) (s.y &&& next w)) ∧
    exec (.tas w) s = when_ 0x9B 5
      { s.afterStore (.aby w) (s.a &&& s.x &&& next w) with sp := s.a &&& s.x } ∧
    (let v := s.operandByte (.aby w) &&& s.sp
     exec (.las w) s = when_ 0xBB (4 + s.crossing (.aby w))
       { s.withReadEffects (s.afterOperand (.aby w)) with a := v, x := v, sp := v, flags := s.flags.signZero v })) ∧
  ∀ w d, encode (.sha (.aby w)) = [0x9F, loByte w, hiByte w] ∧ encode (.sha (.izy d)) = [0x93, d] ∧
    encode (.shx w) = [0x9E, loByte w, hiByte w] ∧ encode (.shy w) = [0x9C, loByte w, hiByte w] ∧
    encode (.tas w) = [0x9B, loByte w, hiByte w] ∧ encode (.las w) = [0xBB, loByte w, hiByte w]

/-! ## Frames over all instructions -/

/-- R24, "written by": which instructions may change each flag. -/
def Obligations.FlagWriters : Prop :=
  ∀ (i : Instr) (s t : State), i.WellFormed → exec i s = .next t →
    (i.writesNZ = false → t.flags.n = s.flags.n ∧ t.flags.z = s.flags.z) ∧
    (i.writesV = false → t.flags.v = s.flags.v) ∧ (i.writesB = false → t.flags.b = s.flags.b) ∧
    (i.writesD = false → t.flags.d = s.flags.d) ∧ (i.writesI = false → t.flags.i = s.flags.i) ∧
    (i.writesC = false → t.flags.c = s.flags.c)

/-- R21, R22, R34: which instructions may change `SP` and `PC`; none changes the pending count, the output planes, the ROM
images or the parameters. -/
def Obligations.RegisterWriters : Prop :=
  ∀ (i : Instr) (s t : State), i.WellFormed → exec i s = .next t →
    (i.writesSp = false → t.sp = s.sp) ∧ (i.writesPc = false → t.pc = s.pc) ∧
    t.irqPending = s.irqPending ∧ t.frame = s.frame ∧ t.prio = s.prio ∧ t.osRom = s.osRom ∧ t.basicRom = s.basicRom ∧
    t.params = s.params

/-- Which instructions reach memory. One that neither stores at its operand nor pushes leaves both arrays and the dispatch
table; one that pushes leaves everything outside page 1; one that stores leaves every byte but that at its effective
address, when this is RAM or ROM (R10, R65, R69). -/
def Obligations.MemoryWriters : Prop :=
  ∀ (i : Instr) (s t : State), i.WellFormed → s.Canonical → exec i s = .next t →
    (i.storesOperand = false → i.pushes = false → t.ram = s.ram ∧ t.sram = s.sram ∧ t.banks = s.banks) ∧
    (i.pushes = true → t.sram = s.sram ∧ t.banks = s.banks ∧
      ∀ a, ¬ (0x100 ≤ a ∧ a < 0x200) → t.ram.read a = s.ram.read a) ∧
    (i.storesOperand = true → s.banks.dispatch (s.effectiveAddress i.operand).toNat ≠ .dev →
      t.banks = s.banks ∧ ∀ a ≠ (s.effectiveAddress i.operand).toNat,
        t.ram.read a = s.ram.read a ∧ t.sram.read a = s.sram.read a)

/-- R28: no rule reads the stored break flag. Two states that differ in it alone step to outcomes that differ in it at
most. -/
def Obligations.BreakFlagIsNeverRead : Prop :=
  ∀ (s : State) (b : Bool),
    let twin := { s with flags := { s.flags with b := b } }
    ∃ t c, step s = .next t ∧ step twin = .next { t with flags := { t.flags with b := c } }
end

