-- ==== Sys2Proof/Laws/State.lean ====
section
/-! SUPPORT. What each state update leaves in each field of State, one lemma per field and update, all by definition. -/

namespace Sys2Proof.Machine

/-! ### addCycles -/

@[simp] theorem State.addCycles_a (s : State) (n : Nat) : (s.addCycles n).a = s.a := rfl
@[simp] theorem State.addCycles_x (s : State) (n : Nat) : (s.addCycles n).x = s.x := rfl
@[simp] theorem State.addCycles_y (s : State) (n : Nat) : (s.addCycles n).y = s.y := rfl
@[simp] theorem State.addCycles_sp (s : State) (n : Nat) : (s.addCycles n).sp = s.sp := rfl
@[simp] theorem State.addCycles_pc (s : State) (n : Nat) : (s.addCycles n).pc = s.pc := rfl
@[simp] theorem State.addCycles_flags (s : State) (n : Nat) : (s.addCycles n).flags = s.flags := rfl
@[simp] theorem State.addCycles_cycle (s : State) (n : Nat) : (s.addCycles n).cycle = s.cycle + n := rfl
@[simp] theorem State.addCycles_stallUntil (s : State) (n : Nat) : (s.addCycles n).stallUntil = s.stallUntil := rfl
@[simp] theorem State.addCycles_irqPending (s : State) (n : Nat) : (s.addCycles n).irqPending = s.irqPending := rfl
@[simp] theorem State.addCycles_events (s : State) (n : Nat) : (s.addCycles n).events = s.events := rfl
@[simp] theorem State.addCycles_nextWake (s : State) (n : Nat) : (s.addCycles n).nextWake = s.nextWake := rfl
@[simp] theorem State.addCycles_ram (s : State) (n : Nat) : (s.addCycles n).ram = s.ram := rfl
@[simp] theorem State.addCycles_sram (s : State) (n : Nat) : (s.addCycles n).sram = s.sram := rfl
@[simp] theorem State.addCycles_banks (s : State) (n : Nat) : (s.addCycles n).banks = s.banks := rfl
@[simp] theorem State.addCycles_pia (s : State) (n : Nat) : (s.addCycles n).pia = s.pia := rfl
@[simp] theorem State.addCycles_antic (s : State) (n : Nat) : (s.addCycles n).antic = s.antic := rfl
@[simp] theorem State.addCycles_gtia (s : State) (n : Nat) : (s.addCycles n).gtia = s.gtia := rfl
@[simp] theorem State.addCycles_pokey (s : State) (n : Nat) : (s.addCycles n).pokey = s.pokey := rfl
@[simp] theorem State.addCycles_sio (s : State) (n : Nat) : (s.addCycles n).sio = s.sio := rfl
@[simp] theorem State.addCycles_frame (s : State) (n : Nat) : (s.addCycles n).frame = s.frame := rfl
@[simp] theorem State.addCycles_prio (s : State) (n : Nat) : (s.addCycles n).prio = s.prio := rfl
@[simp] theorem State.addCycles_osRom (s : State) (n : Nat) : (s.addCycles n).osRom = s.osRom := rfl
@[simp] theorem State.addCycles_basicRom (s : State) (n : Nat) : (s.addCycles n).basicRom = s.basicRom := rfl
@[simp] theorem State.addCycles_disk (s : State) (n : Nat) : (s.addCycles n).disk = s.disk := rfl
@[simp] theorem State.addCycles_params (s : State) (n : Nat) : (s.addCycles n).params = s.params := rfl
@[simp] theorem State.addCycles_serviceOpen (s : State) (n : Nat) : (s.addCycles n).serviceOpen = s.serviceOpen := rfl

/-! ### setPc -/

@[simp] theorem State.setPc_a (s : State) (w : Word) : (s.setPc w).a = s.a := rfl
@[simp] theorem State.setPc_x (s : State) (w : Word) : (s.setPc w).x = s.x := rfl
@[simp] theorem State.setPc_y (s : State) (w : Word) : (s.setPc w).y = s.y := rfl
@[simp] theorem State.setPc_sp (s : State) (w : Word) : (s.setPc w).sp = s.sp := rfl
@[simp] theorem State.setPc_pc (s : State) (w : Word) : (s.setPc w).pc = w := rfl
@[simp] theorem State.setPc_flags (s : State) (w : Word) : (s.setPc w).flags = s.flags := rfl
@[simp] theorem State.setPc_cycle (s : State) (w : Word) : (s.setPc w).cycle = s.cycle := rfl
@[simp] theorem State.setPc_stallUntil (s : State) (w : Word) : (s.setPc w).stallUntil = s.stallUntil := rfl
@[simp] theorem State.setPc_irqPending (s : State) (w : Word) : (s.setPc w).irqPending = s.irqPending := rfl
@[simp] theorem State.setPc_events (s : State) (w : Word) : (s.setPc w).events = s.events := rfl
@[simp] theorem State.setPc_nextWake (s : State) (w : Word) : (s.setPc w).nextWake = s.nextWake := rfl
@[simp] theorem State.setPc_ram (s : State) (w : Word) : (s.setPc w).ram = s.ram := rfl
@[simp] theorem State.setPc_sram (s : State) (w : Word) : (s.setPc w).sram = s.sram := rfl
@[simp] theorem State.setPc_banks (s : State) (w : Word) : (s.setPc w).banks = s.banks := rfl
@[simp] theorem State.setPc_pia (s : State) (w : Word) : (s.setPc w).pia = s.pia := rfl
@[simp] theorem State.setPc_antic (s : State) (w : Word) : (s.setPc w).antic = s.antic := rfl
@[simp] theorem State.setPc_gtia (s : State) (w : Word) : (s.setPc w).gtia = s.gtia := rfl
@[simp] theorem State.setPc_pokey (s : State) (w : Word) : (s.setPc w).pokey = s.pokey := rfl
@[simp] theorem State.setPc_sio (s : State) (w : Word) : (s.setPc w).sio = s.sio := rfl
@[simp] theorem State.setPc_frame (s : State) (w : Word) : (s.setPc w).frame = s.frame := rfl
@[simp] theorem State.setPc_prio (s : State) (w : Word) : (s.setPc w).prio = s.prio := rfl
@[simp] theorem State.setPc_osRom (s : State) (w : Word) : (s.setPc w).osRom = s.osRom := rfl
@[simp] theorem State.setPc_basicRom (s : State) (w : Word) : (s.setPc w).basicRom = s.basicRom := rfl
@[simp] theorem State.setPc_disk (s : State) (w : Word) : (s.setPc w).disk = s.disk := rfl
@[simp] theorem State.setPc_params (s : State) (w : Word) : (s.setPc w).params = s.params := rfl
@[simp] theorem State.setPc_serviceOpen (s : State) (w : Word) : (s.setPc w).serviceOpen = s.serviceOpen := rfl

/-! ### loadA -/

@[simp] theorem State.loadA_a (s : State) (v : Byte) : (s.loadA v).a = v := rfl
@[simp] theorem State.loadA_x (s : State) (v : Byte) : (s.loadA v).x = s.x := rfl
@[simp] theorem State.loadA_y (s : State) (v : Byte) : (s.loadA v).y = s.y := rfl
@[simp] theorem State.loadA_sp (s : State) (v : Byte) : (s.loadA v).sp = s.sp := rfl
@[simp] theorem State.loadA_pc (s : State) (v : Byte) : (s.loadA v).pc = s.pc := rfl
@[simp] theorem State.loadA_flags (s : State) (v : Byte) : (s.loadA v).flags = s.flags.setNZ v := rfl
@[simp] theorem State.loadA_cycle (s : State) (v : Byte) : (s.loadA v).cycle = s.cycle := rfl
@[simp] theorem State.loadA_stallUntil (s : State) (v : Byte) : (s.loadA v).stallUntil = s.stallUntil := rfl
@[simp] theorem State.loadA_irqPending (s : State) (v : Byte) : (s.loadA v).irqPending = s.irqPending := rfl
@[simp] theorem State.loadA_events (s : State) (v : Byte) : (s.loadA v).events = s.events := rfl
@[simp] theorem State.loadA_nextWake (s : State) (v : Byte) : (s.loadA v).nextWake = s.nextWake := rfl
@[simp] theorem State.loadA_ram (s : State) (v : Byte) : (s.loadA v).ram = s.ram := rfl
@[simp] theorem State.loadA_sram (s : State) (v : Byte) : (s.loadA v).sram = s.sram := rfl
@[simp] theorem State.loadA_banks (s : State) (v : Byte) : (s.loadA v).banks = s.banks := rfl
@[simp] theorem State.loadA_pia (s : State) (v : Byte) : (s.loadA v).pia = s.pia := rfl
@[simp] theorem State.loadA_antic (s : State) (v : Byte) : (s.loadA v).antic = s.antic := rfl
@[simp] theorem State.loadA_gtia (s : State) (v : Byte) : (s.loadA v).gtia = s.gtia := rfl
@[simp] theorem State.loadA_pokey (s : State) (v : Byte) : (s.loadA v).pokey = s.pokey := rfl
@[simp] theorem State.loadA_sio (s : State) (v : Byte) : (s.loadA v).sio = s.sio := rfl
@[simp] theorem State.loadA_frame (s : State) (v : Byte) : (s.loadA v).frame = s.frame := rfl
@[simp] theorem State.loadA_prio (s : State) (v : Byte) : (s.loadA v).prio = s.prio := rfl
@[simp] theorem State.loadA_osRom (s : State) (v : Byte) : (s.loadA v).osRom = s.osRom := rfl
@[simp] theorem State.loadA_basicRom (s : State) (v : Byte) : (s.loadA v).basicRom = s.basicRom := rfl
@[simp] theorem State.loadA_disk (s : State) (v : Byte) : (s.loadA v).disk = s.disk := rfl
@[simp] theorem State.loadA_params (s : State) (v : Byte) : (s.loadA v).params = s.params := rfl
@[simp] theorem State.loadA_serviceOpen (s : State) (v : Byte) : (s.loadA v).serviceOpen = s.serviceOpen := rfl

/-! ### loadX -/

@[simp] theorem State.loadX_a (s : State) (v : Byte) : (s.loadX v).a = s.a := rfl
@[simp] theorem State.loadX_x (s : State) (v : Byte) : (s.loadX v).x = v := rfl
@[simp] theorem State.loadX_y (s : State) (v : Byte) : (s.loadX v).y = s.y := rfl
@[simp] theorem State.loadX_sp (s : State) (v : Byte) : (s.loadX v).sp = s.sp := rfl
@[simp] theorem State.loadX_pc (s : State) (v : Byte) : (s.loadX v).pc = s.pc := rfl
@[simp] theorem State.loadX_flags (s : State) (v : Byte) : (s.loadX v).flags = s.flags.setNZ v := rfl
@[simp] theorem State.loadX_cycle (s : State) (v : Byte) : (s.loadX v).cycle = s.cycle := rfl
@[simp] theorem State.loadX_stallUntil (s : State) (v : Byte) : (s.loadX v).stallUntil = s.stallUntil := rfl
@[simp] theorem State.loadX_irqPending (s : State) (v : Byte) : (s.loadX v).irqPending = s.irqPending := rfl
@[simp] theorem State.loadX_events (s : State) (v : Byte) : (s.loadX v).events = s.events := rfl
@[simp] theorem State.loadX_nextWake (s : State) (v : Byte) : (s.loadX v).nextWake = s.nextWake := rfl
@[simp] theorem State.loadX_ram (s : State) (v : Byte) : (s.loadX v).ram = s.ram := rfl
@[simp] theorem State.loadX_sram (s : State) (v : Byte) : (s.loadX v).sram = s.sram := rfl
@[simp] theorem State.loadX_banks (s : State) (v : Byte) : (s.loadX v).banks = s.banks := rfl
@[simp] theorem State.loadX_pia (s : State) (v : Byte) : (s.loadX v).pia = s.pia := rfl
@[simp] theorem State.loadX_antic (s : State) (v : Byte) : (s.loadX v).antic = s.antic := rfl
@[simp] theorem State.loadX_gtia (s : State) (v : Byte) : (s.loadX v).gtia = s.gtia := rfl
@[simp] theorem State.loadX_pokey (s : State) (v : Byte) : (s.loadX v).pokey = s.pokey := rfl
@[simp] theorem State.loadX_sio (s : State) (v : Byte) : (s.loadX v).sio = s.sio := rfl
@[simp] theorem State.loadX_frame (s : State) (v : Byte) : (s.loadX v).frame = s.frame := rfl
@[simp] theorem State.loadX_prio (s : State) (v : Byte) : (s.loadX v).prio = s.prio := rfl
@[simp] theorem State.loadX_osRom (s : State) (v : Byte) : (s.loadX v).osRom = s.osRom := rfl
@[simp] theorem State.loadX_basicRom (s : State) (v : Byte) : (s.loadX v).basicRom = s.basicRom := rfl
@[simp] theorem State.loadX_disk (s : State) (v : Byte) : (s.loadX v).disk = s.disk := rfl
@[simp] theorem State.loadX_params (s : State) (v : Byte) : (s.loadX v).params = s.params := rfl
@[simp] theorem State.loadX_serviceOpen (s : State) (v : Byte) : (s.loadX v).serviceOpen = s.serviceOpen := rfl

/-! ### loadY -/

@[simp] theorem State.loadY_a (s : State) (v : Byte) : (s.loadY v).a = s.a := rfl
@[simp] theorem State.loadY_x (s : State) (v : Byte) : (s.loadY v).x = s.x := rfl
@[simp] theorem State.loadY_y (s : State) (v : Byte) : (s.loadY v).y = v := rfl
@[simp] theorem State.loadY_sp (s : State) (v : Byte) : (s.loadY v).sp = s.sp := rfl
@[simp] theorem State.loadY_pc (s : State) (v : Byte) : (s.loadY v).pc = s.pc := rfl
@[simp] theorem State.loadY_flags (s : State) (v : Byte) : (s.loadY v).flags = s.flags.setNZ v := rfl
@[simp] theorem State.loadY_cycle (s : State) (v : Byte) : (s.loadY v).cycle = s.cycle := rfl
@[simp] theorem State.loadY_stallUntil (s : State) (v : Byte) : (s.loadY v).stallUntil = s.stallUntil := rfl
@[simp] theorem State.loadY_irqPending (s : State) (v : Byte) : (s.loadY v).irqPending = s.irqPending := rfl
@[simp] theorem State.loadY_events (s : State) (v : Byte) : (s.loadY v).events = s.events := rfl
@[simp] theorem State.loadY_nextWake (s : State) (v : Byte) : (s.loadY v).nextWake = s.nextWake := rfl
@[simp] theorem State.loadY_ram (s : State) (v : Byte) : (s.loadY v).ram = s.ram := rfl
@[simp] theorem State.loadY_sram (s : State) (v : Byte) : (s.loadY v).sram = s.sram := rfl
@[simp] theorem State.loadY_banks (s : State) (v : Byte) : (s.loadY v).banks = s.banks := rfl
@[simp] theorem State.loadY_pia (s : State) (v : Byte) : (s.loadY v).pia = s.pia := rfl
@[simp] theorem State.loadY_antic (s : State) (v : Byte) : (s.loadY v).antic = s.antic := rfl
@[simp] theorem State.loadY_gtia (s : State) (v : Byte) : (s.loadY v).gtia = s.gtia := rfl
@[simp] theorem State.loadY_pokey (s : State) (v : Byte) : (s.loadY v).pokey = s.pokey := rfl
@[simp] theorem State.loadY_sio (s : State) (v : Byte) : (s.loadY v).sio = s.sio := rfl
@[simp] theorem State.loadY_frame (s : State) (v : Byte) : (s.loadY v).frame = s.frame := rfl
@[simp] theorem State.loadY_prio (s : State) (v : Byte) : (s.loadY v).prio = s.prio := rfl
@[simp] theorem State.loadY_osRom (s : State) (v : Byte) : (s.loadY v).osRom = s.osRom := rfl
@[simp] theorem State.loadY_basicRom (s : State) (v : Byte) : (s.loadY v).basicRom = s.basicRom := rfl
@[simp] theorem State.loadY_disk (s : State) (v : Byte) : (s.loadY v).disk = s.disk := rfl
@[simp] theorem State.loadY_params (s : State) (v : Byte) : (s.loadY v).params = s.params := rfl
@[simp] theorem State.loadY_serviceOpen (s : State) (v : Byte) : (s.loadY v).serviceOpen = s.serviceOpen := rfl

/-! ### setNZ -/

@[simp] theorem State.setNZ_a (s : State) (v : Byte) : (s.setNZ v).a = s.a := rfl
@[simp] theorem State.setNZ_x (s : State) (v : Byte) : (s.setNZ v).x = s.x := rfl
@[simp] theorem State.setNZ_y (s : State) (v : Byte) : (s.setNZ v).y = s.y := rfl
@[simp] theorem State.setNZ_sp (s : State) (v : Byte) : (s.setNZ v).sp = s.sp := rfl
@[simp] theorem State.setNZ_pc (s : State) (v : Byte) : (s.setNZ v).pc = s.pc := rfl
@[simp] theorem State.setNZ_flags (s : State) (v : Byte) : (s.setNZ v).flags = s.flags.setNZ v := rfl
@[simp] theorem State.setNZ_cycle (s : State) (v : Byte) : (s.setNZ v).cycle = s.cycle := rfl
@[simp] theorem State.setNZ_stallUntil (s : State) (v : Byte) : (s.setNZ v).stallUntil = s.stallUntil := rfl
@[simp] theorem State.setNZ_irqPending (s : State) (v : Byte) : (s.setNZ v).irqPending = s.irqPending := rfl
@[simp] theorem State.setNZ_events (s : State) (v : Byte) : (s.setNZ v).events = s.events := rfl
@[simp] theorem State.setNZ_nextWake (s : State) (v : Byte) : (s.setNZ v).nextWake = s.nextWake := rfl
@[simp] theorem State.setNZ_ram (s : State) (v : Byte) : (s.setNZ v).ram = s.ram := rfl
@[simp] theorem State.setNZ_sram (s : State) (v : Byte) : (s.setNZ v).sram = s.sram := rfl
@[simp] theorem State.setNZ_banks (s : State) (v : Byte) : (s.setNZ v).banks = s.banks := rfl
@[simp] theorem State.setNZ_pia (s : State) (v : Byte) : (s.setNZ v).pia = s.pia := rfl
@[simp] theorem State.setNZ_antic (s : State) (v : Byte) : (s.setNZ v).antic = s.antic := rfl
@[simp] theorem State.setNZ_gtia (s : State) (v : Byte) : (s.setNZ v).gtia = s.gtia := rfl
@[simp] theorem State.setNZ_pokey (s : State) (v : Byte) : (s.setNZ v).pokey = s.pokey := rfl
@[simp] theorem State.setNZ_sio (s : State) (v : Byte) : (s.setNZ v).sio = s.sio := rfl
@[simp] theorem State.setNZ_frame (s : State) (v : Byte) : (s.setNZ v).frame = s.frame := rfl
@[simp] theorem State.setNZ_prio (s : State) (v : Byte) : (s.setNZ v).prio = s.prio := rfl
@[simp] theorem State.setNZ_osRom (s : State) (v : Byte) : (s.setNZ v).osRom = s.osRom := rfl
@[simp] theorem State.setNZ_basicRom (s : State) (v : Byte) : (s.setNZ v).basicRom = s.basicRom := rfl
@[simp] theorem State.setNZ_disk (s : State) (v : Byte) : (s.setNZ v).disk = s.disk := rfl
@[simp] theorem State.setNZ_params (s : State) (v : Byte) : (s.setNZ v).params = s.params := rfl
@[simp] theorem State.setNZ_serviceOpen (s : State) (v : Byte) : (s.setNZ v).serviceOpen = s.serviceOpen := rfl

/-! ### setC -/

@[simp] theorem State.setC_a (s : State) (c : Bool) : (s.setC c).a = s.a := rfl
@[simp] theorem State.setC_x (s : State) (c : Bool) : (s.setC c).x = s.x := rfl
@[simp] theorem State.setC_y (s : State) (c : Bool) : (s.setC c).y = s.y := rfl
@[simp] theorem State.setC_sp (s : State) (c : Bool) : (s.setC c).sp = s.sp := rfl
@[simp] theorem State.setC_pc (s : State) (c : Bool) : (s.setC c).pc = s.pc := rfl
@[simp] theorem State.setC_flags (s : State) (c : Bool) : (s.setC c).flags = { s.flags with c := c } := rfl
@[simp] theorem State.setC_cycle (s : State) (c : Bool) : (s.setC c).cycle = s.cycle := rfl
@[simp] theorem State.setC_stallUntil (s : State) (c : Bool) : (s.setC c).stallUntil = s.stallUntil := rfl
@[simp] theorem State.setC_irqPending (s : State) (c : Bool) : (s.setC c).irqPending = s.irqPending := rfl
@[simp] theorem State.setC_events (s : State) (c : Bool) : (s.setC c).events = s.events := rfl
@[simp] theorem State.setC_nextWake (s : State) (c : Bool) : (s.setC c).nextWake = s.nextWake := rfl
@[simp] theorem State.setC_ram (s : State) (c : Bool) : (s.setC c).ram = s.ram := rfl
@[simp] theorem State.setC_sram (s : State) (c : Bool) : (s.setC c).sram = s.sram := rfl
@[simp] theorem State.setC_banks (s : State) (c : Bool) : (s.setC c).banks = s.banks := rfl
@[simp] theorem State.setC_pia (s : State) (c : Bool) : (s.setC c).pia = s.pia := rfl
@[simp] theorem State.setC_antic (s : State) (c : Bool) : (s.setC c).antic = s.antic := rfl
@[simp] theorem State.setC_gtia (s : State) (c : Bool) : (s.setC c).gtia = s.gtia := rfl
@[simp] theorem State.setC_pokey (s : State) (c : Bool) : (s.setC c).pokey = s.pokey := rfl
@[simp] theorem State.setC_sio (s : State) (c : Bool) : (s.setC c).sio = s.sio := rfl
@[simp] theorem State.setC_frame (s : State) (c : Bool) : (s.setC c).frame = s.frame := rfl
@[simp] theorem State.setC_prio (s : State) (c : Bool) : (s.setC c).prio = s.prio := rfl
@[simp] theorem State.setC_osRom (s : State) (c : Bool) : (s.setC c).osRom = s.osRom := rfl
@[simp] theorem State.setC_basicRom (s : State) (c : Bool) : (s.setC c).basicRom = s.basicRom := rfl
@[simp] theorem State.setC_disk (s : State) (c : Bool) : (s.setC c).disk = s.disk := rfl
@[simp] theorem State.setC_params (s : State) (c : Bool) : (s.setC c).params = s.params := rfl
@[simp] theorem State.setC_serviceOpen (s : State) (c : Bool) : (s.setC c).serviceOpen = s.serviceOpen := rfl

/-! ### setResult -/

@[simp] theorem State.setResult_a (s : State) (r : Byte × Flags) : (s.setResult r).a = r.1 := rfl
@[simp] theorem State.setResult_x (s : State) (r : Byte × Flags) : (s.setResult r).x = s.x := rfl
@[simp] theorem State.setResult_y (s : State) (r : Byte × Flags) : (s.setResult r).y = s.y := rfl
@[simp] theorem State.setResult_sp (s : State) (r : Byte × Flags) : (s.setResult r).sp = s.sp := rfl
@[simp] theorem State.setResult_pc (s : State) (r : Byte × Flags) : (s.setResult r).pc = s.pc := rfl
@[simp] theorem State.setResult_flags (s : State) (r : Byte × Flags) : (s.setResult r).flags = r.2 := rfl
@[simp] theorem State.setResult_cycle (s : State) (r : Byte × Flags) : (s.setResult r).cycle = s.cycle := rfl
@[simp] theorem State.setResult_stallUntil (s : State) (r : Byte × Flags) : (s.setResult r).stallUntil = s.stallUntil := rfl
@[simp] theorem State.setResult_irqPending (s : State) (r : Byte × Flags) : (s.setResult r).irqPending = s.irqPending := rfl
@[simp] theorem State.setResult_events (s : State) (r : Byte × Flags) : (s.setResult r).events = s.events := rfl
@[simp] theorem State.setResult_nextWake (s : State) (r : Byte × Flags) : (s.setResult r).nextWake = s.nextWake := rfl
@[simp] theorem State.setResult_ram (s : State) (r : Byte × Flags) : (s.setResult r).ram = s.ram := rfl
@[simp] theorem State.setResult_sram (s : State) (r : Byte × Flags) : (s.setResult r).sram = s.sram := rfl
@[simp] theorem State.setResult_banks (s : State) (r : Byte × Flags) : (s.setResult r).banks = s.banks := rfl
@[simp] theorem State.setResult_pia (s : State) (r : Byte × Flags) : (s.setResult r).pia = s.pia := rfl
@[simp] theorem State.setResult_antic (s : State) (r : Byte × Flags) : (s.setResult r).antic = s.antic := rfl
@[simp] theorem State.setResult_gtia (s : State) (r : Byte × Flags) : (s.setResult r).gtia = s.gtia := rfl
@[simp] theorem State.setResult_pokey (s : State) (r : Byte × Flags) : (s.setResult r).pokey = s.pokey := rfl
@[simp] theorem State.setResult_sio (s : State) (r : Byte × Flags) : (s.setResult r).sio = s.sio := rfl
@[simp] theorem State.setResult_frame (s : State) (r : Byte × Flags) : (s.setResult r).frame = s.frame := rfl
@[simp] theorem State.setResult_prio (s : State) (r : Byte × Flags) : (s.setResult r).prio = s.prio := rfl
@[simp] theorem State.setResult_osRom (s : State) (r : Byte × Flags) : (s.setResult r).osRom = s.osRom := rfl
@[simp] theorem State.setResult_basicRom (s : State) (r : Byte × Flags) : (s.setResult r).basicRom = s.basicRom := rfl
@[simp] theorem State.setResult_disk (s : State) (r : Byte × Flags) : (s.setResult r).disk = s.disk := rfl
@[simp] theorem State.setResult_params (s : State) (r : Byte × Flags) : (s.setResult r).params = s.params := rfl
@[simp] theorem State.setResult_serviceOpen (s : State) (r : Byte × Flags) : (s.setResult r).serviceOpen = s.serviceOpen := rfl

/-! ### compare -/

@[simp] theorem State.compare_a (s : State) (p m : Byte) : (s.compare p m).a = s.a := rfl
@[simp] theorem State.compare_x (s : State) (p m : Byte) : (s.compare p m).x = s.x := rfl
@[simp] theorem State.compare_y (s : State) (p m : Byte) : (s.compare p m).y = s.y := rfl
@[simp] theorem State.compare_sp (s : State) (p m : Byte) : (s.compare p m).sp = s.sp := rfl
@[simp] theorem State.compare_pc (s : State) (p m : Byte) : (s.compare p m).pc = s.pc := rfl
@[simp] theorem State.compare_flags (s : State) (p m : Byte) : (s.compare p m).flags = s.flags.compare p m := rfl
@[simp] theorem State.compare_cycle (s : State) (p m : Byte) : (s.compare p m).cycle = s.cycle := rfl
@[simp] theorem State.compare_stallUntil (s : State) (p m : Byte) : (s.compare p m).stallUntil = s.stallUntil := rfl
@[simp] theorem State.compare_irqPending (s : State) (p m : Byte) : (s.compare p m).irqPending = s.irqPending := rfl
@[simp] theorem State.compare_events (s : State) (p m : Byte) : (s.compare p m).events = s.events := rfl
@[simp] theorem State.compare_nextWake (s : State) (p m : Byte) : (s.compare p m).nextWake = s.nextWake := rfl
@[simp] theorem State.compare_ram (s : State) (p m : Byte) : (s.compare p m).ram = s.ram := rfl
@[simp] theorem State.compare_sram (s : State) (p m : Byte) : (s.compare p m).sram = s.sram := rfl
@[simp] theorem State.compare_banks (s : State) (p m : Byte) : (s.compare p m).banks = s.banks := rfl
@[simp] theorem State.compare_pia (s : State) (p m : Byte) : (s.compare p m).pia = s.pia := rfl
@[simp] theorem State.compare_antic (s : State) (p m : Byte) : (s.compare p m).antic = s.antic := rfl
@[simp] theorem State.compare_gtia (s : State) (p m : Byte) : (s.compare p m).gtia = s.gtia := rfl
@[simp] theorem State.compare_pokey (s : State) (p m : Byte) : (s.compare p m).pokey = s.pokey := rfl
@[simp] theorem State.compare_sio (s : State) (p m : Byte) : (s.compare p m).sio = s.sio := rfl
@[simp] theorem State.compare_frame (s : State) (p m : Byte) : (s.compare p m).frame = s.frame := rfl
@[simp] theorem State.compare_prio (s : State) (p m : Byte) : (s.compare p m).prio = s.prio := rfl
@[simp] theorem State.compare_osRom (s : State) (p m : Byte) : (s.compare p m).osRom = s.osRom := rfl
@[simp] theorem State.compare_basicRom (s : State) (p m : Byte) : (s.compare p m).basicRom = s.basicRom := rfl
@[simp] theorem State.compare_disk (s : State) (p m : Byte) : (s.compare p m).disk = s.disk := rfl
@[simp] theorem State.compare_params (s : State) (p m : Byte) : (s.compare p m).params = s.params := rfl
@[simp] theorem State.compare_serviceOpen (s : State) (p m : Byte) : (s.compare p m).serviceOpen = s.serviceOpen := rfl

/-! ### setShadow -/

@[simp] theorem State.setShadow_a (s : State) (n : Nat) (v : Byte) : (s.setShadow n v).a = s.a := rfl
@[simp] theorem State.setShadow_x (s : State) (n : Nat) (v : Byte) : (s.setShadow n v).x = s.x := rfl
@[simp] theorem State.setShadow_y (s : State) (n : Nat) (v : Byte) : (s.setShadow n v).y = s.y := rfl
@[simp] theorem State.setShadow_sp (s : State) (n : Nat) (v : Byte) : (s.setShadow n v).sp = s.sp := rfl
@[simp] theorem State.setShadow_pc (s : State) (n : Nat) (v : Byte) : (s.setShadow n v).pc = s.pc := rfl
@[simp] theorem State.setShadow_flags (s : State) (n : Nat) (v : Byte) : (s.setShadow n v).flags = s.flags := rfl
@[simp] theorem State.setShadow_cycle (s : State) (n : Nat) (v : Byte) : (s.setShadow n v).cycle = s.cycle := rfl
@[simp] theorem State.setShadow_stallUntil (s : State) (n : Nat) (v : Byte) : (s.setShadow n v).stallUntil = s.stallUntil := rfl
@[simp] theorem State.setShadow_irqPending (s : State) (n : Nat) (v : Byte) : (s.setShadow n v).irqPending = s.irqPending := rfl
@[simp] theorem State.setShadow_events (s : State) (n : Nat) (v : Byte) : (s.setShadow n v).events = s.events := rfl
@[simp] theorem State.setShadow_nextWake (s : State) (n : Nat) (v : Byte) : (s.setShadow n v).nextWake = s.nextWake := rfl
@[simp] theorem State.setShadow_ram (s : State) (n : Nat) (v : Byte) : (s.setShadow n v).ram = s.ram := rfl
@[simp] theorem State.setShadow_sram (s : State) (n : Nat) (v : Byte) : (s.setShadow n v).sram = s.sram.write n v := rfl
@[simp] theorem State.setShadow_banks (s : State) (n : Nat) (v : Byte) : (s.setShadow n v).banks = s.banks := rfl
@[simp] theorem State.setShadow_pia (s : State) (n : Nat) (v : Byte) : (s.setShadow n v).pia = s.pia := rfl
@[simp] theorem State.setShadow_antic (s : State) (n : Nat) (v : Byte) : (s.setShadow n v).antic = s.antic := rfl
@[simp] theorem State.setShadow_gtia (s : State) (n : Nat) (v : Byte) : (s.setShadow n v).gtia = s.gtia := rfl
@[simp] theorem State.setShadow_pokey (s : State) (n : Nat) (v : Byte) : (s.setShadow n v).pokey = s.pokey := rfl
@[simp] theorem State.setShadow_sio (s : State) (n : Nat) (v : Byte) : (s.setShadow n v).sio = s.sio := rfl
@[simp] theorem State.setShadow_frame (s : State) (n : Nat) (v : Byte) : (s.setShadow n v).frame = s.frame := rfl
@[simp] theorem State.setShadow_prio (s : State) (n : Nat) (v : Byte) : (s.setShadow n v).prio = s.prio := rfl
@[simp] theorem State.setShadow_osRom (s : State) (n : Nat) (v : Byte) : (s.setShadow n v).osRom = s.osRom := rfl
@[simp] theorem State.setShadow_basicRom (s : State) (n : Nat) (v : Byte) : (s.setShadow n v).basicRom = s.basicRom := rfl
@[simp] theorem State.setShadow_disk (s : State) (n : Nat) (v : Byte) : (s.setShadow n v).disk = s.disk := rfl
@[simp] theorem State.setShadow_params (s : State) (n : Nat) (v : Byte) : (s.setShadow n v).params = s.params := rfl
@[simp] theorem State.setShadow_serviceOpen (s : State) (n : Nat) (v : Byte) : (s.setShadow n v).serviceOpen = s.serviceOpen := rfl

/-! ### raiseStall -/

@[simp] theorem State.raiseStall_a (s : State) (n : Nat) : (s.raiseStall n).a = s.a := rfl
@[simp] theorem State.raiseStall_x (s : State) (n : Nat) : (s.raiseStall n).x = s.x := rfl
@[simp] theorem State.raiseStall_y (s : State) (n : Nat) : (s.raiseStall n).y = s.y := rfl
@[simp] theorem State.raiseStall_sp (s : State) (n : Nat) : (s.raiseStall n).sp = s.sp := rfl
@[simp] theorem State.raiseStall_pc (s : State) (n : Nat) : (s.raiseStall n).pc = s.pc := rfl
@[simp] theorem State.raiseStall_flags (s : State) (n : Nat) : (s.raiseStall n).flags = s.flags := rfl
@[simp] theorem State.raiseStall_cycle (s : State) (n : Nat) : (s.raiseStall n).cycle = s.cycle := rfl
@[simp] theorem State.raiseStall_stallUntil (s : State) (n : Nat) : (s.raiseStall n).stallUntil = max s.stallUntil n := rfl
@[simp] theorem State.raiseStall_irqPending (s : State) (n : Nat) : (s.raiseStall n).irqPending = s.irqPending := rfl
@[simp] theorem State.raiseStall_events (s : State) (n : Nat) : (s.raiseStall n).events = s.events := rfl
@[simp] theorem State.raiseStall_nextWake (s : State) (n : Nat) : (s.raiseStall n).nextWake = s.nextWake := rfl
@[simp] theorem State.raiseStall_ram (s : State) (n : Nat) : (s.raiseStall n).ram = s.ram := rfl
@[simp] theorem State.raiseStall_sram (s : State) (n : Nat) : (s.raiseStall n).sram = s.sram := rfl
@[simp] theorem State.raiseStall_banks (s : State) (n : Nat) : (s.raiseStall n).banks = s.banks := rfl
@[simp] theorem State.raiseStall_pia (s : State) (n : Nat) : (s.raiseStall n).pia = s.pia := rfl
@[simp] theorem State.raiseStall_antic (s : State) (n : Nat) : (s.raiseStall n).antic = s.antic := rfl
@[simp] theorem State.raiseStall_gtia (s : State) (n : Nat) : (s.raiseStall n).gtia = s.gtia := rfl
@[simp] theorem State.raiseStall_pokey (s : State) (n : Nat) : (s.raiseStall n).pokey = s.pokey := rfl
@[simp] theorem State.raiseStall_sio (s : State) (n : Nat) : (s.raiseStall n).sio = s.sio := rfl
@[simp] theorem State.raiseStall_frame (s : State) (n : Nat) : (s.raiseStall n).frame = s.frame := rfl
@[simp] theorem State.raiseStall_prio (s : State) (n : Nat) : (s.raiseStall n).prio = s.prio := rfl
@[simp] theorem State.raiseStall_osRom (s : State) (n : Nat) : (s.raiseStall n).osRom = s.osRom := rfl
@[simp] theorem State.raiseStall_basicRom (s : State) (n : Nat) : (s.raiseStall n).basicRom = s.basicRom := rfl
@[simp] theorem State.raiseStall_disk (s : State) (n : Nat) : (s.raiseStall n).disk = s.disk := rfl
@[simp] theorem State.raiseStall_params (s : State) (n : Nat) : (s.raiseStall n).params = s.params := rfl
@[simp] theorem State.raiseStall_serviceOpen (s : State) (n : Nat) : (s.raiseStall n).serviceOpen = s.serviceOpen := rfl

/-! ### recomputeNext -/

@[simp] theorem State.recomputeNext_a (s : State) : s.recomputeNext.a = s.a := rfl
@[simp] theorem State.recomputeNext_x (s : State) : s.recomputeNext.x = s.x := rfl
@[simp] theorem State.recomputeNext_y (s : State) : s.recomputeNext.y = s.y := rfl
@[simp] theorem State.recomputeNext_sp (s : State) : s.recomputeNext.sp = s.sp := rfl
@[simp] theorem State.recomputeNext_pc (s : State) : s.recomputeNext.pc = s.pc := rfl
@[simp] theorem State.recomputeNext_flags (s : State) : s.recomputeNext.flags = s.flags := rfl
@[simp] theorem State.recomputeNext_cycle (s : State) : s.recomputeNext.cycle = s.cycle := rfl
@[simp] theorem State.recomputeNext_stallUntil (s : State) : s.recomputeNext.stallUntil = s.stallUntil := rfl
@[simp] theorem State.recomputeNext_irqPending (s : State) : s.recomputeNext.irqPending = s.irqPending := rfl
@[simp] theorem State.recomputeNext_events (s : State) : s.recomputeNext.events = s.events := rfl
@[simp] theorem State.recomputeNext_nextWake (s : State) : s.recomputeNext.nextWake = s.events.least := rfl
@[simp] theorem State.recomputeNext_ram (s : State) : s.recomputeNext.ram = s.ram := rfl
@[simp] theorem State.recomputeNext_sram (s : State) : s.recomputeNext.sram = s.sram := rfl
@[simp] theorem State.recomputeNext_banks (s : State) : s.recomputeNext.banks = s.banks := rfl
@[simp] theorem State.recomputeNext_pia (s : State) : s.recomputeNext.pia = s.pia := rfl
@[simp] theorem State.recomputeNext_antic (s : State) : s.recomputeNext.antic = s.antic := rfl
@[simp] theorem State.recomputeNext_gtia (s : State) : s.recomputeNext.gtia = s.gtia := rfl
@[simp] theorem State.recomputeNext_pokey (s : State) : s.recomputeNext.pokey = s.pokey := rfl
@[simp] theorem State.recomputeNext_sio (s : State) : s.recomputeNext.sio = s.sio := rfl
@[simp] theorem State.recomputeNext_frame (s : State) : s.recomputeNext.frame = s.frame := rfl
@[simp] theorem State.recomputeNext_prio (s : State) : s.recomputeNext.prio = s.prio := rfl
@[simp] theorem State.recomputeNext_osRom (s : State) : s.recomputeNext.osRom = s.osRom := rfl
@[simp] theorem State.recomputeNext_basicRom (s : State) : s.recomputeNext.basicRom = s.basicRom := rfl
@[simp] theorem State.recomputeNext_disk (s : State) : s.recomputeNext.disk = s.disk := rfl
@[simp] theorem State.recomputeNext_params (s : State) : s.recomputeNext.params = s.params := rfl
@[simp] theorem State.recomputeNext_serviceOpen (s : State) : s.recomputeNext.serviceOpen = s.serviceOpen := rfl

/-! ### arm -/

@[simp] theorem State.arm_a (s : State) (e : EventId) (t : Option Nat) : (s.arm e t).a = s.a := rfl
@[simp] theorem State.arm_x (s : State) (e : EventId) (t : Option Nat) : (s.arm e t).x = s.x := rfl
@[simp] theorem State.arm_y (s : State) (e : EventId) (t : Option Nat) : (s.arm e t).y = s.y := rfl
@[simp] theorem State.arm_sp (s : State) (e : EventId) (t : Option Nat) : (s.arm e t).sp = s.sp := rfl
@[simp] theorem State.arm_pc (s : State) (e : EventId) (t : Option Nat) : (s.arm e t).pc = s.pc := rfl
@[simp] theorem State.arm_flags (s : State) (e : EventId) (t : Option Nat) : (s.arm e t).flags = s.flags := rfl
@[simp] theorem State.arm_cycle (s : State) (e : EventId) (t : Option Nat) : (s.arm e t).cycle = s.cycle := rfl
@[simp] theorem State.arm_stallUntil (s : State) (e : EventId) (t : Option Nat) : (s.arm e t).stallUntil = s.stallUntil := rfl
@[simp] theorem State.arm_irqPending (s : State) (e : EventId) (t : Option Nat) : (s.arm e t).irqPending = s.irqPending := rfl
@[simp] theorem State.arm_events (s : State) (e : EventId) (t : Option Nat) : (s.arm e t).events = s.events.set e t := rfl
@[simp] theorem State.arm_nextWake (s : State) (e : EventId) (t : Option Nat) : (s.arm e t).nextWake = (s.events.set e t).least := rfl
@[simp] theorem State.arm_ram (s : State) (e : EventId) (t : Option Nat) : (s.arm e t).ram = s.ram := rfl
@[simp] theorem State.arm_sram (s : State) (e : EventId) (t : Option Nat) : (s.arm e t).sram = s.sram := rfl
@[simp] theorem State.arm_banks (s : State) (e : EventId) (t : Option Nat) : (s.arm e t).banks = s.banks := rfl
@[simp] theorem State.arm_pia (s : State) (e : EventId) (t : Option Nat) : (s.arm e t).pia = s.pia := rfl
@[simp] theorem State.arm_antic (s : State) (e : EventId) (t : Option Nat) : (s.arm e t).antic = s.antic := rfl
@[simp] theorem State.arm_gtia (s : State) (e : EventId) (t : Option Nat) : (s.arm e t).gtia = s.gtia := rfl
@[simp] theorem State.arm_pokey (s : State) (e : EventId) (t : Option Nat) : (s.arm e t).pokey = s.pokey := rfl
@[simp] theorem State.arm_sio (s : State) (e : EventId) (t : Option Nat) : (s.arm e t).sio = s.sio := rfl
@[simp] theorem State.arm_frame (s : State) (e : EventId) (t : Option Nat) : (s.arm e t).frame = s.frame := rfl
@[simp] theorem State.arm_prio (s : State) (e : EventId) (t : Option Nat) : (s.arm e t).prio = s.prio := rfl
@[simp] theorem State.arm_osRom (s : State) (e : EventId) (t : Option Nat) : (s.arm e t).osRom = s.osRom := rfl
@[simp] theorem State.arm_basicRom (s : State) (e : EventId) (t : Option Nat) : (s.arm e t).basicRom = s.basicRom := rfl
@[simp] theorem State.arm_disk (s : State) (e : EventId) (t : Option Nat) : (s.arm e t).disk = s.disk := rfl
@[simp] theorem State.arm_params (s : State) (e : EventId) (t : Option Nat) : (s.arm e t).params = s.params := rfl
@[simp] theorem State.arm_serviceOpen (s : State) (e : EventId) (t : Option Nat) : (s.arm e t).serviceOpen = s.serviceOpen := rfl

/-! ### noteService -/

@[simp] theorem State.noteService_a (s : State) : s.noteService.a = s.a := rfl
@[simp] theorem State.noteService_x (s : State) : s.noteService.x = s.x := rfl
@[simp] theorem State.noteService_y (s : State) : s.noteService.y = s.y := rfl
@[simp] theorem State.noteService_sp (s : State) : s.noteService.sp = s.sp := rfl
@[simp] theorem State.noteService_pc (s : State) : s.noteService.pc = s.pc := rfl
@[simp] theorem State.noteService_flags (s : State) : s.noteService.flags = s.flags := rfl
@[simp] theorem State.noteService_cycle (s : State) : s.noteService.cycle = s.cycle := rfl
@[simp] theorem State.noteService_stallUntil (s : State) : s.noteService.stallUntil = s.stallUntil := rfl
@[simp] theorem State.noteService_irqPending (s : State) : s.noteService.irqPending = s.irqPending := rfl
@[simp] theorem State.noteService_events (s : State) : s.noteService.events = s.events := rfl
@[simp] theorem State.noteService_nextWake (s : State) : s.noteService.nextWake = s.nextWake := rfl
@[simp] theorem State.noteService_ram (s : State) : s.noteService.ram = s.ram := rfl
@[simp] theorem State.noteService_sram (s : State) : s.noteService.sram = s.sram := rfl
@[simp] theorem State.noteService_banks (s : State) : s.noteService.banks = s.banks := rfl
@[simp] theorem State.noteService_pia (s : State) : s.noteService.pia = s.pia := rfl
@[simp] theorem State.noteService_antic (s : State) : s.noteService.antic = s.antic := rfl
@[simp] theorem State.noteService_gtia (s : State) : s.noteService.gtia = s.gtia := rfl
@[simp] theorem State.noteService_pokey (s : State) : s.noteService.pokey = s.pokey := rfl
@[simp] theorem State.noteService_sio (s : State) : s.noteService.sio = s.sio := rfl
@[simp] theorem State.noteService_frame (s : State) : s.noteService.frame = s.frame := rfl
@[simp] theorem State.noteService_prio (s : State) : s.noteService.prio = s.prio := rfl
@[simp] theorem State.noteService_osRom (s : State) : s.noteService.osRom = s.osRom := rfl
@[simp] theorem State.noteService_basicRom (s : State) : s.noteService.basicRom = s.basicRom := rfl
@[simp] theorem State.noteService_disk (s : State) : s.noteService.disk = s.disk := rfl
@[simp] theorem State.noteService_params (s : State) : s.noteService.params = s.params := rfl
@[simp] theorem State.noteService_serviceOpen (s : State) : s.noteService.serviceOpen = reached s.nextWake s.cycle := rfl

/-! ### irq -/

@[simp] theorem State.irq_a (s : State) : s.irq.a = s.a := rfl
@[simp] theorem State.irq_x (s : State) : s.irq.x = s.x := rfl
@[simp] theorem State.irq_y (s : State) : s.irq.y = s.y := rfl
@[simp] theorem State.irq_sp (s : State) : s.irq.sp = s.sp := rfl
@[simp] theorem State.irq_pc (s : State) : s.irq.pc = s.pc := rfl
@[simp] theorem State.irq_flags (s : State) : s.irq.flags = s.flags := rfl
@[simp] theorem State.irq_cycle (s : State) : s.irq.cycle = s.cycle := rfl
@[simp] theorem State.irq_stallUntil (s : State) : s.irq.stallUntil = s.stallUntil := rfl
@[simp] theorem State.irq_irqPending (s : State) : s.irq.irqPending = s.irqPending + 1 := rfl
@[simp] theorem State.irq_events (s : State) : s.irq.events = s.events := rfl
@[simp] theorem State.irq_nextWake (s : State) : s.irq.nextWake = s.nextWake := rfl
@[simp] theorem State.irq_ram (s : State) : s.irq.ram = s.ram := rfl
@[simp] theorem State.irq_sram (s : State) : s.irq.sram = s.sram := rfl
@[simp] theorem State.irq_banks (s : State) : s.irq.banks = s.banks := rfl
@[simp] theorem State.irq_pia (s : State) : s.irq.pia = s.pia := rfl
@[simp] theorem State.irq_antic (s : State) : s.irq.antic = s.antic := rfl
@[simp] theorem State.irq_gtia (s : State) : s.irq.gtia = s.gtia := rfl
@[simp] theorem State.irq_pokey (s : State) : s.irq.pokey = s.pokey := rfl
@[simp] theorem State.irq_sio (s : State) : s.irq.sio = s.sio := rfl
@[simp] theorem State.irq_frame (s : State) : s.irq.frame = s.frame := rfl
@[simp] theorem State.irq_prio (s : State) : s.irq.prio = s.prio := rfl
@[simp] theorem State.irq_osRom (s : State) : s.irq.osRom = s.osRom := rfl
@[simp] theorem State.irq_basicRom (s : State) : s.irq.basicRom = s.basicRom := rfl
@[simp] theorem State.irq_disk (s : State) : s.irq.disk = s.disk := rfl
@[simp] theorem State.irq_params (s : State) : s.irq.params = s.params := rfl
@[simp] theorem State.irq_serviceOpen (s : State) : s.irq.serviceOpen = s.serviceOpen := rfl

end Sys2Proof.Machine
end

