-- ==== Sys2Proof/Laws/Ops.lean ====
section
/-! SUPPORT. Everything each shared operation over memory, the stack and the handlers can do. -/

namespace Sys2Proof.Machine

/-! ### Addresses -/

theorem isDevice_iff (a : Nat) : isDevice a = true ↔ 0xD000 ≤ a ∧ a < 0xD800 := by simp [isDevice, inRange]

theorem isDevice_false_iff (a : Nat) : isDevice a = false ↔ ¬ (0xD000 ≤ a ∧ a < 0xD800) := by
  rw [← isDevice_iff, Bool.not_eq_true]

theorem Banks.dispatch_low (b : Banks) {a : Nat} (h : a < 0x5000) : b.dispatch a = .ram := by
  have h1 : ¬ 0xD000 ≤ a := by omega
  have h2 : ¬ 0x5000 ≤ a := by omega
  have h3 : ¬ 0xA000 ≤ a := by omega
  have h4 : ¬ 0xC000 ≤ a := by omega
  have h5 : ¬ 0xD800 ≤ a := by omega
  simp [dispatch, isDevice, inRange, h1, h2, h3, h4, h5]

theorem Banks.dispatch_dev_iff (b : Banks) (a : Nat) : b.dispatch a = .dev ↔ isDevice a = true := by
  unfold dispatch
  cases isDevice a <;> simp
  split_ifs <;> simp

/-! ### Reads -/

/-- A read of RAM or ROM gives the visible byte and changes nothing. -/
theorem State.memRead_of_not_device (s : State) {a : Word} (h : isDevice a.toNat = false) :
    s.memRead a = (s.ram.read a.toNat, s) := by
  have hd : s.banks.dispatch a.toNat ≠ .dev := fun hc => by
    rw [s.banks.dispatch_dev_iff, h] at hc
    exact absurd hc (by decide)
  unfold memRead
  generalize s.banks.dispatch a.toNat = k at hd
  cases k <;> simp_all

theorem State.memRead_of_device (s : State) {a : Word} (h : isDevice a.toNat = true) :
    s.memRead a = s.devRead a.toNat := by
  have hd := (s.banks.dispatch_dev_iff a.toNat).2 h
  simp [memRead, hd]

theorem State.withReadEffects_self (s : State) : s.withReadEffects s = s := rfl

theorem State.sync_eq_withReadEffects (s : State) (c : Nat) : s.sync c = s.withReadEffects (s.sync c) := rfl

theorem State.serinRead_eq_withReadEffects (s : State) : s.serinRead.2 = s.withReadEffects s.serinRead.2 := by
  unfold serinRead
  dsimp only
  split_ifs <;> rfl

theorem State.devRead_eq_withReadEffects (s : State) (a : Nat) : (s.devRead a).2 = s.withReadEffects (s.devRead a).2 := by
  unfold devRead
  cases chipOf a <;> dsimp only
  · rfl
  · unfold pokeyRead
    split_ifs
    · rfl
    · rfl
    · rfl
    · exact s.sync_eq_withReadEffects s.cycle
    · exact s.serinRead_eq_withReadEffects
    · rfl
    · rfl
    · rfl
  · rfl
  · rfl
  · rfl

/-- A read of any byte changes at most POKEY, the SIO machine and the events. -/
theorem State.memRead_eq_withReadEffects (s : State) (a : Word) :
    (s.memRead a).2 = s.withReadEffects (s.memRead a).2 := by
  unfold memRead
  cases s.banks.dispatch a.toNat
  · rfl
  · rfl
  · exact s.devRead_eq_withReadEffects a.toNat

/-- Only RANDOM and SERIN have a read with an effect. -/
theorem State.memRead_state (s : State) {a : Word} (h : readHasEffect a.toNat = false) : (s.memRead a).2 = s := by
  unfold memRead
  cases s.banks.dispatch a.toNat
  · rfl
  · rfl
  · simp only [readHasEffect, Bool.or_eq_false_iff, beq_eq_false_iff_ne] at h
    unfold devRead
    cases hc : chipOf a.toNat <;> dsimp only
    have hr : 0xD200 ≤ a.toNat ∧ a.toNat < 0xD210 := by
      unfold chipOf at hc
      split_ifs at hc with h1 h2
      simpa [inRange] using h2
    unfold pokeyRead
    rw [if_neg (by omega : ¬ a.toNat - 53760 = 10), if_neg (by omega : ¬ a.toNat - 53760 = 13)]
    split_ifs <;> rfl

/-! ### Writes -/

theorem State.memWrite_of_ram (s : State) {a : Word} (v : Byte) (h : s.banks.dispatch a.toNat = .ram) :
    s.memWrite a v = { s with ram := s.ram.write a.toNat v } := by simp [memWrite, h]

theorem State.memWrite_of_rom (s : State) {a : Word} (v : Byte) (h : s.banks.dispatch a.toNat = .rom) :
    s.memWrite a v = { s with sram := s.sram.write a.toNat v } := by simp [memWrite, h, setShadow]

theorem State.withWriteEffects_trans {s t u : State} (h : t = s.withWriteEffects t) (k : u = t.withWriteEffects u) :
    u = s.withWriteEffects u := by
  rw [k, h]
  rfl

/-- `s` with the fields a byte handed to the SIO machine may change. -/
def State.withSioEffects (s t : State) : State :=
  { s with sio := t.sio, events := t.events, nextWake := t.nextWake, disk := t.disk }

theorem State.sioCommand_eq (s : State) (image : List Byte) (c : Byte) (n : Nat) :
    s.sioCommand image c n = s.withSioEffects (s.sioCommand image c n) := by
  unfold sioCommand
  dsimp only
  split_ifs <;> rfl

theorem State.sioCommandFrame_eq (s : State) (l : List Byte) :
    s.sioCommandFrame l = s.withSioEffects (s.sioCommandFrame l) := by
  unfold sioCommandFrame
  split_ifs
  · rfl
  · rfl
  · cases s.disk
    · rfl
    · exact s.sioCommand_eq _ _ _

theorem State.sioDataFrame_eq (s : State) (l : List Byte) :
    s.sioDataFrame l = s.withSioEffects (s.sioDataFrame l) := by
  unfold sioDataFrame
  dsimp only
  split_ifs
  · rfl
  · split
    · rfl
    · split_ifs <;> rfl
  · split <;> rfl

theorem State.sioByte_eq (s : State) (v : Byte) : s.sioByte v = s.withSioEffects (s.sioByte v) := by
  unfold sioByte
  dsimp only
  cases s.sio.phase <;> dsimp only <;> split_ifs <;>
    first | rfl | exact s.sioCommandFrame_eq _ | exact s.sioDataFrame_eq _

/-- A byte written to SEROUT reaches the SIO machine, the disk image and the events. -/
theorem State.seroutWrite_eq (s : State) (v : Byte) : s.seroutWrite v = s.withSioEffects (s.seroutWrite v) := by
  unfold seroutWrite
  rw [s.sioByte_eq v]
  rfl

theorem State.installRegion_eq (s : State) (r : Region) :
    s.installRegion r = s.withWriteEffects (s.installRegion r) := by
  unfold installRegion
  split_ifs <;> rfl

theorem State.install_eq (s : State) : s.install = s.withWriteEffects s.install := by
  unfold install
  exact State.withWriteEffects_trans (State.withWriteEffects_trans (State.withWriteEffects_trans
    (s.installRegion_eq _) (State.installRegion_eq _ _)) (State.installRegion_eq _ _)) (State.installRegion_eq _ _)

theorem State.devWrite_eq (s : State) (a : Nat) (v : Byte) : s.devWrite a v = s.withWriteEffects (s.devWrite a v) := by
  unfold devWrite
  cases chipOf a <;> dsimp only
  · unfold gtiaWrite
    split_ifs <;> rfl
  · unfold pokeyWrite
    split_ifs
    · rfl
    · rw [s.seroutWrite_eq v]
      rfl
    · rfl
    · rfl
  · unfold piaWrite
    split_ifs
    all_goals try rfl
    exact State.withWriteEffects_trans rfl (State.install_eq _)
  · unfold anticWrite
    split_ifs <;> rfl
  · rfl

theorem State.beforeDevWrite_eq (s : State) (a : Nat) : s.beforeDevWrite a = s.withWriteEffects (s.beforeDevWrite a) := by
  unfold beforeDevWrite
  cases chipOf a <;> dsimp only
  · rfl
  · split_ifs <;> rfl
  · rfl
  · rfl
  · rfl

/-- A store changes no CPU register, no flag, no counter of the CPU and no output plane. -/
theorem State.memWrite_eq_withWriteEffects (s : State) (a : Word) (v : Byte) :
    s.memWrite a v = s.withWriteEffects (s.memWrite a v) := by
  unfold memWrite
  cases s.banks.dispatch a.toNat <;> dsimp only
  · rfl
  · rfl
  · exact State.withWriteEffects_trans (State.withWriteEffects_trans (s.beforeDevWrite_eq _) rfl) (State.devWrite_eq _ _ _)

/-! ### Stack -/

theorem stackAddress_toNat (sp : Byte) : (stackAddress sp).toNat = 0x100 + sp.toNat := by
  simp only [stackAddress, joinBytes]
  have := sp.isLt
  rw [BitVec.toNat_append]
  show 1 <<< 8 ||| sp.toNat = _
  rw [Nat.shiftLeft_eq, Nat.mul_comm, ← Nat.two_pow_add_eq_or_of_lt (by omega : sp.toNat < 2 ^ 8)]

theorem zeroPage_toNat (d : Byte) : (zeroPage d).toNat = d.toNat := by
  show (0#8 ++ d).toNat = _
  rw [BitVec.toNat_append]
  simp

/-- A push writes one byte of page 1 and moves the stack pointer. -/
theorem State.push8_eq (s : State) (v : Byte) :
    s.push8 v = { s with ram := s.ram.write (0x100 + s.sp.toNat) v, sp := s.sp - 1 } := by
  have h : s.banks.dispatch (stackAddress s.sp).toNat = .ram :=
    s.banks.dispatch_low (by rw [stackAddress_toNat]; have := s.sp.isLt; omega)
  unfold push8
  rw [s.memWrite_of_ram v h, stackAddress_toNat]

/-- A pull moves the stack pointer and reads one byte of page 1. -/
theorem State.pull8_eq (s : State) :
    s.pull8 = (s.ram.read (0x100 + (s.sp + 1).toNat), { s with sp := s.sp + 1 }) := by
  have h : isDevice (stackAddress (s.sp + 1)).toNat = false := by
    rw [isDevice_false_iff, stackAddress_toNat]
    have := (s.sp + 1).isLt
    omega
  unfold pull8
  rw [State.memRead_of_not_device _ h, stackAddress_toNat]

theorem State.push16_eq (s : State) (w : Word) :
    s.push16 w = { s with
      ram := (s.ram.write (0x100 + s.sp.toNat) (hiByte w)).write (0x100 + (s.sp - 1).toNat) (loByte w)
      sp := s.sp - 2 } := by
  have h : s.sp - 1 - 1 = s.sp - 2 := by bv_omega
  simp only [push16, push8_eq, h]

theorem State.pull16_eq (s : State) :
    s.pull16 = (joinBytes (s.ram.read (0x100 + (s.sp + 2).toNat)) (s.ram.read (0x100 + (s.sp + 1).toNat)),
      { s with sp := s.sp + 2 }) := by
  have h : s.sp + 1 + 1 = s.sp + 2 := by bv_omega
  simp only [pull16, pull8_eq, h]

/-! ### Handlers -/

/-- A vector at the top of memory is read from the visible array. -/
theorem State.read16_of_not_device (s : State) {a : Word} (h : isDevice a.toNat = false)
    (h1 : isDevice (a + 1).toNat = false) :
    s.read16 a = (joinBytes (s.ram.read (a + 1).toNat) (s.ram.read a.toNat), s) := by
  simp only [read16, readPair, s.memRead_of_not_device h, s.memRead_of_not_device h1]

theorem Memory.read_write_ne {a b : Nat} (m : Memory) (v : Byte) (h : b ≠ a) : (m.write a v).read b = m.read b := by
  induction m with
  | nil =>
    by_cases hv : v = Memory.blank <;> simp [write, hv, read, h]
  | cons c m ih =>
    obtain ⟨k, w⟩ := c
    by_cases h1 : a < k
    · by_cases hv : v = Memory.blank <;> simp [write, h1, hv, read, h]
    · by_cases h2 : a = k
      · subst h2
        by_cases hv : v = Memory.blank <;> simp [write, hv, read, h]
      · simp only [write, if_neg h1, if_neg h2, read, ih]

/-- The shape of every handler entry: three bytes pushed, `I` set, `PC` from the vector. -/
theorem State.enterHandler_eq (s : State) (ret : Word) (brk : Bool) {vector : Word}
    (h : 0xD800 ≤ vector.toNat ∧ vector.toNat < 0xFFFF) :
    s.enterHandler ret brk vector = { s with
      ram := ((s.ram.write (0x100 + s.sp.toNat) (hiByte ret)).write (0x100 + (s.sp - 1).toNat) (loByte ret)).write
        (0x100 + (s.sp - 2).toNat) (s.flags.pack brk)
      sp := s.sp - 3
      flags := { s.flags with i := true }
      pc := joinBytes (s.ram.read (vector.toNat + 1)) (s.ram.read vector.toNat) } := by
  have hsp : s.sp - 2 - 1 = s.sp - 3 := by bv_omega
  have hv1 : (vector + 1).toNat = vector.toNat + 1 := by bv_omega
  have hd : isDevice vector.toNat = false := by rw [isDevice_false_iff]; omega
  have hd1 : isDevice (vector + 1).toNat = false := by rw [isDevice_false_iff, hv1]; omega
  have hstack : ∀ (sp : Byte) (a : Nat), 0xD800 ≤ a → a ≠ 0x100 + sp.toNat := fun sp a ha => by
    have := sp.isLt
    omega
  simp only [enterHandler, push16_eq, push8_eq, State.read16_of_not_device _ hd hd1, setPc, hsp, hv1]
  have hr : ∀ (m : Memory) (sp : Byte) (v : Byte) (a : Nat), 0xD800 ≤ a →
      (m.write (0x100 + sp.toNat) v).read a = m.read a := fun m sp v a ha => m.read_write_ne v (hstack sp a ha)
  rw [hr _ _ _ _ (by omega), hr _ _ _ _ (by omega), hr _ _ _ _ (by omega), hr _ _ _ _ h.1, hr _ _ _ _ h.1,
    hr _ _ _ _ h.1]

/-- The return: the flags from the first byte pulled, `PC` from the next two. -/
theorem State.returnFromHandler_eq (s : State) :
    s.returnFromHandler = { s with
      flags := unpack (s.ram.read (0x100 + (s.sp + 1).toNat))
      pc := joinBytes (s.ram.read (0x100 + (s.sp + 3).toNat)) (s.ram.read (0x100 + (s.sp + 2).toNat))
      sp := s.sp + 3 } := by
  have h2 : s.sp + 1 + 1 = s.sp + 2 := by bv_omega
  have h3 : s.sp + 1 + 2 = s.sp + 3 := by bv_omega
  simp only [returnFromHandler, pull8_eq, pull16_eq, setPc, h2, h3]

end Sys2Proof.Machine
end

