-- ==== Sys2Proof/Laws/Operands.lean ====
section
/-! SUPPORT. The addressing modes and the three shapes of an instruction with an operand. -/

namespace Sys2Proof.Machine

/-! ### Pointers and addresses -/

/-- A pointer in page zero: two visible bytes, the second wrapping inside the page. -/
theorem State.read16zp_eq (s : State) (z : Byte) :
    s.read16zp z = (joinBytes (s.ram.read (z + 1).toNat) (s.ram.read z.toNat), s) := by
  have h : ∀ d : Byte, isDevice (zeroPage d).toNat = false := fun d => by
    rw [isDevice_false_iff, zeroPage_toNat]
    have := d.isLt
    omega
  simp only [read16zp, readPair, s.memRead_of_not_device (h _), zeroPage_toNat]

/-- Only the pointer of an indirect jump is read through anything but RAM. -/
theorem State.resolve_state (s : State) {o : Operand} (h : o.mode ≠ .ind) : (s.resolve o).2 = s := by
  cases o <;> first | exact absurd rfl h | rfl | simp only [resolve, read16zp_eq]

theorem State.withReadEffects_trans {s t u : State} (h : t = s.withReadEffects t) (k : u = t.withReadEffects u) :
    u = s.withReadEffects u := by
  rw [k, h]
  rfl

theorem State.resolve_eq_withReadEffects (s : State) (o : Operand) :
    (s.resolve o).2 = s.withReadEffects (s.resolve o).2 := by
  by_cases h : o.mode = .ind
  · cases o <;> simp only [Operand.mode, reduceCtorEq] at h
    exact withReadEffects_trans (s.memRead_eq_withReadEffects _) (State.memRead_eq_withReadEffects _ _)
  · rw [s.resolve_state h]
    rfl

theorem State.load_eq_withReadEffects (s : State) (o : Operand) (r : Resolved) :
    (s.load o r).2 = s.withReadEffects (s.load o r).2 := by
  cases o <;> first | rfl | exact s.memRead_eq_withReadEffects _

/-- Reading an operand changes at most POKEY, the SIO machine and the events. -/
theorem State.afterOperand_eq (s : State) (o : Operand) : s.afterOperand o = s.withReadEffects (s.afterOperand o) :=
  withReadEffects_trans (s.resolve_eq_withReadEffects o) (State.load_eq_withReadEffects _ _ _)

/-! ### Words and addresses as numbers -/

theorem joinBytes_toNat (h l : Byte) : (joinBytes h l).toNat = l.toNat + 256 * h.toNat := by
  unfold joinBytes
  have := l.isLt
  rw [BitVec.toNat_append, Nat.shiftLeft_eq, Nat.mul_comm, ← Nat.two_pow_add_eq_or_of_lt (by omega)]
  omega

theorem hiByte_toNat (w : Word) : (hiByte w).toNat = w.toNat / 256 := by
  have := w.isLt
  simp only [hiByte, BitVec.extractLsb'_toNat, Nat.shiftRight_eq_div_pow]
  omega

theorem loByte_toNat (w : Word) : (loByte w).toNat = w.toNat % 256 := by
  simp [loByte, BitVec.extractLsb'_toNat]

theorem joinBytes_hiByte_loByte (w : Word) : joinBytes (hiByte w) (loByte w) = w := by
  rw [← BitVec.toNat_inj, joinBytes_toNat, hiByte_toNat, loByte_toNat]
  omega

/-- An indexed address, and when it crosses a page. -/
theorem Resolved.indexed_spec (base : Word) (i : Byte) :
    (Resolved.indexed base i).ea.toNat = (base.toNat + i.toNat) % 65536 ∧
      ((Resolved.indexed base i).crossed = true ↔ (Resolved.indexed base i).ea.toNat / 256 ≠ base.toNat / 256) := by
  have := i.isLt
  unfold Resolved.indexed
  constructor
  · simp [BitVec.toNat_add]
  · simp only [bne_iff_ne, ne_eq, ← BitVec.toNat_inj, hiByte_toNat]

/-! ### The three shapes -/

/-- Read the operand, act, pay. -/
theorem State.readOperand_eq (s : State) (o : Operand) (act : State → Byte → State) :
    s.readOperand o act = (act (s.afterOperand o) (s.operandByte o)).addCycles (readCycles o.mode + s.crossing o) := rfl

/-- Store at the operand's address, pay. -/
theorem State.storeOperand_eq (s : State) {o : Operand} (value : State → Resolved → Byte) (hi : o.mode ≠ .ind)
    (ha : o.mode ≠ .acc) :
    s.storeOperand o value =
      (s.memWrite (s.effectiveAddress o) (value s (s.resolve o).1)).addCycles (storeCycles o.mode) := by
  have h := s.resolve_state hi
  unfold storeOperand effectiveAddress
  dsimp only
  rw [h]
  cases o <;> first | rfl | exact absurd rfl ha

/-- Read, store the new byte at the same address, act, pay. -/
theorem State.modifyOperand_eq (s : State) {o : Operand} (f : Bool → Byte → Byte × Bool) (after : State → Byte → State)
    (ha : o.mode ≠ .acc) :
    s.modifyOperand o f after =
      (let n := f (s.afterOperand o).flags.c (s.operandByte o)
       (after (((s.afterOperand o).setC n.2).memWrite (s.effectiveAddress o) n.1) n.1).addCycles (rmwCycles o.mode)) := by
  cases o <;> first | rfl | exact absurd rfl ha

theorem State.afterOperand_flags (s : State) (o : Operand) : (s.afterOperand o).flags = s.flags := by
  rw [s.afterOperand_eq o]
  rfl

/-! ### Flags -/

theorem Flags.setNZ_eq (f : Flags) (v : Byte) : f.setNZ v = f.signZero v := by
  simp only [setNZ, signZero, Flags.mk.injEq, true_and, BitVec.msb_eq_decide]
  simp [BitVec.toNat_eq]

theorem Flags.compare_eq (f : Flags) (p m : Byte) : f.compare p m = f.unsignedCompare p m := by
  have h : (p - m).msb = decide (128 ≤ (p.toNat + 256 - m.toNat) % 256) := by
    rw [BitVec.msb_eq_decide, BitVec.toNat_sub]
    have := m.isLt
    have : 2 ^ 8 - m.toNat + p.toNat = p.toNat + 256 - m.toNat := by omega
    rw [this]
  simp only [compare, unsignedCompare, h, BitVec.toNat_eq]

end Sys2Proof.Machine
end

