-- ==== Sys2Proof/Laws/Path.lean ====
section
/-! SUPPORT. What the CPU can do to a state in one instruction or one handler entry: register and flag writes, cycles, the
pending count, reads and stores, one after the other. A property that each of these keeps is kept by every instruction. -/

namespace Sys2Proof.Machine

/-- One elementary action of the CPU. -/
inductive CpuAction : State → State → Prop where
  | registers (s : State) (a x y sp : Byte) (pc : Word) (f : Flags) :
      CpuAction s { s with a := a, x := x, y := y, sp := sp, pc := pc, flags := f }
  | cycles (s : State) (n : Nat) : CpuAction s (s.addCycles n)
  | pending (s : State) (n : Nat) : CpuAction s { s with irqPending := n }
  | read (s : State) (a : Word) : CpuAction s (s.memRead a).2
  | write (s : State) (a : Word) (v : Byte) : CpuAction s (s.memWrite a v)

/-- Some actions, one after the other. -/
inductive CpuPath : State → State → Prop where
  | refl (s : State) : CpuPath s s
  | tail {s t u : State} (h : CpuPath s t) (k : CpuAction t u) : CpuPath s u

namespace CpuPath

theorem trans {s t u : State} (h : CpuPath s t) (k : CpuPath t u) : CpuPath s u := by
  induction k with
  | refl => exact h
  | tail _ k ih => exact ih.tail k

theorem one {s t : State} (k : CpuAction s t) : CpuPath s t := (refl s).tail k

/-- What every action keeps, a path keeps. -/
theorem keeps {P : State → Prop} (h : ∀ s t, CpuAction s t → P s → P t) {s t : State} (k : CpuPath s t) (hs : P s) :
    P t := by
  induction k with
  | refl => exact hs
  | tail _ k ih => exact h _ _ k ih

theorem registers (s : State) (a x y sp : Byte) (pc : Word) (f : Flags) :
    CpuPath s { s with a := a, x := x, y := y, sp := sp, pc := pc, flags := f } := one (.registers s a x y sp pc f)

theorem cycles {s t : State} (h : CpuPath s t) (n : Nat) : CpuPath s (t.addCycles n) := h.tail (.cycles t n)

theorem read (s : State) (a : Word) : CpuPath s (s.memRead a).2 := one (.read s a)

theorem write (s : State) (a : Word) (v : Byte) : CpuPath s (s.memWrite a v) := one (.write s a v)

theorem readPair (s : State) (lo hi : Word) : CpuPath s (s.readPair lo hi).2 := (read s lo).trans (read _ hi)

theorem push8 (s : State) (v : Byte) : CpuPath s (s.push8 v) :=
  (write s (stackAddress s.sp) v).trans (registers _ _ _ _ _ _ _)

theorem pull8 (s : State) : CpuPath s s.pull8.2 := (registers s s.a s.x s.y (s.sp + 1) s.pc s.flags).trans (read _ _)

theorem push16 (s : State) (w : Word) : CpuPath s (s.push16 w) := (push8 s _).trans (push8 _ _)

theorem pull16 (s : State) : CpuPath s s.pull16.2 := (pull8 s).trans (pull8 _)

theorem setPc (s : State) (w : Word) : CpuPath s (s.setPc w) := registers s s.a s.x s.y s.sp w s.flags

theorem enterHandler (s : State) (ret : Word) (brk : Bool) (vector : Word) :
    CpuPath s (s.enterHandler ret brk vector) :=
  (((push16 s ret).trans (push8 _ _)).trans (registers _ _ _ _ _ _ _)).trans ((readPair _ _ _).trans (setPc _ _))

theorem returnFromHandler (s : State) : CpuPath s s.returnFromHandler :=
  ((pull8 s).trans (registers _ _ _ _ _ _ _)).trans ((pull16 _).trans (setPc _ _))

theorem resolve (s : State) (o : Operand) : CpuPath s (s.resolve o).2 := by
  cases o <;> first | exact refl s | exact readPair s _ _

theorem load (s : State) (o : Operand) (r : Resolved) : CpuPath s (s.load o r).2 := by
  cases o <;> first | exact refl s | exact read s _

theorem store (s : State) (o : Operand) (r : Resolved) (v : Byte) : CpuPath s (s.store o r v) := by
  cases o <;> first | exact registers s v s.x s.y s.sp s.pc s.flags | exact write s _ v

theorem readOperand (s : State) (o : Operand) {act : State → Byte → State} (h : ∀ t v, CpuPath t (act t v)) :
    CpuPath s (s.readOperand o act) :=
  (((resolve s o).trans (load _ o _)).trans (h _ _)).cycles _

theorem storeOperand (s : State) (o : Operand) (value : State → Resolved → Byte) :
    CpuPath s (s.storeOperand o value) := ((resolve s o).trans (store _ o _ _)).cycles _

theorem modifyOperand (s : State) (o : Operand) (f : Bool → Byte → Byte × Bool) {after : State → Byte → State}
    (h : ∀ t v, CpuPath t (after t v)) : CpuPath s (s.modifyOperand o f after) :=
  ((((resolve s o).trans (load _ o _)).trans (registers _ _ _ _ _ _ _)).trans ((store _ o _ _).trans (h _ _))).cycles _

theorem storeUnlessUnstable (s : State) (op : Byte) (o : Operand) (value : State → Resolved → Byte) :
    CpuPath s (s.storeUnlessUnstable op o value) := by
  unfold State.storeUnlessUnstable
  split_ifs
  · exact (resolve s o).cycles _
  · exact storeOperand s o value

theorem branch (s : State) (c : Bool) (d : Byte) : CpuPath s (s.branch c d) := by
  unfold State.branch
  split_ifs
  · exact (setPc s _).cycles _
  · exact (refl s).cycles _

/-- The effect of an instruction, as a path: register writes, reads and stores, cycles. -/
theorem of_exec {i : Instr} {s t : State} (h : exec i s = .next t) : CpuPath s t := by
  have loads : ∀ f : State → Byte → State, (∀ t v, ∃ a x y sp pc fl,
      f t v = { t with a := a, x := x, y := y, sp := sp, pc := pc, flags := fl }) → ∀ t v, CpuPath t (f t v) := by
    intro f hf t v
    obtain ⟨a, x, y, sp, pc, fl, e⟩ := hf t v
    rw [e]
    exact registers t a x y sp pc fl
  have act : ∀ f : State → Byte → State, (∀ t v, f t v =
      { t with a := (f t v).a, x := (f t v).x, y := (f t v).y, sp := (f t v).sp, pc := (f t v).pc,
               flags := (f t v).flags }) → ∀ t v, CpuPath t (f t v) :=
    fun f hf => loads f fun t v => ⟨_, _, _, _, _, _, hf t v⟩
  cases i <;> (injection h with h; subst h)
  case jmp o => exact ((resolve s o).trans (setPc _ _)).cycles _
  case jsr w => exact ((push16 s _).trans (setPc _ _)).cycles _
  case rts => exact ((pull16 s).trans (setPc _ _)).cycles _
  case rti => exact (returnFromHandler s).cycles _
  case brk => exact (enterHandler s _ _ _).cycles _
  case pha => exact (push8 s _).cycles _
  case php => exact (push8 s _).cycles _
  case pla => exact ((pull8 s).trans (registers _ _ _ _ _ _ _)).cycles _
  case plp => exact ((pull8 s).trans (registers _ _ _ _ _ _ _)).cycles _
  case tas w =>
    split_ifs
    · exact (refl s).cycles _
    · exact (registers s s.a s.x s.y (s.a &&& s.x) s.pc s.flags).trans (storeOperand _ _ _)
  case las w =>
    split_ifs
    · exact (refl s).cycles _
    · exact readOperand s _ (act _ fun t v => rfl)
  case nopx op o =>
    refine cycles ?_ _
    split_ifs
    · exact (resolve s o).trans (read _ _)
    · exact resolve s o
  all_goals first
    | exact readOperand s _ (act _ fun t v => rfl)
    | exact storeOperand s _ _
    | exact storeUnlessUnstable s _ _ _
    | exact modifyOperand s _ _ (act _ fun t v => rfl)
    | exact branch s _ _
    | exact cycles (registers s _ _ _ _ _ _) _

/-- A whole instruction: its bytes fetched, its effect. -/
theorem of_executeInstruction {s t : State} (h : s.executeInstruction = .next t) : CpuPath s t := by
  have byte : ∀ s : State, CpuPath s s.fetchByte.2 := fun s => (read s s.pc).trans (setPc _ _)
  have fetch : ∀ s : State, CpuPath s s.fetchInstr.2 := fun s => by
    unfold State.fetchInstr
    dsimp only
    split
    · exact byte s
    · exact (byte s).trans (byte _)
    · exact ((byte s).trans (byte _)).trans (byte _)
  exact (fetch s).trans (of_exec h)

theorem of_serviceIrq (s : State) : CpuPath s s.serviceIrq :=
  ((enterHandler s _ _ _).cycles 7).tail (.pending _ _)

theorem of_nmi (s : State) : CpuPath s s.nmi := (enterHandler s _ _ _).cycles _

end CpuPath

/-- Every instruction answers a next state. -/
theorem exec_next (i : Instr) (s : State) : ∃ t, exec i s = .next t := by
  cases i <;> exact ⟨_, rfl⟩

end Sys2Proof.Machine
end

