-- ==== Sys2Proof/Laws/Events.lean ====
section
/-! SUPPORT. The event fields and the service loop. -/

namespace Sys2Proof.Machine

/-! ### Fields -/

@[simp] theorem Events.get_set (v : Events) (e e' : EventId) (t : Option Nat) :
    (v.set e t).get e' = if e' = e then t else v.get e' := by
  cases e <;> cases e' <;> rfl

theorem EventId.mem_all (e : EventId) : e ∈ EventId.all := by cases e <;> decide

theorem earlier_none_iff {t u : Option Nat} : earlier t u = none ↔ t = none ∧ u = none := by
  cases t <;> cases u <;> simp [earlier]

theorem Events.leastOf_none_iff (v : Events) (l : List EventId) : v.leastOf l = none ↔ ∀ e ∈ l, v.get e = none := by
  induction l with
  | nil => simp [leastOf]
  | cons e l ih => simp [leastOf, earlier_none_iff, ih]

/-- The minimum is a lower bound. -/
theorem Events.leastOf_le (v : Events) {l : List EventId} {e : EventId} {t m : Nat} (he : e ∈ l) (ht : v.get e = some t)
    (hm : v.leastOf l = some m) : m ≤ t := by
  induction l generalizing m with
  | nil => simp at he
  | cons e' l ih =>
    simp only [leastOf] at hm
    rcases List.mem_cons.mp he with rfl | he
    · rw [ht] at hm
      cases h : v.leastOf l with
      | none => rw [h] at hm; simp only [earlier, Option.some.injEq] at hm; omega
      | some k => rw [h] at hm; simp only [earlier, Option.some.injEq] at hm; omega
    · cases h : v.leastOf l with
      | none =>
        have := (v.leastOf_none_iff l).1 h e he
        rw [ht] at this
        cases this
      | some k =>
        have := ih he h
        rw [h] at hm
        cases h' : v.get e' with
        | none => rw [h'] at hm; simp only [earlier, Option.some.injEq] at hm; omega
        | some j => rw [h'] at hm; simp only [earlier, Option.some.injEq] at hm; omega

/-- The minimum is attained. -/
theorem Events.leastOf_mem (v : Events) {l : List EventId} {m : Nat} (hm : v.leastOf l = some m) :
    ∃ e ∈ l, v.get e = some m := by
  induction l generalizing m with
  | nil => simp [leastOf] at hm
  | cons e l ih =>
    simp only [leastOf] at hm
    cases h : v.leastOf l with
    | none =>
      refine ⟨e, by simp, ?_⟩
      rw [h] at hm
      cases h' : v.get e with
      | none => rw [h'] at hm; simp [earlier] at hm
      | some j => rw [h'] at hm; simpa [earlier] using hm
    | some k =>
      obtain ⟨e', he', hk⟩ := ih h
      rw [h] at hm
      cases h' : v.get e with
      | none =>
        rw [h'] at hm
        simp only [earlier, Option.some.injEq] at hm
        exact ⟨e', by simp [he'], hm ▸ hk⟩
      | some j =>
        rw [h'] at hm
        simp only [earlier, Option.some.injEq] at hm
        by_cases hjk : j ≤ k
        · exact ⟨e, by simp, by rw [h', ← hm, Nat.min_eq_left hjk]⟩
        · exact ⟨e', by simp [he'], by rw [hk, ← hm, Nat.min_eq_right (by omega)]⟩

/-- The first event due at a cycle: it is due then, and none before it in the list is. -/
theorem Events.firstAt_some (v : Events) {t : Nat} {l : List EventId} {e : EventId} (h : v.firstAt t l = some e) :
    ∃ before after, l = before ++ e :: after ∧ v.get e = some t ∧ ∀ e' ∈ before, v.get e' ≠ some t := by
  induction l with
  | nil => simp [firstAt] at h
  | cons e' l ih =>
    by_cases h' : v.get e' = some t
    · simp only [firstAt, if_pos h', Option.some.injEq] at h
      subst h
      exact ⟨[], l, rfl, h', by simp⟩
    · simp only [firstAt, if_neg h'] at h
      obtain ⟨b, a, rfl, hg, hb⟩ := ih h
      exact ⟨e' :: b, a, rfl, hg, by simpa [h'] using hb⟩

theorem Events.firstAt_none (v : Events) {t : Nat} {l : List EventId} (h : v.firstAt t l = none) :
    ∀ e ∈ l, v.get e ≠ some t := by
  induction l with
  | nil => simp
  | cons e l ih =>
    by_cases h' : v.get e = some t
    · simp [firstAt, h'] at h
    · simp only [firstAt, if_neg h'] at h
      simpa [h'] using ih h

/-- No earliest event exactly when no event is armed. -/
theorem Events.earliest_none (v : Events) (h : v.earliest = none) : v.least = none := by
  unfold earliest at h
  cases hl : v.least with
  | none => rfl
  | some t =>
    rw [hl] at h
    dsimp only at h
    cases hf : v.firstAt t EventId.all with
    | none =>
      obtain ⟨e, he, hg⟩ := v.leastOf_mem hl
      exact absurd hg (v.firstAt_none hf e he)
    | some e => rw [hf] at h; simp at h

theorem Events.earliest_some (v : Events) {e : EventId} {t : Nat} (h : v.earliest = some (e, t)) :
    v.least = some t ∧ v.firstAt t EventId.all = some e ∧ v.get e = some t := by
  unfold earliest at h
  cases hl : v.least with
  | none => rw [hl] at h; simp at h
  | some m =>
    rw [hl] at h
    dsimp only at h
    cases hf : v.firstAt m EventId.all with
    | none => rw [hf] at h; simp at h
    | some e' =>
      rw [hf] at h
      simp only [Option.some.injEq, Prod.mk.injEq] at h
      obtain ⟨rfl, rfl⟩ := h
      obtain ⟨_, _, _, hg, _⟩ := v.firstAt_some hf
      exact ⟨rfl, hf, hg⟩

/-! ### The service loop -/

/-- One round of the loop: the earliest event is handled at its due cycle, and the loop goes on (R334). -/
theorem State.serviceEvents_succ {k : Nat} {s : State} {e : EventId} {t : Nat} (hd : reached s.nextWake s.cycle = true)
    (he : s.events.earliest = some (e, t)) : s.serviceEvents (k + 1) = (s.handle e t).serviceEvents k := by
  rw [serviceEvents, if_pos hd, he]

/-- The loop ends when no event is due. -/
theorem State.serviceEvents_done {k : Nat} {s : State} (hd : s.WakeAhead) :
    s.serviceEvents k = { s with serviceOpen := false } := by
  have h : s.noteService = { s with serviceOpen := false } := by rw [noteService, hd]
  cases k with
  | zero => exact h
  | succ k => rw [serviceEvents, if_neg (by rw [hd]; simp), h]

/-- What handling a due event keeps, the loop keeps. `P` is assumed to survive `recompute_next` with no event armed, and
not to speak of the model's own note. -/
theorem State.serviceEvents_keeps {P : State → Prop}
    (hh : ∀ (s : State) (e : EventId) (t : Nat), P s → reached s.nextWake s.cycle = true →
      s.events.earliest = some (e, t) → P (s.handle e t))
    (hr : ∀ s : State, P s → s.events.least = none → P s.recomputeNext)
    (hn : ∀ (s : State) (b : Bool), P s → P { s with serviceOpen := b }) {s : State} (k : Nat) (hs : P s) :
    P (s.serviceEvents k) := by
  induction k generalizing s with
  | zero => exact hn s _ hs
  | succ k ih =>
    unfold serviceEvents
    split_ifs with hdue
    · cases he : s.events.earliest with
      | none => exact hn _ _ (hr s hs (s.events.earliest_none he))
      | some p => exact ih (hh s p.1 p.2 hs hdue he)
    · exact hn s _ hs

/-- The loop notes whether an event is still due. -/
theorem State.serviceEvents_open (s : State) (k : Nat) :
    (s.serviceEvents k).serviceOpen = reached (s.serviceEvents k).nextWake (s.serviceEvents k).cycle := by
  induction k generalizing s with
  | zero => rfl
  | succ k ih =>
    unfold serviceEvents
    split_ifs with hdue
    · cases he : s.events.earliest with
      | none => rfl
      | some p => exact ih _
    · rfl

/-! ### The step -/

/-- The four shapes of a step, each followed by the event gate. -/
theorem step_cases {s t : State} (h : step s = .next t) :
    ∃ u, t = u.eventGate ∧
      ((s.serviceOpen = true ∧ u = s) ∨
       (s.serviceOpen = false ∧ s.cycle < s.stallUntil ∧ u = s.stalledAdvance) ∨
       (s.serviceOpen = false ∧ s.stallUntil ≤ s.cycle ∧ 0 < s.irqPending ∧ s.flags.i = false ∧ u = s.serviceIrq) ∨
       (s.serviceOpen = false ∧ s.stallUntil ≤ s.cycle ∧ ¬ (0 < s.irqPending ∧ s.flags.i = false) ∧
         s.executeInstruction = .next u)) := by
  unfold step at h
  split_ifs at h with h0 h1 h2
  · injection h with h
    exact ⟨s, h.symm, .inl ⟨h0, rfl⟩⟩
  · injection h with h
    exact ⟨_, h.symm, .inr (.inl ⟨by simpa using h0, h1, rfl⟩)⟩
  · injection h with h
    exact ⟨_, h.symm, .inr (.inr (.inl ⟨by simpa using h0, not_lt.mp h1, h2.1, h2.2, rfl⟩))⟩
  · obtain ⟨u, hu⟩ := exec_next s.fetchInstr.1 s.fetchInstr.2
    have hu' : s.executeInstruction = .next u := hu
    rw [hu'] at h
    injection h with h
    exact ⟨u, h.symm, .inr (.inr (.inr ⟨by simpa using h0, not_lt.mp h1, h2, hu'⟩))⟩

/-- A property kept by every CPU action, by every event handled and by a change of the cycle counter alone is kept by
every step. -/
theorem step_keeps {P : State → Prop} (ha : ∀ s t, CpuAction s t → P s → P t)
    (hc : ∀ (s : State) (n : Nat), s.cycle ≤ n → P s → P { s with cycle := n })
    (hh : ∀ (s : State) (e : EventId) (t : Nat), P s → reached s.nextWake s.cycle = true →
      s.events.earliest = some (e, t) → P (s.handle e t))
    (hr : ∀ s : State, P s → s.events.least = none → P s.recomputeNext)
    (hn : ∀ (s : State) (b : Bool), P s → P { s with serviceOpen := b })
    {s t : State} (hs : P s) (h : step s = .next t) : P t := by
  obtain ⟨u, rfl, hu⟩ := step_cases h
  refine State.serviceEvents_keeps hh hr hn _ ?_
  rcases hu with ⟨_, rfl⟩ | ⟨_, _, rfl⟩ | ⟨_, _, _, _, rfl⟩ | ⟨_, _, _, hu⟩
  · exact hs
  · exact hc s _ (Nat.le_max_left _ _) hs
  · exact (CpuPath.of_serviceIrq s).keeps ha hs
  · exact (CpuPath.of_executeInstruction hu).keeps ha hs

end Sys2Proof.Machine
end

