-- ==== Sys2Proof/Laws/Memory.lean ====
section
/-! SUPPORT. Reading after writing, and the canonical form under every memory operation. -/

namespace Sys2Proof.Machine

namespace Memory

theorem wfFrom_cons {lo k : Nat} {v : Byte} {m : Memory} :
    wfFrom lo ((k, v) :: m) = true ↔ lo ≤ k ∧ v ≠ blank ∧ wfFrom (k + 1) m = true := by
  simp [wfFrom]

theorem wfFrom_mono {lo hi : Nat} {m : Memory} (h : lo ≤ hi) (hm : wfFrom hi m = true) : wfFrom lo m = true := by
  cases m with
  | nil => rfl
  | cons c m =>
    obtain ⟨k, v⟩ := c
    rw [wfFrom_cons] at hm ⊢
    exact ⟨h.trans hm.1, hm.2⟩

theorem le_key {lo : Nat} {m : Memory} (hm : wfFrom lo m = true) : ∀ c ∈ m, lo ≤ c.1 := by
  induction m generalizing lo with
  | nil => simp
  | cons c m ih =>
    obtain ⟨k, v⟩ := c
    rw [wfFrom_cons] at hm
    intro c hc
    rcases List.mem_cons.mp hc with rfl | hc
    · exact hm.1
    · have := ih hm.2.2 c hc
      omega

/-- No cell is listed below the bound. -/
theorem read_below {lo a : Nat} {m : Memory} (hm : wfFrom lo m = true) (h : a < lo) : m.read a = blank := by
  induction m generalizing lo with
  | nil => rfl
  | cons c m ih =>
    obtain ⟨k, v⟩ := c
    rw [wfFrom_cons] at hm
    have : a ≠ k := by omega
    simp only [read, if_neg this]
    exact ih hm.2.2 (by omega)

theorem read_wfFrom_write {lo a b : Nat} {v : Byte} {m : Memory} (hm : wfFrom lo m = true) :
    (m.write a v).read b = if b = a then v else m.read b := by
  induction m generalizing lo with
  | nil =>
    by_cases hv : v = blank <;> simp [write, hv, read]
  | cons c m ih =>
    obtain ⟨k, w⟩ := c
    rw [wfFrom_cons] at hm
    have hlow := fun h => read_below (a := a) (lo := k + 1) hm.2.2 h
    by_cases h1 : a < k
    · have hk : a ≠ k := by omega
      have := hlow (by omega)
      by_cases hv : v = blank
      · by_cases hb : b = a
        · subst hb; simp [write, h1, hv, read, hk, this]
        · simp [write, h1, hv, hb]
      · simp [write, h1, hv, read]
    · by_cases h2 : a = k
      · subst h2
        have := hlow (by omega)
        by_cases hv : v = blank
        · by_cases hb : b = a
          · subst hb; simp [write, hv, this]
          · simp [write, hv, hb, read]
        · by_cases hb : b = a
          · simp [write, hv, hb, read]
          · simp [write, hv, hb, read]
      · have := ih hm.2.2
        by_cases hb : b = k
        · have : b ≠ a := by omega
          simp [write, h1, h2, read, hb, Ne.symm h2]
        · simp [write, h1, h2, read, hb, this]

/-- A read after a write: the written address gives the byte, every other one what it gave. -/
theorem read_write {m : Memory} (hm : m.wf = true) (a b : Nat) (v : Byte) :
    (m.write a v).read b = if b = a then v else m.read b := read_wfFrom_write hm

theorem wfFrom_write {lo a : Nat} {v : Byte} {m : Memory} (hm : wfFrom lo m = true) (h : lo ≤ a) :
    wfFrom lo (m.write a v) = true := by
  induction m generalizing lo with
  | nil =>
    by_cases hv : v = blank
    · simp [write, hv, wfFrom]
    · simp [write, hv, wfFrom, h]
  | cons c m ih =>
    obtain ⟨k, w⟩ := c
    have hc := wfFrom_cons.mp hm
    by_cases h1 : a < k
    · by_cases hv : v = blank
      · simp [write, h1, hv, hm]
      · simp only [write, if_pos h1, if_neg hv, wfFrom_cons]
        exact ⟨h, hv, by omega, hc.2⟩
    · by_cases h2 : a = k
      · subst h2
        by_cases hv : v = blank
        · simp only [write, lt_irrefl, if_false, if_true, if_pos hv]
          exact wfFrom_mono (by omega) hc.2.2
        · simp only [write, lt_irrefl, if_false, if_true, if_neg hv, wfFrom_cons]
          exact ⟨h, hv, hc.2.2⟩
      · simp only [write, if_neg h1, if_neg h2, wfFrom_cons]
        exact ⟨hc.1, hc.2.1, ih hc.2.2 (by omega)⟩

/-- A write keeps the canonical form. -/
theorem wf_write {m : Memory} (hm : m.wf = true) (a : Nat) (v : Byte) : (m.write a v).wf = true :=
  wfFrom_write hm (Nat.zero_le a)

theorem wfFrom_filter {lo : Nat} {m : Memory} (p : Host.Cell → Bool) (hm : wfFrom lo m = true) :
    wfFrom lo (m.filter p) = true := by
  induction m generalizing lo with
  | nil => rfl
  | cons c m ih =>
    obtain ⟨k, v⟩ := c
    rw [wfFrom_cons] at hm
    by_cases h : p (k, v) = true
    · rw [List.filter_cons_of_pos h, wfFrom_cons]
      exact ⟨hm.1, hm.2.1, ih hm.2.2⟩
    · rw [List.filter_cons_of_neg h]
      exact wfFrom_mono (by omega) (ih hm.2.2)

theorem read_filter (m : Memory) (p : Nat → Bool) (a : Nat) :
    Memory.read (m.filter fun c => p c.1) a = if p a then m.read a else blank := by
  induction m with
  | nil => simp [read]
  | cons c m ih =>
    obtain ⟨k, v⟩ := c
    by_cases h : p k = true
    · rw [List.filter_cons_of_pos (by simpa using h)]
      by_cases ha : a = k
      · simp [read, ha, h]
      · simp [read, ha, ih]
    · rw [List.filter_cons_of_neg (by simpa using h)]
      by_cases ha : a = k
      · subst ha; simp [ih, h]
      · simp [read, ha, ih]

theorem wfFrom_append {lo mid : Nat} {m n : Memory} (hm : wfFrom lo m = true) (hlt : ∀ c ∈ m, c.1 < mid)
    (hn : wfFrom mid n = true) (h : lo ≤ mid) : wfFrom lo (m ++ n) = true := by
  induction m generalizing lo with
  | nil => exact wfFrom_mono h hn
  | cons c m ih =>
    obtain ⟨k, v⟩ := c
    rw [wfFrom_cons] at hm
    have hk := hlt (k, v) (by simp)
    rw [List.cons_append, wfFrom_cons]
    exact ⟨hm.1, hm.2.1, ih hm.2.2 (fun c hc => hlt c (by simp [hc])) (by simpa using hk)⟩

theorem read_append {m n : Memory} {mid a : Nat} (hlt : ∀ c ∈ m, c.1 < mid) (hn : wfFrom mid n = true) :
    (m ++ n).read a = if a < mid then m.read a else n.read a := by
  induction m with
  | nil =>
    by_cases h : a < mid
    · simp [h, read, read_below hn h]
    · simp [h]
  | cons c m ih =>
    obtain ⟨k, v⟩ := c
    have hk : k < mid := hlt (k, v) (by simp)
    have ih := ih fun c hc => hlt c (by simp [hc])
    by_cases h : a = k
    · subst h; simp [read, hk]
    · simp [read, h, ih]

/-- The cells of a range keep the form, and lie in the range. -/
theorem wfFrom_slice {m : Memory} (hm : m.wf = true) (lo n : Nat) : wfFrom lo (m.slice lo n) = true := by
  have h := wfFrom_filter (fun c => inRange lo n c.1) hm
  have hall : ∀ c ∈ m.filter (fun c => inRange lo n c.1), lo ≤ c.1 := by
    intro c hc
    have := (List.mem_filter.mp hc).2
    simp [inRange] at this
    exact this.1
  revert h hall
  unfold slice
  generalize m.filter (fun c => inRange lo n c.1) = q
  intro h hall
  cases q with
  | nil => rfl
  | cons c q =>
    obtain ⟨k, v⟩ := c
    rw [wfFrom_cons] at h ⊢
    exact ⟨hall (k, v) (by simp), h.2⟩

theorem slice_lt (m : Memory) (lo n : Nat) : ∀ c ∈ m.slice lo n, c.1 < lo + n := by
  intro c hc
  have := (List.mem_filter.mp hc).2
  simp [inRange] at this
  exact this.2

theorem read_slice (m : Memory) (lo n a : Nat) :
    (m.slice lo n).read a = if inRange lo n a then m.read a else blank := read_filter m (inRange lo n) a

theorem wfFrom_ofBytes (a : Nat) (l : List Byte) : wfFrom a (ofBytes a l) = true := by
  induction l generalizing a with
  | nil => rfl
  | cons v l ih =>
    by_cases h : v = blank
    · simp only [ofBytes, if_pos h]
      exact wfFrom_mono (by omega) (ih (a + 1))
    · simp only [ofBytes, if_neg h, wfFrom_cons]
      exact ⟨le_refl a, h, ih (a + 1)⟩

theorem ofBytes_lt (a : Nat) (l : List Byte) : ∀ c ∈ ofBytes a l, c.1 < a + l.length := by
  induction l generalizing a with
  | nil => simp [ofBytes]
  | cons v l ih =>
    intro c hc
    have ih := ih (a + 1)
    simp only [List.length_cons]
    by_cases h : v = blank
    · simp only [ofBytes, if_pos h] at hc
      have := ih c hc
      omega
    · simp only [ofBytes, if_neg h, List.mem_cons] at hc
      rcases hc with rfl | hc
      · simp
      · have := ih c hc
        omega

/-- The byte at an offset of a run of bytes. -/
theorem read_ofBytes (a k : Nat) (l : List Byte) : (ofBytes a l).read (a + k) = l.getD k blank := by
  induction l generalizing a k with
  | nil => simp [ofBytes, read]
  | cons v l ih =>
    cases k with
    | zero =>
      by_cases h : v = blank
      · simp [ofBytes, h, read_below (wfFrom_ofBytes (a + 1) l)]
      · simp [ofBytes, h, read]
    | succ k =>
      have := ih (a + 1) k
      rw [show a + 1 + k = a + (k + 1) by omega] at this
      by_cases h : v = blank
      · simp [ofBytes, h, this]
      · simp [ofBytes, h, read, this]

theorem filter_lt (m : Memory) (lo : Nat) : ∀ c ∈ m.filter (fun c => decide (c.1 < lo)), c.1 < lo := by
  intro c hc
  simpa using (List.mem_filter.mp hc).2

theorem wfFrom_filter_ge {m : Memory} (hm : m.wf = true) (hi : Nat) :
    wfFrom hi (m.filter fun c => decide (hi ≤ c.1)) = true := by
  have h := wfFrom_filter (fun c => decide (hi ≤ c.1)) hm
  have hall : ∀ c ∈ m.filter (fun c => decide (hi ≤ c.1)), hi ≤ c.1 := by
    intro c hc
    simpa using (List.mem_filter.mp hc).2
  revert h hall
  generalize m.filter (fun c => decide (hi ≤ c.1)) = q
  intro h hall
  cases q with
  | nil => rfl
  | cons c q =>
    obtain ⟨k, v⟩ := c
    rw [wfFrom_cons] at h ⊢
    exact ⟨hall (k, v) (by simp), h.2⟩

theorem wf_splice {m new : Memory} {lo n : Nat} (hm : m.wf = true) (hnew : wfFrom lo new = true)
    (hlt : ∀ c ∈ new, c.1 < lo + n) : (m.splice lo n new).wf = true := by
  have hlow := filter_lt m lo
  have hhigh := wfFrom_filter_ge hm (lo + n)
  unfold splice wf
  rw [List.append_assoc]
  exact wfFrom_append (wfFrom_filter _ hm) hlow (wfFrom_append hnew hlt hhigh (by omega)) (Nat.zero_le lo)

theorem read_splice {m new : Memory} {lo n : Nat} (hm : m.wf = true) (hnew : wfFrom lo new = true)
    (hlt : ∀ c ∈ new, c.1 < lo + n) (a : Nat) :
    (m.splice lo n new).read a = if inRange lo n a then new.read a else m.read a := by
  have hlow := filter_lt m lo
  have hhigh := wfFrom_filter_ge hm (lo + n)
  unfold splice
  rw [List.append_assoc, read_append hlow (wfFrom_append hnew hlt hhigh (by omega)), read_append hlt hhigh,
    read_filter m (fun k => decide (k < lo)), read_filter m (fun k => decide (lo + n ≤ k))]
  simp only [inRange, Bool.and_eq_true, decide_eq_true_eq]
  by_cases h1 : a < lo
  · have : ¬ lo ≤ a := by omega
    simp [h1, this]
  · by_cases h2 : a < lo + n
    · simp [h1, h2, not_lt.mp h1]
    · simp [h1, h2, not_lt.mp h2]

/-- Two arrays in canonical form that read alike are equal. -/
theorem ext_wfFrom {lo : Nat} {m n : Memory} (hm : wfFrom lo m = true) (hn : wfFrom lo n = true)
    (h : ∀ a, m.read a = n.read a) : m = n := by
  induction m generalizing n lo with
  | nil =>
    cases n with
    | nil => rfl
    | cons c n =>
      obtain ⟨k, v⟩ := c
      have := h k
      simp [read] at this
      exact absurd this.symm (wfFrom_cons.mp hn).2.1
  | cons c m ih =>
    obtain ⟨k, v⟩ := c
    have hc := wfFrom_cons.mp hm
    cases n with
    | nil =>
      have := h k
      simp [read] at this
      exact absurd this hc.2.1
    | cons d n =>
      obtain ⟨j, w⟩ := d
      have hd := wfFrom_cons.mp hn
      have hkj : k = j := by
        by_contra hne
        rcases Nat.lt_or_gt_of_ne hne with hlt | hlt
        · have := h k
          simp only [read, if_true, if_neg hne] at this
          rw [read_below hd.2.2 (by omega)] at this
          exact hc.2.1 this
        · have := h j
          simp only [read, if_true, if_neg (Ne.symm hne)] at this
          rw [read_below hc.2.2 (by omega)] at this
          exact hd.2.1 this.symm
      subst hkj
      have hv : v = w := by have := h k; simpa [read] using this
      subst hv
      have : m = n := ih hc.2.2 hd.2.2 fun a => by
        by_cases ha : a = k
        · subst ha
          rw [read_below hc.2.2 (by omega), read_below hd.2.2 (by omega)]
        · have := h a
          simpa [read, ha] using this
      rw [this]

theorem ext {m n : Memory} (hm : m.wf = true) (hn : n.wf = true) (h : ∀ a, m.read a = n.read a) : m = n :=
  ext_wfFrom hm hn h

end Memory

end Sys2Proof.Machine
end

