-- ==== Sys2Proof/Laws/Engine.lean ====
section
/-! SUPPORT. What each event handler may change, and the canonical form of the arrays under every operation. -/

namespace Sys2Proof.Machine

/-! ### Handlers -/

/-- What a display-list instruction may change: ANTIC's own fields but the raster position and the NMI registers, the DLI
event and the wake cycle. -/
structure State.DisplayListFrame (s u : State) : Prop where
  state    : u = { s with antic := u.antic, events := u.events, nextWake := u.nextWake }
  raster   : u.antic.scanline = s.antic.scanline ∧ u.antic.lineStart = s.antic.lineStart
  nmi      : u.antic.nmien = s.antic.nmien ∧ u.antic.nmist = s.antic.nmist
  events   : u.events = s.events ∨ ∃ t, u.events = s.events.set .dli t
  wake     : u.nextWake = s.nextWake ∨ u.nextWake = u.events.least
  sameWake : u.events = s.events → u.nextWake = s.nextWake ∨ u.nextWake = u.events.least

theorem State.DisplayListFrame.trans {s u w : State} (h : s.DisplayListFrame u)
    (hw : w = { u with antic := w.antic }) (hr : w.antic.scanline = u.antic.scanline ∧ w.antic.lineStart = u.antic.lineStart)
    (hn : w.antic.nmien = u.antic.nmien ∧ w.antic.nmist = u.antic.nmist) : s.DisplayListFrame w := by
  have he : w.events = u.events := by rw [hw]
  have hx : w.nextWake = u.nextWake := by rw [hw]
  refine ⟨?_, ⟨hr.1.trans h.raster.1, hr.2.trans h.raster.2⟩, ⟨hn.1.trans h.nmi.1, hn.2.trans h.nmi.2⟩, ?_, ?_, ?_⟩
  · rw [he, hx]
    conv_lhs => rw [hw, h.state]
  · rw [he]; exact h.events
  · rw [he, hx]; exact h.wake
  · rw [he, hx]; exact h.sameWake

theorem State.dlExecute_frame (s : State) (c : Byte) :
    (s.dlExecute c).2 = { s with antic := (s.dlExecute c).2.antic } ∧
      (s.dlExecute c).2.antic.scanline = s.antic.scanline ∧ (s.dlExecute c).2.antic.lineStart = s.antic.lineStart ∧
      (s.dlExecute c).2.antic.nmien = s.antic.nmien ∧ (s.dlExecute c).2.antic.nmist = s.antic.nmist := by
  unfold dlExecute
  dsimp only
  split_ifs
  · exact ⟨rfl, rfl, rfl, rfl, rfl⟩
  · unfold dlJump
    dsimp only
    split_ifs <;> exact ⟨rfl, rfl, rfl, rfl, rfl⟩
  · unfold dlDisplay
    dsimp only
    split_ifs <;> exact ⟨rfl, rfl, rfl, rfl, rfl⟩

/-- A display-list instruction. -/
theorem State.fetchDlInstruction_frame (s : State) (t : Nat) : s.DisplayListFrame (s.fetchDlInstruction t) := by
  obtain ⟨h1, h2, h3, h4, h5⟩ := s.dlByte.2.dlExecute_frame s.dlByte.1
  unfold fetchDlInstruction
  dsimp only
  split_ifs
  · refine ⟨?_, ⟨h2, h3⟩, ⟨h4, h5⟩, .inr ⟨some (t + ((s.dlByte.2.dlExecute s.dlByte.1).1.getD 1 - 1) * cyclesPerLine +
      (s.dlByte.2.dlExecute s.dlByte.1).2.params.dliOffset), ?_⟩, .inr rfl, fun _ => .inr rfl⟩
    · rw [h1]
      rfl
    · rw [h1]
      rfl
  · refine ⟨?_, ⟨h2, h3⟩, ⟨h4, h5⟩, .inl ?_, .inl ?_, fun _ => .inl ?_⟩ <;> rw [h1] <;> rfl

/-- The fields a draw event may change. -/
def State.withDrawEffects (s t : State) : State :=
  { s with antic := t.antic, gtia := t.gtia, events := t.events, nextWake := t.nextWake, ram := t.ram,
           frame := t.frame, prio := t.prio }

theorem State.withDrawEffects_trans {s t u : State} (h : t = s.withDrawEffects t) (k : u = t.withDrawEffects u) :
    u = s.withDrawEffects u := by
  rw [k, h]
  rfl

theorem State.renderPlayfield_eq (s : State) : s.renderPlayfield = s.withDrawEffects s.renderPlayfield := by
  unfold renderPlayfield advanceMemscan
  dsimp only
  split_ifs <;> rfl

theorem State.compositeSprites_eq (s : State) : s.compositeSprites = s.withDrawEffects s.compositeSprites := by
  unfold compositeSprites
  generalize s.collisionRam = m
  generalize s.frame.setRow _ _ = f
  split_ifs <;> rfl

theorem State.playerDma_eq (s : State) : s.playerDma = s.withDrawEffects s.playerDma := by
  unfold playerDma
  split_ifs <;> rfl

theorem State.missileDma_eq (s : State) : s.missileDma = s.withDrawEffects s.missileDma := by
  unfold missileDma
  split_ifs <;> rfl

/-! ### Canonical arrays -/

theorem Memory.wf_setRow {m : Memory} (hm : m.wf = true) (line : Nat) (row : List Byte) : (m.setRow line row).wf = true := by
  refine wf_splice hm (wfFrom_ofBytes _ _) fun c hc => ?_
  have := ofBytes_lt _ _ c hc
  have := List.length_take_le frameColumns row
  omega

theorem State.installRegion_canonical {s : State} (h : s.Canonical) (r : Region) : (s.installRegion r).Canonical := by
  obtain ⟨h1, h2, h3, h4⟩ := h
  unfold installRegion
  split_ifs
  · exact ⟨h1, h2, h3, h4⟩
  · refine ⟨Memory.wf_splice h1 (Memory.wfFrom_ofBytes _ _) fun c hc => ?_,
      Memory.wf_splice h2 (Memory.wfFrom_slice h1 _ _) (Memory.slice_lt _ _ _), h3, h4⟩
    have := Memory.ofBytes_lt _ _ c hc
    have := List.length_take_le r.size (((s.imageOf r).getD []).drop r.offset)
    unfold Region.bytes at *
    omega
  · exact ⟨Memory.wf_splice h1 (Memory.wfFrom_slice h2 _ _) (Memory.slice_lt _ _ _), h2, h3, h4⟩

theorem State.install_canonical {s : State} (h : s.Canonical) : s.install.Canonical :=
  installRegion_canonical (installRegion_canonical (installRegion_canonical (installRegion_canonical h _) _) _) _

theorem State.devWrite_canonical {s : State} (h : s.Canonical) (a : Nat) (v : Byte) : (s.devWrite a v).Canonical := by
  unfold devWrite
  cases chipOf a <;> dsimp only
  · unfold gtiaWrite
    split_ifs <;> first | exact h | exact ⟨Memory.wf_splice h.1 rfl (by simp), h.2⟩
  · unfold pokeyWrite
    split_ifs
    · exact h
    · rw [s.seroutWrite_eq v]
      exact h
    · exact h
    · exact h
  · unfold piaWrite
    split_ifs <;> first | exact h | exact install_canonical h
  · unfold anticWrite
    split_ifs <;> exact h
  · exact h

/-- A store keeps every array in canonical form. -/
theorem State.memWrite_canonical {s : State} (h : s.Canonical) (a : Word) (v : Byte) : (s.memWrite a v).Canonical := by
  have hb : (s.beforeDevWrite a.toNat).Canonical := by
    unfold beforeDevWrite
    cases chipOf a.toNat <;> dsimp only
    · exact h
    · split_ifs <;> exact h
    · exact h
    · exact h
    · exact h
  unfold memWrite
  cases s.banks.dispatch a.toNat <;> dsimp only
  · exact ⟨Memory.wf_write h.1 _ _, h.2⟩
  · exact ⟨h.1, Memory.wf_write h.2.1 _ _, h.2.2⟩
  · refine devWrite_canonical ?_ _ _
    exact ⟨hb.1, Memory.wf_write (m := (s.beforeDevWrite a.toNat).sram) hb.2.1 a.toNat v, hb.2.2⟩

theorem CpuAction.canonical {s t : State} (k : CpuAction s t) (h : s.Canonical) : t.Canonical := by
  cases k with
  | read a =>
    rw [s.memRead_eq_withReadEffects a]
    exact h
  | write a v => exact State.memWrite_canonical h a v
  | _ => exact h

theorem State.nmi_canonical {s : State} (h : s.Canonical) : s.nmi.Canonical :=
  (CpuPath.of_nmi s).keeps (fun _ _ => CpuAction.canonical) h

/-- Or-ing bits into some of sixteen bytes keeps the form and the other bytes. -/
theorem Memory.foldl_collect (f : Memory → Nat → Byte) (base : Nat) :
    ∀ (l : List Nat) (m : Memory), m.wf = true → (∀ j ∈ l, j < 16) →
      (l.foldl (fun m j => m.write (base + j) (f m j)) m).wf = true ∧
        ∀ a, ¬ (base ≤ a ∧ a < base + 16) → (l.foldl (fun m j => m.write (base + j) (f m j)) m).read a = m.read a := by
  intro l
  induction l with
  | nil => exact fun m hm _ => ⟨hm, fun _ _ => rfl⟩
  | cons j l ih =>
    intro m hm hl
    obtain ⟨h1, h2⟩ := ih _ (wf_write hm (base + j) (f m j)) fun j hj => hl j (by simp [hj])
    refine ⟨h1, fun a ha => (h2 a ha).trans (read_write_ne _ _ ?_)⟩
    have := hl j (by simp)
    omega

theorem State.collisionRam_spec {s : State} (h : s.ram.wf = true) :
    s.collisionRam.wf = true ∧
      ∀ a, ¬ (0xD000 ≤ a ∧ a < 0xD010) → s.collisionRam.read a = s.ram.read a := by
  unfold collisionRam
  have hl : ∀ j ∈ List.range 16, j < 16 := fun _ hj => List.mem_range.mp hj
  generalize List.range 16 = l at hl
  obtain ⟨h1, h2⟩ := Memory.foldl_collect (fun m j => m.read (0xD000 + j) ||| s.collisionBits j) 0xD000 l s.ram h hl
  exact ⟨h1, fun a ha => h2 a (by omega)⟩

theorem State.renderPlayfield_arrays {s : State} (h : s.Canonical) :
    s.renderPlayfield.Canonical ∧ s.renderPlayfield.ram = s.ram := by
  have adv : ∀ t : State, t.advanceMemscan = { t with antic := t.advanceMemscan.antic } := by
    intro t
    unfold advanceMemscan
    split_ifs <;> rfl
  unfold renderPlayfield
  rw [adv]
  exact ⟨⟨h.1, h.2.1, Memory.wf_setRow h.2.2.1 _ _, Memory.wf_setRow h.2.2.2 _ _⟩, rfl⟩

theorem State.compositeSprites_arrays {s : State} (h : s.Canonical) :
    s.compositeSprites.Canonical ∧
      ∀ a, ¬ (0xD000 ≤ a ∧ a < 0xD010) → s.compositeSprites.ram.read a = s.ram.read a := by
  unfold compositeSprites
  split_ifs
  · obtain ⟨h1, h2⟩ := collisionRam_spec h.1
    have h3 := Memory.wf_setRow h.2.2.1 s.antic.scanline ((List.range frameColumns).map s.spritePixel)
    generalize s.collisionRam = m at *
    generalize s.frame.setRow _ _ = f at *
    exact ⟨⟨h1, h.2.1, h3, h.2.2.2⟩, h2⟩
  · exact ⟨h, fun _ _ => rfl⟩

/-- A draw keeps the arrays canonical and touches no visible byte but the collision registers. -/
theorem State.handleDraw_arrays {s : State} (h : s.Canonical) :
    s.handleDraw.Canonical ∧ ∀ a, ¬ (0xD000 ≤ a ∧ a < 0xD010) → s.handleDraw.ram.read a = s.ram.read a := by
  have dma : ∀ s : State, s.Canonical → s.playerDma.missileDma.Canonical ∧ s.playerDma.missileDma.ram = s.ram := by
    intro s h
    have p : s.playerDma.Canonical ∧ s.playerDma.ram = s.ram := by
      unfold playerDma
      split_ifs <;> exact ⟨h, rfl⟩
    have m : ∀ t : State, t.missileDma = { t with gtia := t.missileDma.gtia } := by
      intro t
      unfold missileDma
      split_ifs <;> rfl
    rw [m]
    exact p
  have start : ∃ t : State, t = (if s.antic.scanline = 0 then { s with prio := [] } else s) ∧ t.Canonical ∧
      t.ram = s.ram := by
    refine ⟨_, rfl, ?_⟩
    split_ifs
    · exact ⟨⟨h.1, h.2.1, h.2.2.1, rfl⟩, rfl⟩
    · exact ⟨h, rfl⟩
  obtain ⟨t, ht, start1, start2⟩ := start
  obtain ⟨r1, r2⟩ := renderPlayfield_arrays start1
  obtain ⟨d1, d2⟩ := dma _ r1
  obtain ⟨c1, c2⟩ := compositeSprites_arrays d1
  unfold handleDraw
  dsimp only
  rw [← ht]
  refine ⟨c1, fun a ha => (c2 a ha).trans ?_⟩
  rw [d2, r2, start2]

theorem State.handleDraw_eq (s : State) : s.handleDraw = s.withDrawEffects s.handleDraw := by
  unfold handleDraw
  dsimp only
  refine withDrawEffects_trans (t := (if s.antic.scanline = 0 then { s with prio := [] } else s)) ?_ ?_
  · split_ifs <;> rfl
  · exact withDrawEffects_trans (withDrawEffects_trans (withDrawEffects_trans (withDrawEffects_trans
      (State.renderPlayfield_eq _) (State.playerDma_eq _)) (State.missileDma_eq _)) (State.compositeSprites_eq _)) rfl

theorem State.handleFetch_canonical {s : State} (h : s.Canonical) (t : Nat) : (s.handleFetch t).Canonical := by
  have vbi : ∀ s : State, s.Canonical → s.raiseVbi.Canonical := by
    intro s h
    unfold raiseVbi
    dsimp only
    split_ifs
    · exact nmi_canonical h
    · exact h
  have dl : ∀ s : State, s.Canonical → (s.fetchDlInstruction t).Canonical := by
    intro s h
    rw [(s.fetchDlInstruction_frame t).state]
    exact h
  have hn : (s.nextScanline t).Canonical := h
  unfold handleFetch
  dsimp only
  split_ifs
  · exact dl _ (vbi _ hn)
  · exact vbi _ hn
  · exact dl _ hn
  · exact hn

/-- Every event handler keeps every array in canonical form. -/
theorem State.handle_canonical {s : State} (h : s.Canonical) (e : EventId) (t : Nat) : (s.handle e t).Canonical := by
  have fire : ∀ (s : State) (b : Byte), s.Canonical → (s.fireIrq b).Canonical := by
    intro s b h
    unfold fireIrq
    dsimp only
    split_ifs <;> exact h
  cases e
  · exact handleFetch_canonical h t
  · exact (handleDraw_arrays h).1
  · unfold handle handleDli
    dsimp only
    split_ifs
    · exact nmi_canonical (s := { s with antic := { s.antic with nmist := _ } }) h
    · exact h
  all_goals exact fire s _ h

/-- Every step keeps every array in canonical form. -/
theorem step_canonical {s t : State} (h : s.Canonical) (k : step s = .next t) : t.Canonical :=
  step_keeps (P := State.Canonical) (fun _ _ => CpuAction.canonical) (fun _ _ _ h => h)
    (fun _ e t h _ _ => State.handle_canonical h e t) (fun _ h _ => h) (fun _ _ h => h) h k

/-- The arrays right after reset. -/
theorem reset_canonical : State.reset.Canonical := by decide

end Sys2Proof.Machine
end

