-- ==== Sys2Proof/Laws/Raster.lean ====
section
/-! SUPPORT. The wake cycle and the raster: what every action and every event handler does to the event fields. -/

namespace Sys2Proof.Machine

/-! ### Changes of the event fields that leave the next boundary alone -/

/-- From `s` to `t` only events other than the fetch were armed or disarmed, and the wake cycle followed. -/
def State.EventsFollow (s t : State) : Prop :=
  t.events.fetch = s.events.fetch ∧
    ((t.events = s.events ∧ t.nextWake = s.nextWake) ∨ t.nextWake = t.events.least)

namespace State.EventsFollow

theorem refl (s : State) : s.EventsFollow s := ⟨rfl, .inl ⟨rfl, rfl⟩⟩

theorem same {s t : State} (h : t.events = s.events) (k : t.nextWake = s.nextWake) : s.EventsFollow t :=
  ⟨by rw [h], .inl ⟨h, k⟩⟩

theorem trans {s t u : State} (h : s.EventsFollow t) (k : t.EventsFollow u) : s.EventsFollow u := by
  refine ⟨k.1.trans h.1, ?_⟩
  rcases k.2 with ⟨k1, k2⟩ | k
  · rcases h.2 with ⟨h1, h2⟩ | h
    · exact .inl ⟨k1.trans h1, k2.trans h2⟩
    · exact .inr (by rw [k2, k1]; exact h)
  · exact .inr k

theorem arm (s : State) {e : EventId} (he : e ≠ .fetch) (t : Option Nat) : s.EventsFollow (s.arm e t) := by
  refine ⟨?_, .inr rfl⟩
  cases e <;> first | rfl | exact absurd rfl he

theorem wakeIsLeast {s t : State} (h : s.EventsFollow t) (hw : s.WakeIsLeast) : t.WakeIsLeast := by
  rcases h.2 with ⟨h1, h2⟩ | h
  · unfold State.WakeIsLeast
    rw [h2, h1]
    exact hw
  · exact h

theorem sioCommand (s : State) (image : List Byte) (c : Byte) (n : Nat) : s.EventsFollow (s.sioCommand image c n) := by
  unfold State.sioCommand
  dsimp only
  split_ifs <;> exact ⟨rfl, .inr rfl⟩

theorem sioByte (s : State) (v : Byte) : s.EventsFollow (s.sioByte v) := by
  unfold State.sioByte
  dsimp only
  cases s.sio.phase <;> dsimp only <;> split_ifs
  · exact refl _
  · unfold State.sioCommandFrame
    split_ifs
    · exact ⟨rfl, .inr rfl⟩
    · exact ⟨rfl, .inr rfl⟩
    · cases s.disk
      · exact ⟨rfl, .inr rfl⟩
      · exact sioCommand _ _ _ _
  · exact refl _
  · unfold State.sioDataFrame
    dsimp only
    split_ifs
    · exact ⟨rfl, .inr rfl⟩
    · split
      · exact ⟨rfl, .inr rfl⟩
      · split_ifs <;> exact ⟨rfl, .inr rfl⟩
    · split <;> exact ⟨rfl, .inr rfl⟩

theorem seroutWrite (s : State) (v : Byte) : s.EventsFollow (s.seroutWrite v) :=
  ((sioByte s v).trans (arm _ (by decide) _)).trans (arm _ (by decide) _)

/-- A read arms at most the next serial byte. -/
theorem memRead (s : State) (a : Word) : s.EventsFollow (s.memRead a).2 := by
  unfold State.memRead
  cases s.banks.dispatch a.toNat
  · exact refl _
  · exact refl _
  · unfold State.devRead
    cases chipOf a.toNat <;> dsimp only
    · exact refl _
    · unfold State.pokeyRead
      split_ifs
      · exact refl _
      · exact refl _
      · exact refl _
      · exact same rfl rfl
      · unfold State.serinRead
        dsimp only
        split_ifs
        · exact refl _
        · exact same rfl rfl
        · exact ⟨rfl, .inr rfl⟩
      · exact refl _
      · exact refl _
      · exact refl _
    · exact refl _
    · exact refl _
    · exact refl _

end State.EventsFollow

/-! ### A store keeps the raster position -/

theorem State.installRegion_engine (s : State) (r : Region) :
    s.installRegion r = { s with ram := (s.installRegion r).ram, sram := (s.installRegion r).sram,
                                 banks := (s.installRegion r).banks } := by
  unfold installRegion
  split_ifs <;> rfl

/-- Installing the map changes the arrays and the dispatch table alone. -/
theorem State.install_engine (s : State) :
    s.install = { s with ram := s.install.ram, sram := s.install.sram, banks := s.install.banks } := by
  unfold install
  generalize h1 : s.installRegion .selfTest = t1
  generalize h2 : t1.installRegion .basic = t2
  generalize h3 : t2.installRegion .osLow = t3
  have e1 := s.installRegion_engine .selfTest
  have e2 := t1.installRegion_engine .basic
  have e3 := t2.installRegion_engine .osLow
  rw [h1] at e1
  rw [h2] at e2
  rw [h3] at e3
  rw [t3.installRegion_engine .osHigh, e3, e2, e1]

theorem State.devWrite_events (s : State) (n : Nat) (v : Byte) :
    s.EventsFollow (s.devWrite n v) ∧ (s.devWrite n v).antic.scanline = s.antic.scanline ∧
      (s.devWrite n v).antic.lineStart = s.antic.lineStart := by
  unfold devWrite
  cases chipOf n <;> dsimp only
  · unfold gtiaWrite
    split_ifs <;> exact ⟨.same rfl rfl, rfl, rfl⟩
  · unfold pokeyWrite
    split_ifs
    · exact ⟨((EventsFollow.arm s (by decide) _).trans (.arm _ (by decide) _)).trans (.arm _ (by decide) _), rfl, rfl⟩
    · refine ⟨.seroutWrite s v, ?_, ?_⟩ <;> rw [s.seroutWrite_eq v] <;> rfl
    · exact ⟨.same rfl rfl, rfl, rfl⟩
    · exact ⟨.refl s, rfl, rfl⟩
  · unfold piaWrite
    split_ifs
    all_goals first
      | exact ⟨.same rfl rfl, rfl, rfl⟩
      | (unfold portbWrite
         rw [State.install_engine]
         exact ⟨.same rfl rfl, rfl, rfl⟩)
  · unfold anticWrite
    split_ifs <;> exact ⟨.same rfl rfl, rfl, rfl⟩
  · exact ⟨.refl s, rfl, rfl⟩

/-- A store arms no fetch and leaves the raster position alone. -/
theorem State.memWrite_events (s : State) (a : Word) (v : Byte) :
    s.EventsFollow (s.memWrite a v) ∧ (s.memWrite a v).antic.scanline = s.antic.scanline ∧
      (s.memWrite a v).antic.lineStart = s.antic.lineStart := by
  have hb : ∃ t, t = s.beforeDevWrite a.toNat ∧ t.events = s.events ∧ t.nextWake = s.nextWake ∧ t.antic = s.antic := by
    refine ⟨_, rfl, ?_⟩
    unfold beforeDevWrite
    cases chipOf a.toNat <;> dsimp only
    · exact ⟨rfl, rfl, rfl⟩
    · split_ifs <;> exact ⟨rfl, rfl, rfl⟩
    · exact ⟨rfl, rfl, rfl⟩
    · exact ⟨rfl, rfl, rfl⟩
    · exact ⟨rfl, rfl, rfl⟩
  unfold memWrite
  cases s.banks.dispatch a.toNat <;> dsimp only
  · exact ⟨.same rfl rfl, rfl, rfl⟩
  · exact ⟨.same rfl rfl, rfl, rfl⟩
  · obtain ⟨t, ht, h1, h2, h3⟩ := hb
    rw [← ht]
    obtain ⟨d1, d2, d3⟩ := (t.setShadow a.toNat v).devWrite_events a.toNat v
    refine ⟨(State.EventsFollow.same h1 h2).trans ((State.EventsFollow.same rfl rfl).trans d1), d2.trans ?_, d3.trans ?_⟩
    · show t.antic.scanline = _
      rw [h3]
    · show t.antic.lineStart = _
      rw [h3]

/-! ### The raster -/

/-- The wake cycle is the least due cycle, and the raster is consistent. -/
def State.Timed (s : State) : Prop := s.WakeIsLeast ∧ s.OnRaster

theorem State.Timed.follow {s t : State} (h : s.Timed) (k : s.EventsFollow t) (h1 : t.antic.scanline = s.antic.scanline)
    (h2 : t.antic.lineStart = s.antic.lineStart) (hc : s.cycle ≤ t.cycle) : t.Timed := by
  obtain ⟨hw, r1, r2, r3, r4⟩ := h
  refine ⟨k.wakeIsLeast hw, ?_⟩
  unfold OnRaster
  rw [k.1, h1, h2]
  exact ⟨r1, by omega, r3, r4⟩

/-- Every CPU action keeps it. -/
theorem CpuAction.timed {s t : State} (k : CpuAction s t) (h : s.Timed) : t.Timed := by
  cases k with
  | read a =>
    have e := State.EventsFollow.memRead s a
    rw [s.memRead_eq_withReadEffects a] at e ⊢
    exact h.follow e rfl rfl (le_refl _)
  | write a v =>
    obtain ⟨e, e1, e2⟩ := s.memWrite_events a v
    refine h.follow e e1 e2 ?_
    rw [s.memWrite_eq_withWriteEffects]
    exact le_refl _
  | cycles n => exact h.follow (.same rfl rfl) rfl rfl (Nat.le_add_right _ _)
  | _ => exact h.follow (.same rfl rfl) rfl rfl (le_refl _)

theorem State.Timed.nmi {s : State} (h : s.Timed) : s.nmi.Timed :=
  (CpuPath.of_nmi s).keeps (fun _ _ => CpuAction.timed) h

/-- The clock, the events and the raster position stay. -/
def State.SameTime (s u : State) : Prop :=
  u.events = s.events ∧ u.nextWake = s.nextWake ∧ u.cycle = s.cycle ∧ u.antic.scanline = s.antic.scanline ∧
    u.antic.lineStart = s.antic.lineStart

theorem State.SameTime.trans {a b c : State} (h : a.SameTime b) (k : b.SameTime c) : a.SameTime c :=
  ⟨k.1.trans h.1, k.2.1.trans h.2.1, k.2.2.1.trans h.2.2.1, k.2.2.2.1.trans h.2.2.2.1, k.2.2.2.2.trans h.2.2.2.2⟩

theorem State.Timed.same {s u : State} (h : s.Timed) (k : s.SameTime u) : u.Timed :=
  h.follow (.same k.1 k.2.1) k.2.2.2.1 k.2.2.2.2 (le_of_eq k.2.2.1.symm)

theorem State.renderPlayfield_time (s : State) : s.SameTime s.renderPlayfield := by
  unfold renderPlayfield advanceMemscan
  dsimp only
  split_ifs <;> exact ⟨rfl, rfl, rfl, rfl, rfl⟩

theorem State.compositeSprites_time (s : State) : s.SameTime s.compositeSprites := by
  unfold compositeSprites
  generalize s.collisionRam = m
  generalize s.frame.setRow _ _ = f
  split_ifs
  all_goals exact ⟨rfl, rfl, rfl, rfl, rfl⟩

theorem State.playerDma_time (s : State) : s.SameTime s.playerDma := by
  unfold playerDma
  split_ifs <;> exact ⟨rfl, rfl, rfl, rfl, rfl⟩

theorem State.missileDma_time (s : State) : s.SameTime s.missileDma := by
  unfold missileDma
  split_ifs <;> exact ⟨rfl, rfl, rfl, rfl, rfl⟩

/-- A draw event leaves the clock and the raster position alone, and every event but its own. -/
theorem State.handleDraw_shape (s : State) :
    ∃ u : State, s.SameTime u ∧
      s.handleDraw = { u with antic := { u.antic with phase := u.phaseAfterDraw } }.arm .draw none := by
  have start : s.SameTime (if s.antic.scanline = 0 then { s with prio := [] } else s) := by
    split_ifs <;> exact ⟨rfl, rfl, rfl, rfl, rfl⟩
  unfold handleDraw
  dsimp only
  generalize (if s.antic.scanline = 0 then { s with prio := [] } else s) = t at start ⊢
  exact ⟨_, start.trans (t.renderPlayfield_time.trans ((State.playerDma_time _).trans ((State.missileDma_time _).trans
    (State.compositeSprites_time _)))), rfl⟩

theorem State.handleDraw_time (s : State) :
    s.handleDraw.cycle = s.cycle ∧ s.handleDraw.events = { s.events with draw := none } := by
  obtain ⟨u, h, hu⟩ := s.handleDraw_shape
  rw [hu]
  refine ⟨h.2.2.1, ?_⟩
  show { u.events with draw := none } = _
  rw [h.1]

theorem State.Timed.handleDraw {s : State} (h : s.Timed) : s.handleDraw.Timed := by
  obtain ⟨u, k, hu⟩ := s.handleDraw_shape
  rw [hu]
  have hv : State.Timed { u with antic := { u.antic with phase := u.phaseAfterDraw } } :=
    (h.same k).same ⟨rfl, rfl, rfl, rfl, rfl⟩
  exact hv.follow (.arm _ (e := .draw) (by decide) none) rfl rfl (le_refl _)

/-- Every event handler keeps it; the scanline advance is handled at the cycle it was due. -/
theorem State.Timed.handle {s : State} (h : s.Timed) {e : EventId} {t : Nat} (hd : reached s.nextWake s.cycle = true)
    (he : s.events.earliest = some (e, t)) : (s.handle e t).Timed := by
  obtain ⟨h1, _, h3⟩ := s.events.earliest_some he
  have ht : t ≤ s.cycle := by
    rw [h.1, h1] at hd
    simpa [reached] using hd
  have fire : ∀ (s : State) (b : Byte) (e : EventId) (u : Option Nat), s.Timed → e ≠ .fetch →
      ((s.fireIrq b).arm e u).Timed := by
    intro s b e u h hne
    refine h.follow (.trans (.same ?_ ?_) (.arm _ hne u)) ?_ ?_ ?_ <;> unfold fireIrq <;> dsimp only <;> split_ifs <;> rfl
  cases e
  · -- the scanline advance
    have r1 := h.2.1
    have hls : t = s.antic.lineStart + cyclesPerLine := by
      have : s.events.fetch = some t := h3
      rw [r1] at this
      injection this with this
      exact this.symm
    have r3 := h.2.2.2.1
    have r4 := h.2.2.2.2
    -- what is known after the position moved: everything but the next boundary
    let Moved : State → Prop := fun u =>
      u.antic.lineStart = t ∧ t ≤ u.cycle ∧ u.antic.scanline = (s.antic.scanline + 1) % linesPerFrame
    have done : ∀ (u : State) (n a b), Moved u → a = some (t + cyclesPerLine) →
        (((u.raiseStall n).arm .fetch a).arm .draw b).Timed := by
      rintro u n a b ⟨m1, m2, m3⟩ rfl
      refine ⟨rfl, ?_⟩
      show some (t + cyclesPerLine) = some (u.antic.lineStart + cyclesPerLine) ∧ u.antic.lineStart ≤ u.cycle ∧
        u.antic.lineStart % cyclesPerLine = 0 ∧ u.antic.scanline = u.antic.lineStart / cyclesPerLine % linesPerFrame
      rw [m1, m3, r4, hls]
      simp only [cyclesPerLine, linesPerFrame] at *
      refine ⟨trivial, by omega, by omega, by omega⟩
    have hn : Moved (s.nextScanline t) := by
      unfold nextScanline
      dsimp only
      split_ifs <;> exact ⟨rfl, ht, rfl⟩
    have path : ∀ u w : State, CpuPath u w → Moved u → Moved w := fun u w k m =>
      k.keeps (P := Moved) (fun u w k m => by
        obtain ⟨m1, m2, m3⟩ := m
        cases k with
        | read a => rw [u.memRead_eq_withReadEffects a]; exact ⟨m1, m2, m3⟩
        | write a v =>
          obtain ⟨_, e1, e2⟩ := u.memWrite_events a v
          refine ⟨e2.trans m1, ?_, e1.trans m3⟩
          rw [u.memWrite_eq_withWriteEffects]
          exact m2
        | cycles n => exact ⟨m1, Nat.le_add_right_of_le m2, m3⟩
        | _ => exact ⟨m1, m2, m3⟩) m
    have vbi : ∀ u : State, Moved u → Moved u.raiseVbi := by
      intro u m
      unfold raiseVbi
      dsimp only
      split_ifs
      · exact path _ _ (.of_nmi _) m
      · exact m
    have dl : ∀ u : State, Moved u → Moved (u.fetchDlInstruction t) := by
      intro u m
      have f := u.fetchDlInstruction_frame t
      refine ⟨f.raster.2.trans m.1, ?_, f.raster.1.trans m.2.2⟩
      rw [f.state]
      exact m.2.1
    show (s.handleFetch t).Timed
    unfold handleFetch
    dsimp only
    split_ifs
    · exact done _ _ _ _ (dl _ (vbi _ hn)) rfl
    · exact done _ _ _ _ (vbi _ hn) rfl
    · exact done _ _ _ _ (dl _ hn) rfl
    · exact done _ _ _ _ hn rfl
  · exact h.handleDraw
  · show s.handleDli.Timed
    unfold handleDli
    dsimp only
    split_ifs
    · have k : State.Timed _ := h.follow
        (t := { s with antic := { s.antic with nmist := (s.antic.nmist &&& ~~~0x40) ||| 0x80 } })
        (.same rfl rfl) rfl rfl (le_refl _)
      exact k.nmi.follow (.arm _ (e := .dli) (by decide) none) rfl rfl (le_refl _)
    · exact h.follow
        (t := State.arm { s with antic := { s.antic with nmist := (s.antic.nmist &&& ~~~0x40) ||| 0x80 } } .dli none)
        ((State.EventsFollow.same rfl rfl).trans (.arm _ (e := .dli) (by decide) none)) rfl rfl (le_refl _)
  all_goals exact fire s _ _ _ h (by decide)

end Sys2Proof.Machine
end

