-- ==== Sys2Proof/Laws/Backlog.lean ====
section
/-! SUPPORT. Why event service settles: a bound on the events that can still come due, which every handler lowers. -/

namespace Sys2Proof.Machine

/-- How late an event is at a cycle; 0 when it is not due. -/
def late (now : Nat) (due : Option Nat) : Nat :=
  match due with
  | none => 0
  | some t => now - t

/-- 1 for an armed event. -/
def armedCount (due : Option Nat) : Nat :=
  match due with
  | none => 0
  | some _ => 1

@[simp] theorem armedCount_none : armedCount none = 0 := rfl
@[simp] theorem armedCount_some (t : Nat) : armedCount (some t) = 1 := rfl

/-- A bound on the events still to be handled: each scanline that is late counts three times its cycles, which pays for
the two NMIs it may deliver; each timer pays for itself, since a timer that is armed again has a period of at least 1. -/
def State.backlog (s : State) : Nat :=
  3 * late (s.cycle + 114) s.events.fetch + late (s.cycle + 1) s.events.timer1 + late (s.cycle + 1) s.events.timer2 +
    late (s.cycle + 1) s.events.timer4 + 169 * armedCount s.events.dli + armedCount s.events.draw +
    armedCount s.events.serOutNeeded + armedCount s.events.serOutDone + armedCount s.events.serInReady

theorem late_add (c n : Nat) (d : Option Nat) : late (c + n) d ≤ late c d + n := by
  cases d <;> simp only [late] <;> omega

theorem armedCount_le (d : Option Nat) : armedCount d ≤ 1 := by cases d <;> simp

/-- A timer that is armed again is due later (R396). -/
theorem State.late_timerDue (s : State) (n : Nat) {t c : Nat} (ht : t ≤ c) :
    late (c + 1) (s.timerDue n t) < late (c + 1) (some t) := by
  unfold timerDue
  split_ifs with h
  · show 0 < c + 1 - t
    omega
  · show c + 1 - (t + s.period n) < c + 1 - t
    omega

/-- An NMI entry leaves the events and the device records alone and costs `NMI_COST`. -/
theorem State.nmi_time (s : State) :
    s.nmi.events = s.events ∧ s.nmi.nextWake = s.nextWake ∧ s.nmi.antic = s.antic ∧ s.nmi.params = s.params ∧
      s.nmi.cycle = s.cycle + s.params.nmiCost := by
  unfold nmi
  rw [s.enterHandler_eq s.pc false (vector := nmiVector) (by decide)]
  exact ⟨rfl, rfl, rfl, rfl, rfl⟩

/-- What the scanline advance does to the clock and the events. -/
theorem State.handleFetch_time (s : State) (t : Nat) :
    let u := s.handleFetch t
    (∃ d, u.events = { s.events with fetch := some (t + 114), draw := some (t + s.params.drawOffset), dli := d }) ∧
      u.params = s.params ∧ s.cycle ≤ u.cycle ∧ u.cycle ≤ s.cycle + s.params.nmiCost := by
  have vbi : ∀ u : State, (u.raiseVbi).events = u.events ∧ u.raiseVbi.params = u.params ∧ u.cycle ≤ u.raiseVbi.cycle ∧
      u.raiseVbi.cycle ≤ u.cycle + u.params.nmiCost := by
    intro u
    unfold raiseVbi
    dsimp only
    split_ifs
    · obtain ⟨n1, -, -, n4, n5⟩ :=
        State.nmi_time { u with antic := { u.antic with nmist := (u.antic.nmist &&& ~~~0x80) ||| 0x40 } }
      exact ⟨n1, n4, by rw [n5]; exact Nat.le_add_right _ _, le_of_eq n5⟩
    · exact ⟨rfl, rfl, le_refl _, Nat.le_add_right _ _⟩
  have dl : ∀ u : State, (∃ d, (u.fetchDlInstruction t).events = { u.events with dli := d }) ∧
      (u.fetchDlInstruction t).params = u.params ∧ (u.fetchDlInstruction t).cycle = u.cycle := by
    intro u
    have f := u.fetchDlInstruction_frame t
    refine ⟨?_, by rw [f.state], by rw [f.state]⟩
    rcases f.events with h | ⟨d, h⟩
    · exact ⟨u.events.dli, h⟩
    · exact ⟨d, h⟩
  obtain ⟨v1, v2, v3, v4⟩ := vbi (s.nextScanline t)
  have key : ∃ w : State, s.handleFetch t = ((w.raiseStall (t + w.dmaStall)).arm .fetch (some (t + cyclesPerLine))).arm
        .draw (some (t + w.params.drawOffset)) ∧ (∃ d, w.events = { s.events with dli := d }) ∧ w.params = s.params ∧
      s.cycle ≤ w.cycle ∧ w.cycle ≤ s.cycle + s.params.nmiCost := by
    unfold handleFetch
    dsimp only
    split_ifs
    · obtain ⟨⟨d, d1⟩, d2, d3⟩ := dl (s.nextScanline t).raiseVbi
      refine ⟨_, rfl, ⟨d, ?_⟩, d2.trans v2, v3.trans (le_of_eq d3.symm), (le_of_eq d3).trans v4⟩
      rw [d1, v1]
      rfl
    · exact ⟨_, rfl, ⟨s.events.dli, v1⟩, v2, v3, v4⟩
    · obtain ⟨⟨d, d1⟩, d2, d3⟩ := dl (s.nextScanline t)
      refine ⟨_, rfl, ⟨d, ?_⟩, d2, le_of_eq d3.symm, (le_of_eq d3).trans (Nat.le_add_right _ _)⟩
      rw [d1]
      rfl
    · exact ⟨_, rfl, ⟨s.events.dli, rfl⟩, rfl, le_refl _, Nat.le_add_right _ _⟩
  obtain ⟨w, hw, ⟨d, hd⟩, hp, hc⟩ := key
  dsimp only
  rw [hw]
  refine ⟨⟨d, ?_⟩, hp, hc⟩
  show { w.events with fetch := some (t + 114), draw := some (t + w.params.drawOffset) } = _
  rw [hd, hp]

/-- Handling a due event lowers the backlog. -/
theorem State.handle_backlog {s : State} {e : EventId} {t : Nat} (hcost : 4 * s.params.nmiCost < 114) (ht : t ≤ s.cycle)
    (he : s.events.get e = some t) : (s.handle e t).backlog < s.backlog := by
  have timer : ∀ (s u : State) (b : Byte) (e : EventId) d, u = (s.fireIrq b).arm e d →
      u.cycle = s.cycle ∧ u.events = s.events.set e d := by
    rintro s u b e d rfl
    unfold fireIrq
    dsimp only
    split_ifs <;> exact ⟨rfl, rfl⟩
  cases e
  · obtain ⟨⟨d, h1⟩, -, h3, h4⟩ := s.handleFetch_time t
    have hf : s.events.fetch = some t := he
    show (s.handleFetch t).backlog < _
    generalize s.handleFetch t = u at *
    have hk : ∃ n, u.cycle = s.cycle + n ∧ n ≤ s.params.nmiCost := ⟨u.cycle - s.cycle, by omega, by omega⟩
    obtain ⟨n, hn, hn'⟩ := hk
    unfold backlog
    rw [h1, hn, hf]
    have l1 := late_add (s.cycle + 1) n s.events.timer1
    have l2 := late_add (s.cycle + 1) n s.events.timer2
    have l4 := late_add (s.cycle + 1) n s.events.timer4
    have a1 := armedCount_le d
    have a2 := armedCount_le (some (t + s.params.drawOffset))
    rw [show s.cycle + 1 + n = s.cycle + n + 1 by omega] at l1 l2 l4
    simp only [late] at *
    omega
  · have hd : s.handleDraw.cycle = s.cycle ∧ s.handleDraw.events = { s.events with draw := none } := by
      exact ⟨(s.handleDraw_time).1, (s.handleDraw_time).2⟩
    have hf : s.events.draw = some t := he
    show s.handleDraw.backlog < _
    unfold backlog
    rw [hd.1, hd.2, hf]
    simp only [armedCount_none, armedCount_some]
    omega
  · have hd : ∃ n, s.handleDli.cycle = s.cycle + n ∧ n ≤ s.params.nmiCost ∧
        s.handleDli.events = { s.events with dli := none } := by
      unfold handleDli
      dsimp only
      split_ifs
      · obtain ⟨n1, -, -, n4, n5⟩ :=
          State.nmi_time { s with antic := { s.antic with nmist := (s.antic.nmist &&& ~~~0x40) ||| 0x80 } }
        refine ⟨_, n5, le_refl _, ?_⟩
        show Events.set _ .dli none = _
        rw [n1]; rfl
      · exact ⟨0, rfl, Nat.zero_le _, rfl⟩
    obtain ⟨n, h1, h2, h3⟩ := hd
    have hf : s.events.dli = some t := he
    show s.handleDli.backlog < _
    unfold backlog
    rw [h1, h3, hf]
    have l0 := late_add (s.cycle + 114) n s.events.fetch
    have l1 := late_add (s.cycle + 1) n s.events.timer1
    have l2 := late_add (s.cycle + 1) n s.events.timer2
    have l4 := late_add (s.cycle + 1) n s.events.timer4
    rw [show s.cycle + 1 + n = s.cycle + n + 1 by omega] at l1 l2 l4
    rw [show s.cycle + 114 + n = s.cycle + n + 114 by omega] at l0
    simp only [armedCount_none, armedCount_some] at *
    omega
  · have hp := (s.fireIrq 0x01).late_timerDue 1 ht
    obtain ⟨h1, h2⟩ := timer _ _ _ _ _ (show s.handleTimer .timer1 1 0x01 t = _ from rfl)
    have hf : s.events.timer1 = some t := he
    show (s.handleTimer .timer1 1 0x01 t).backlog < _
    unfold backlog
    rw [h1, h2, hf]
    simp only [Events.set]
    omega
  · have hp := (s.fireIrq 0x02).late_timerDue 2 ht
    obtain ⟨h1, h2⟩ := timer _ _ _ _ _ (show s.handleTimer .timer2 2 0x02 t = _ from rfl)
    have hf : s.events.timer2 = some t := he
    show (s.handleTimer .timer2 2 0x02 t).backlog < _
    unfold backlog
    rw [h1, h2, hf]
    simp only [Events.set]
    omega
  · have hp := (s.fireIrq 0x04).late_timerDue 4 ht
    obtain ⟨h1, h2⟩ := timer _ _ _ _ _ (show s.handleTimer .timer4 4 0x04 t = _ from rfl)
    have hf : s.events.timer4 = some t := he
    show (s.handleTimer .timer4 4 0x04 t).backlog < _
    unfold backlog
    rw [h1, h2, hf]
    simp only [Events.set]
    omega
  · obtain ⟨h1, h2⟩ := timer _ _ _ _ _ (show s.handleSerial .serOutNeeded 0x10 = _ from rfl)
    have hf : s.events.serOutNeeded = some t := he
    show (s.handleSerial .serOutNeeded 0x10).backlog < _
    unfold backlog
    rw [h1, h2, hf]
    simp only [Events.set, armedCount_none, armedCount_some]
    omega
  · obtain ⟨h1, h2⟩ := timer _ _ _ _ _ (show s.handleSerial .serOutDone 0x08 = _ from rfl)
    have hf : s.events.serOutDone = some t := he
    show (s.handleSerial .serOutDone 0x08).backlog < _
    unfold backlog
    rw [h1, h2, hf]
    simp only [Events.set, armedCount_none, armedCount_some]
    omega
  · obtain ⟨h1, h2⟩ := timer _ _ _ _ _ (show s.handleSerial .serInReady 0x20 = _ from rfl)
    have hf : s.events.serInReady = some t := he
    show (s.handleSerial .serInReady 0x20).backlog < _
    unfold backlog
    rw [h1, h2, hf]
    simp only [Events.set, armedCount_none, armedCount_some]
    omega

/-- No handler changes the parameters. -/
theorem State.handle_params (s : State) (e : EventId) (t : Nat) : (s.handle e t).params = s.params := by
  have fire : ∀ (s : State) (b : Byte) (e : EventId) (d : Option Nat), ((s.fireIrq b).arm e d).params = s.params := by
    intro s b e d
    unfold fireIrq
    dsimp only
    split_ifs <;> rfl
  cases e
  · exact (s.handleFetch_time t).2.1
  · show s.handleDraw.params = _
    rw [s.handleDraw_eq]
    rfl
  · show s.handleDli.params = _
    unfold handleDli
    dsimp only
    split_ifs
    · exact (State.nmi_time { s with antic := { s.antic with nmist := (s.antic.nmist &&& ~~~0x40) ||| 0x80 } }).2.2.2.1
    · rfl
  all_goals exact fire s _ _ _

/-- The service loop is over when its fuel is as large as the backlog. -/
theorem State.serviceEvents_closes {k : Nat} {s : State} (h : s.Timed) (hcost : 4 * s.params.nmiCost < 114)
    (hk : s.backlog ≤ k) : (s.serviceEvents k).serviceOpen = false := by
  have lower : ∀ {s : State} {e : EventId} {t : Nat}, s.Timed → 4 * s.params.nmiCost < 114 →
      reached s.nextWake s.cycle = true → s.events.earliest = some (e, t) → (s.handle e t).backlog < s.backlog := by
    intro s e t h hcost hdue he
    obtain ⟨h1, -, h3⟩ := s.events.earliest_some he
    refine State.handle_backlog hcost ?_ h3
    rw [h.1, h1] at hdue
    simpa [reached] using hdue
  induction k generalizing s with
  | zero =>
    show reached s.nextWake s.cycle = false
    by_contra hdue
    have hdue : reached s.nextWake s.cycle = true := by simpa using hdue
    cases he : s.events.earliest with
    | none =>
      rw [h.1, s.events.earliest_none he] at hdue
      exact absurd hdue (by simp [reached])
    | some p =>
      have := lower h hcost hdue he
      omega
  | succ k ih =>
    by_cases hdue : reached s.nextWake s.cycle = true
    · cases he : s.events.earliest with
      | none =>
        rw [h.1, s.events.earliest_none he] at hdue
        exact absurd hdue (by simp [reached])
      | some p =>
        rw [s.serviceEvents_succ hdue he]
        have := lower h hcost hdue he
        exact ih (h.handle hdue he) (by rw [handle_params]; exact hcost) (by omega)
    · have hd : s.WakeAhead := by simpa using hdue
      rw [s.serviceEvents_done hd]

/-- The fuel of the event gate is as large as the backlog. -/
theorem State.backlog_le_serviceFuel {s : State} (h : s.Timed) : s.backlog ≤ s.serviceFuel := by
  have bound : ∀ (e : EventId) (n : Nat), late (s.cycle + n) (s.events.get e) ≤ s.cycle - s.nextWake.getD s.cycle + n := by
    intro e n
    cases hg : s.events.get e with
    | none => exact Nat.zero_le _
    | some t =>
      rw [h.1]
      cases hl : s.events.least with
      | none =>
        have := (s.events.leastOf_none_iff EventId.all).1 hl e (EventId.mem_all e)
        rw [hg] at this
        cases this
      | some m =>
        have := s.events.leastOf_le (EventId.mem_all e) hg hl
        simp only [late, Option.getD_some]
        omega
  have b0 := bound .fetch 114
  have b1 := bound .timer1 1
  have b2 := bound .timer2 1
  have b4 := bound .timer4 1
  simp only [Events.get] at b0 b1 b2 b4
  have a1 := armedCount_le s.events.dli
  have a2 := armedCount_le s.events.draw
  have a3 := armedCount_le s.events.serOutNeeded
  have a4 := armedCount_le s.events.serOutDone
  have a5 := armedCount_le s.events.serInReady
  unfold backlog serviceFuel
  omega

end Sys2Proof.Machine
end

