-- ==== Sys2Proof/Laws/Banking.lean ====
section
/-! SUPPORT. The bank controller: what installing the map does, and that every action and every event handler keeps the
map installed and the mapped ROM bytes visible. -/

namespace Sys2Proof.Machine

theorem Banks.rom_set (b : Banks) (r q : Region) (v : Bool) : (b.set r v).rom q = if q = r then v else b.rom q := by
  cases r <;> cases q <;> rfl

theorem ofBytes_lt_region (r : Region) (image : List Byte) :
    ∀ c ∈ Memory.ofBytes r.base (r.bytes image), c.1 < r.base + r.size := by
  intro c hc
  have := Memory.ofBytes_lt _ _ c hc
  have := List.length_take_le r.size (image.drop r.offset)
  unfold Region.bytes at *
  omega

/-- What happens to the bytes of a region from `s` to `t`: nothing while its state stays; from ROM to RAM the shadow's
bytes appear; from RAM to ROM its image appears and its RAM bytes go to the shadow (R76). -/
def Region.Moved (r : Region) (s t : State) : Prop :=
  ∀ k < r.size,
    (s.banks.rom r = t.banks.rom r →
      t.ram.read (r.base + k) = s.ram.read (r.base + k) ∧ t.sram.read (r.base + k) = s.sram.read (r.base + k)) ∧
    (s.banks.rom r = true → t.banks.rom r = false →
      t.ram.read (r.base + k) = s.sram.read (r.base + k) ∧ t.sram.read (r.base + k) = s.sram.read (r.base + k)) ∧
    (s.banks.rom r = false → t.banks.rom r = true → ∃ image, s.imageOf r = some image ∧
      t.ram.read (r.base + k) = (r.bytes image).getD k Memory.blank ∧ t.sram.read (r.base + k) = s.ram.read (r.base + k))

/-- `t` has the PIA and the images of `s`, whose map it installs region by region. -/
def State.SameImages (s t : State) : Prop := t.pia = s.pia ∧ t.osRom = s.osRom ∧ t.basicRom = s.basicRom

theorem State.SameImages.trans {s t u : State} (h : s.SameImages t) (k : t.SameImages u) : s.SameImages u :=
  ⟨k.1.trans h.1, k.2.1.trans h.2.1, k.2.2.trans h.2.2⟩

theorem State.SameImages.imageOf {s t : State} (h : s.SameImages t) (r : Region) : t.imageOf r = s.imageOf r := by
  cases r <;> simp [State.imageOf, h.2.1, h.2.2]

theorem State.SameImages.wantsRom {s t : State} (h : s.SameImages t) (r : Region) : t.wantsRom r = s.wantsRom r := by
  unfold State.wantsRom
  rw [h.1, h.imageOf]

/-- What one region of `install()` does: its own transition, and nothing outside it. -/
structure Region.Installed (r : Region) (s t : State) : Prop where
  canonical : t.Canonical
  images    : s.SameImages t
  wanted    : t.banks.rom r = s.wantsRom r
  others    : ∀ q ≠ r, t.banks.rom q = s.banks.rom q
  outside   : ∀ a, ¬ (r.base ≤ a ∧ a < r.base + r.size) → t.ram.read a = s.ram.read a ∧ t.sram.read a = s.sram.read a
  moved     : r.Moved s t

theorem installRegion_spec {s : State} (h : s.Canonical) (r : Region) : r.Installed s (s.installRegion r) := by
  have hc := State.installRegion_canonical h r
  have inside : ∀ k < r.size, inRange r.base r.size (r.base + k) = true := fun k hk => by simp [inRange]; omega
  have out : ∀ a, ¬ (r.base ≤ a ∧ a < r.base + r.size) → ¬ inRange r.base r.size a = true := fun a ha => by
    simp [inRange]; omega
  revert hc
  unfold State.installRegion
  split_ifs with h1 h2 <;> intro hc
  · refine ⟨hc, ⟨rfl, rfl, rfl⟩, h1, fun _ _ => rfl, fun _ _ => ⟨rfl, rfl⟩, fun k _ => ⟨fun _ => ⟨rfl, rfl⟩, ?_, ?_⟩⟩
    all_goals intro e e'; rw [e] at e'; cases e'
  · have hr : (s.ramToRom r).banks.rom r = true := by
      show (Banks.set _ _ _).rom r = _
      rw [Banks.rom_set, if_pos rfl]
    have hs : s.banks.rom r = false := by cases e : s.banks.rom r <;> simp_all
    have ram : ∀ a, (s.ramToRom r).ram.read a = if inRange r.base r.size a then
        (Memory.ofBytes r.base (r.bytes ((s.imageOf r).getD []))).read a else s.ram.read a :=
      Memory.read_splice h.1 (Memory.wfFrom_ofBytes _ _) (ofBytes_lt_region _ _)
    have sram : ∀ a, (s.ramToRom r).sram.read a = if inRange r.base r.size a then
        (s.ram.slice r.base r.size).read a else s.sram.read a :=
      Memory.read_splice h.2.1 (Memory.wfFrom_slice h.1 _ _) (Memory.slice_lt _ _ _)
    refine ⟨hc, ⟨rfl, rfl, rfl⟩, hr.trans h2.symm, fun q hq => ?_, fun a ha => ⟨?_, ?_⟩, fun k hk => ⟨?_, ?_, ?_⟩⟩
    · show (Banks.set _ _ _).rom q = _
      rw [Banks.rom_set, if_neg hq]
    · rw [ram, if_neg (out a ha)]
    · rw [sram, if_neg (out a ha)]
    · intro e; rw [hs, hr] at e; cases e
    · intro e; rw [hs] at e; cases e
    · intro _ _
      have hi : ∃ image, s.imageOf r = some image := by
        unfold State.wantsRom at h2
        exact Option.isSome_iff_exists.mp (Bool.and_eq_true_iff.mp h2).2
      obtain ⟨image, hi⟩ := hi
      refine ⟨image, hi, ?_, ?_⟩
      · rw [ram, if_pos (inside k hk), hi]
        exact Memory.read_ofBytes _ _ _
      · rw [sram, if_pos (inside k hk), Memory.read_slice, if_pos (inside k hk)]
  · have hf : (s.romToRam r).banks.rom r = false := by
      show (Banks.set _ _ _).rom r = _
      rw [Banks.rom_set, if_pos rfl]
    have h2' : s.wantsRom r = false := by simpa using h2
    have hs : s.banks.rom r = true := by cases e : s.banks.rom r <;> simp_all
    have ram : ∀ a, (s.romToRam r).ram.read a = if inRange r.base r.size a then
        (s.sram.slice r.base r.size).read a else s.ram.read a :=
      Memory.read_splice h.1 (Memory.wfFrom_slice h.2.1 _ _) (Memory.slice_lt _ _ _)
    refine ⟨hc, ⟨rfl, rfl, rfl⟩, hf.trans h2'.symm, fun q hq => ?_, fun a ha => ⟨?_, rfl⟩, fun k hk => ⟨?_, ?_, ?_⟩⟩
    · show (Banks.set _ _ _).rom q = _
      rw [Banks.rom_set, if_neg hq]
    · rw [ram, if_neg (out a ha)]
    · intro e; rw [hs, hf] at e; cases e
    · intro _ _
      refine ⟨?_, rfl⟩
      rw [ram, if_pos (inside k hk), Memory.read_slice, if_pos (inside k hk)]
    · intro e; rw [hs] at e; cases e

/-- Two regions share no address. -/
theorem Region.disjoint {r q : Region} (h : q ≠ r) {k : Nat} (hk : k < r.size) :
    ¬ (q.base ≤ r.base + k ∧ r.base + k < q.base + q.size) := by
  cases r <;> cases q <;> simp only [Region.base, Region.size] at hk ⊢ <;> first | exact absurd rfl h | omega

/-- Installing one region is invisible in another: it moves as before when the region is installed first or last. -/
theorem Region.Moved.before {r q : Region} {s t u : State} (hq : q ≠ r) (h : q.Installed s t) (m : r.Moved t u) :
    r.Moved s u := by
  intro k hk
  obtain ⟨e1, e2⟩ := h.outside _ (Region.disjoint hq hk)
  have := m k hk
  rwa [h.others r (Ne.symm hq), h.images.imageOf, e1, e2] at this

theorem Region.Moved.after {r q : Region} {s t u : State} (hq : q ≠ r) (m : r.Moved s t) (h : q.Installed t u) :
    r.Moved s u := by
  intro k hk
  obtain ⟨e1, e2⟩ := h.outside _ (Region.disjoint hq hk)
  rw [h.others r (Ne.symm hq), e1, e2]
  exact m k hk

/-- What `install()` does (R75, R76). -/
theorem install_spec {s : State} (h : s.Canonical) :
    s.install.Canonical ∧ s.install.pia = s.pia ∧ s.install.Installed ∧ (∀ r : Region, r.Moved s s.install) ∧
    ∀ a, (∀ r : Region, ¬ (r.base ≤ a ∧ a < r.base + r.size)) →
      s.install.ram.read a = s.ram.read a ∧ s.install.sram.read a = s.sram.read a := by
  unfold State.install
  have i1 := installRegion_spec h .selfTest
  generalize s.installRegion .selfTest = t1 at *
  have i2 := installRegion_spec i1.canonical .basic
  generalize t1.installRegion .basic = t2 at *
  have i3 := installRegion_spec i2.canonical .osLow
  generalize t2.installRegion .osLow = t3 at *
  have i4 := installRegion_spec i3.canonical .osHigh
  generalize t3.installRegion .osHigh = t4 at *
  have w2 := i1.images.trans i2.images
  have w3 := w2.trans i3.images
  have w4 := w3.trans i4.images
  refine ⟨i4.canonical, w4.1, fun r => ?_, fun r => ?_, fun a ha => ?_⟩
  · rw [w4.wantsRom]
    cases r
    · rw [i4.others _ (by decide), i3.others _ (by decide), i2.others _ (by decide), i1.wanted]
    · rw [i4.others _ (by decide), i3.others _ (by decide), i2.wanted, i1.images.wantsRom]
    · rw [i4.others _ (by decide), i3.wanted, w2.wantsRom]
    · rw [i4.wanted, w3.wantsRom]
  · cases r
    · exact ((i1.moved.after (by decide) i2).after (by decide) i3).after (by decide) i4
    · exact (Region.Moved.before (by decide) i1 (i2.moved.after (by decide) i3)).after (by decide) i4
    · exact Region.Moved.before (by decide) i1 (Region.Moved.before (by decide) i2 (i3.moved.after (by decide) i4))
    · exact Region.Moved.before (by decide) i1 (Region.Moved.before (by decide) i2
        (Region.Moved.before (by decide) i3 i4.moved))
  · obtain ⟨a1, b1⟩ := i1.outside a (ha _)
    obtain ⟨a2, b2⟩ := i2.outside a (ha _)
    obtain ⟨a3, b3⟩ := i3.outside a (ha _)
    obtain ⟨a4, b4⟩ := i4.outside a (ha _)
    exact ⟨a4.trans (a3.trans (a2.trans a1)), b4.trans (b3.trans (b2.trans b1))⟩

/-- The dispatch entry of an address of a region. -/
theorem Banks.dispatch_region (b : Banks) (r : Region) {k : Nat} (hk : k < r.size) :
    b.dispatch (r.base + k) = if b.rom r then .rom else .ram := by
  have out : ∀ lo n a : Nat, ¬ (lo ≤ a ∧ a < lo + n) → ¬ inRange lo n a = true := fun lo n a h => by
    simpa [inRange] using h
  have mem : ∀ lo n a : Nat, lo ≤ a ∧ a < lo + n → inRange lo n a = true := fun lo n a h => by simpa [inRange] using h
  cases r <;> simp only [Region.base, Region.size] at hk ⊢ <;> unfold dispatch rom isDevice
  · rw [if_neg (out _ _ _ (by omega)), if_pos (mem _ _ _ (by omega))]
  · rw [if_neg (out _ _ _ (by omega)), if_neg (out _ _ _ (by omega)), if_pos (mem _ _ _ (by omega))]
  · rw [if_neg (out _ _ _ (by omega)), if_neg (out _ _ _ (by omega)), if_neg (out _ _ _ (by omega)),
      if_pos (mem _ _ _ (by omega))]
  · rw [if_neg (out _ _ _ (by omega)), if_neg (out _ _ _ (by omega)), if_neg (out _ _ _ (by omega)),
      if_neg (out _ _ _ (by omega)), if_pos (mem _ _ _ (by omega))]

/-- The bank invariant. -/
def BankInv (s : State) : Prop := s.Canonical ∧ s.Installed ∧ s.RomVisible

/-- A state with the same map, latch and images, and the same bytes at every ROM address, keeps it. -/
theorem BankInv.of_eq {s t : State} (h : BankInv s) (hc : t.Canonical) (h1 : t.banks = s.banks) (h2 : t.pia = s.pia)
    (h3 : t.osRom = s.osRom) (h4 : t.basicRom = s.basicRom)
    (hr : ∀ a, s.banks.dispatch a = .rom → t.ram.read a = s.ram.read a) : BankInv t := by
  have hi : ∀ r, t.imageOf r = s.imageOf r := by intro r; cases r <;> simp [State.imageOf, h3, h4]
  refine ⟨hc, fun r => ?_, fun r image hb him k hk => ?_⟩
  · rw [h1, h.2.1 r]
    unfold State.wantsRom
    rw [h2, hi]
  · rw [h1] at hb
    rw [hi] at him
    rw [hr _ (by rw [Banks.dispatch_region _ _ hk, hb]; rfl)]
    exact h.2.2 r image hb him k hk

theorem bankInv_install {s : State} (hc : s.Canonical) (hv : s.RomVisible) : BankInv s.install := by
  obtain ⟨i1, -, i3, i4, -⟩ := install_spec hc
  refine ⟨i1, i3, fun r image hb him k hk => ?_⟩
  have him' : s.imageOf r = some image := by
    have e := s.install_eq
    have : s.install.imageOf r = s.imageOf r := by
      cases r <;> (rw [e]; rfl)
    rw [← this]; exact him
  cases hn : s.banks.rom r
  · obtain ⟨image', hi, hr, -⟩ := (i4 r k hk).2.2 hn hb
    rw [him'] at hi
    injection hi with hi
    rw [hr, hi]
  · rw [((i4 r k hk).1 (hn.trans hb.symm)).1]
    exact hv r image hn him' k hk

theorem dispatch_rom_not_dev (b : Banks) {a : Nat} (h : b.dispatch a = .rom) : isDevice a = false := by
  cases hd : isDevice a
  · rfl
  · rw [(b.dispatch_dev_iff a).2 hd] at h; cases h

theorem bankInv_devWrite {s : State} (h : BankInv s) (a : Nat) (v : Byte) : BankInv (s.devWrite a v) := by
  have hc := State.devWrite_canonical h.1 a v
  revert hc
  unfold State.devWrite
  cases chipOf a <;> dsimp only
  · unfold State.gtiaWrite
    split_ifs
    all_goals intro hc
    all_goals try exact h.of_eq hc rfl rfl rfl rfl fun _ _ => rfl
    · refine h.of_eq hc rfl rfl rfl rfl fun b hb => ?_
      have := (isDevice_false_iff b).1 (dispatch_rom_not_dev _ hb)
      show (Memory.splice _ _ _ _).read b = _
      rw [Memory.read_splice h.1.1 rfl (by simp), if_neg (by simp [inRange]; omega)]
  · unfold State.pokeyWrite
    split_ifs
    · exact fun hc => h.of_eq hc rfl rfl rfl rfl fun _ _ => rfl
    · rw [s.seroutWrite_eq v]
      exact fun hc => h.of_eq hc rfl rfl rfl rfl fun _ _ => rfl
    · exact fun hc => h.of_eq hc rfl rfl rfl rfl fun _ _ => rfl
    · exact fun _ => h
  · unfold State.piaWrite
    have other : ∀ p : Pia, p.portb = s.pia.portb → BankInv { s with pia := p } := fun p hp =>
      ⟨h.1, fun r => by
        have : ({ s with pia := p } : State).wantsRom r = s.wantsRom r := by
          unfold State.wantsRom; show (r.selected p.portb && _) = _; rw [hp]; rfl
        rw [this]; exact h.2.1 r, h.2.2⟩
    split_ifs
    all_goals intro _
    all_goals try exact other _ rfl
    exact bankInv_install (s := { s with pia := { s.pia with portb := v } }) h.1 h.2.2
  · unfold State.anticWrite
    split_ifs <;> exact fun hc => h.of_eq hc rfl rfl rfl rfl fun _ _ => rfl
  · exact fun _ => h

theorem bankInv_write {s : State} (h : BankInv s) (a : Word) (v : Byte) : BankInv (s.memWrite a v) := by
  have hc := State.memWrite_canonical h.1 a v
  cases hd : s.banks.dispatch a.toNat
  · rw [s.memWrite_of_ram v hd] at hc ⊢
    refine h.of_eq hc rfl rfl rfl rfl fun b hb => Memory.read_write_ne _ _ fun e => ?_
    subst e; rw [hd] at hb; cases hb
  · rw [s.memWrite_of_rom v hd] at hc ⊢
    exact h.of_eq hc rfl rfl rfl rfl fun b hb => rfl
  · unfold State.memWrite at hc ⊢
    rw [hd] at hc ⊢
    dsimp only at hc ⊢
    have hb : BankInv (s.beforeDevWrite a.toNat) := by
      unfold State.beforeDevWrite
      cases chipOf a.toNat <;> dsimp only
      · exact h
      · split_ifs
        · exact h.of_eq h.1 rfl rfl rfl rfl fun _ _ => rfl
        · exact h
      · exact h
      · exact h
      · exact h
    refine bankInv_devWrite ?_ _ _
    generalize s.beforeDevWrite a.toNat = t at hb
    exact hb.of_eq ⟨hb.1.1, Memory.wf_write hb.1.2.1 _ _, hb.1.2.2⟩ rfl rfl rfl rfl fun _ _ => rfl

theorem bankInv_action {s t : State} (k : CpuAction s t) (h : BankInv s) : BankInv t := by
  cases k with
  | read a =>
    rw [s.memRead_eq_withReadEffects a]
    exact h.of_eq h.1 rfl rfl rfl rfl fun _ _ => rfl
  | write a v => exact bankInv_write h a v
  | _ => exact h.of_eq h.1 rfl rfl rfl rfl fun _ _ => rfl

theorem bankInv_nmi {s : State} (h : BankInv s) : BankInv s.nmi := (CpuPath.of_nmi s).keeps (fun _ _ => bankInv_action) h

theorem bankInv_handle {s : State} (h : BankInv s) (e : EventId) (t : Nat) : BankInv (s.handle e t) := by
  have fire : ∀ (s : State) (b : Byte) e t, BankInv s → BankInv ((s.fireIrq b).arm e t) := by
    intro s b e t h
    unfold State.fireIrq
    dsimp only
    split_ifs <;> exact h.of_eq h.1 rfl rfl rfl rfl fun _ _ => rfl
  cases e
  · show BankInv (s.handleFetch t)
    have vbi : ∀ s : State, BankInv s → BankInv s.raiseVbi := by
      intro s h
      unfold State.raiseVbi
      dsimp only
      split_ifs
      · exact bankInv_nmi (h.of_eq h.1 rfl rfl rfl rfl fun _ _ => rfl)
      · exact h.of_eq h.1 rfl rfl rfl rfl fun _ _ => rfl
    have dl : ∀ s : State, BankInv s → BankInv (s.fetchDlInstruction t) := by
      intro s h
      rw [(s.fetchDlInstruction_frame t).state]
      exact h.of_eq h.1 rfl rfl rfl rfl fun _ _ => rfl
    have hn : BankInv (s.nextScanline t) := h.of_eq h.1 rfl rfl rfl rfl fun _ _ => rfl
    have fin : ∀ (s : State) n a b, BankInv s → BankInv (((s.raiseStall n).arm .fetch a).arm .draw b) := fun s n a b h =>
      h.of_eq h.1 rfl rfl rfl rfl fun _ _ => rfl
    unfold State.handleFetch
    dsimp only
    split_ifs
    · exact fin _ _ _ _ (dl _ (vbi _ hn))
    · exact fin _ _ _ _ (vbi _ hn)
    · exact fin _ _ _ _ (dl _ hn)
    · exact fin _ _ _ _ hn
  · show BankInv s.handleDraw
    obtain ⟨d1, d2⟩ := State.handleDraw_arrays h.1
    have e := s.handleDraw_eq
    generalize s.handleDraw = u at d1 d2 e
    refine h.of_eq d1 (by rw [e]; rfl) (by rw [e]; rfl) (by rw [e]; rfl) (by rw [e]; rfl) fun a ha => d2 a ?_
    have := (isDevice_false_iff a).1 (dispatch_rom_not_dev _ ha)
    omega
  · show BankInv s.handleDli
    unfold State.handleDli
    dsimp only
    split_ifs
    · have := bankInv_nmi (h.of_eq
        (t := { s with antic := { s.antic with nmist := (s.antic.nmist &&& ~~~0x40) ||| 0x80 } }) h.1 rfl rfl rfl rfl fun _ _ => rfl)
      exact this.of_eq this.1 rfl rfl rfl rfl fun _ _ => rfl
    · exact h.of_eq h.1 rfl rfl rfl rfl fun _ _ => rfl
  all_goals exact fire s _ _ _ h

end Sys2Proof.Machine
end

