-- ==== Sys2Proof/Laws/Device.lean ====
section
/-! SUPPORT. The device window register by register: which chip a read or a store of an address reaches, and at which
offset. -/

namespace Sys2Proof.Machine

/-- Everything a store in the window does (R65). -/
theorem State.memWrite_of_device (s : State) {a : Word} (v : Byte) (h : isDevice a.toNat = true) :
    s.memWrite a v = ((s.beforeDevWrite a.toNat).setShadow a.toNat v).devWrite a.toNat v := by
  simp [memWrite, (s.banks.dispatch_dev_iff a.toNat).2 h]

/-! ### The chip of an address (R72) -/

theorem chipOf_gtia {k : Nat} (h : k < 32) : chipOf (0xD000 + k) = .gtia := by
  have : inRange 0xD000 32 (0xD000 + k) = true := by simp [inRange]; omega
  simp only [chipOf, this, if_true]

theorem chipOf_pokey {k : Nat} (h : k < 16) : chipOf (0xD200 + k) = .pokey := by
  have h1 : inRange 0xD000 32 (0xD200 + k) = false := by simp [inRange]; omega
  have h2 : inRange 0xD200 16 (0xD200 + k) = true := by simp [inRange]; omega
  simp only [chipOf, h1, h2, if_true, Bool.false_eq_true, if_false]

theorem chipOf_pia {k : Nat} (h : k < 4) : chipOf (0xD300 + k) = .pia := by
  have h1 : inRange 0xD000 32 (0xD300 + k) = false := by simp [inRange]; omega
  have h2 : inRange 0xD200 16 (0xD300 + k) = false := by simp [inRange]; omega
  have h3 : inRange 0xD300 4 (0xD300 + k) = true := by simp [inRange]; omega
  simp only [chipOf, h1, h2, h3, if_true, Bool.false_eq_true, if_false]

theorem chipOf_antic {k : Nat} (h : k < 16) : chipOf (0xD400 + k) = .antic := by
  have h1 : inRange 0xD000 32 (0xD400 + k) = false := by simp [inRange]; omega
  have h2 : inRange 0xD200 16 (0xD400 + k) = false := by simp [inRange]; omega
  have h3 : inRange 0xD300 4 (0xD400 + k) = false := by simp [inRange]; omega
  have h4 : inRange 0xD400 16 (0xD400 + k) = true := by simp [inRange]; omega
  simp only [chipOf, h1, h2, h3, h4, if_true, Bool.false_eq_true, if_false]

theorem isDevice_add {base k : Nat} (h : 0xD000 ≤ base) (h1 : base + k < 0xD800) : isDevice (base + k) = true := by
  rw [isDevice_iff]; omega

/-! ### Reads, by chip and offset -/

theorem State.memRead_gtia (s : State) {a : Word} {k : Nat} (ha : a.toNat = 0xD000 + k) (h : k < 32) :
    s.memRead a = (s.gtiaRead k, s) := by
  rw [s.memRead_of_device (ha ▸ isDevice_add (by decide) (by omega)), ha]
  simp only [devRead, chipOf_gtia h, Nat.add_sub_cancel_left]

theorem State.memRead_pokey (s : State) {a : Word} {k : Nat} (ha : a.toNat = 0xD200 + k) (h : k < 16) :
    s.memRead a = s.pokeyRead k := by
  rw [s.memRead_of_device (ha ▸ isDevice_add (by decide) (by omega)), ha]
  simp only [devRead, chipOf_pokey h, Nat.add_sub_cancel_left]

theorem State.memRead_pia (s : State) {a : Word} {k : Nat} (ha : a.toNat = 0xD300 + k) (h : k < 4) :
    s.memRead a = (s.piaRead k, s) := by
  rw [s.memRead_of_device (ha ▸ isDevice_add (by decide) (by omega)), ha]
  simp only [devRead, chipOf_pia h, Nat.add_sub_cancel_left]

theorem State.memRead_antic (s : State) {a : Word} {k : Nat} (ha : a.toNat = 0xD400 + k) (h : k < 16) :
    s.memRead a = (s.anticRead k, s) := by
  rw [s.memRead_of_device (ha ▸ isDevice_add (by decide) (by omega)), ha]
  simp only [devRead, chipOf_antic h, Nat.add_sub_cancel_left]

/-! ### Stores, by chip and offset: the byte is kept in the shadow array, then the register acts -/

theorem State.memWrite_gtia (s : State) {a : Word} {k : Nat} (v : Byte) (ha : a.toNat = 0xD000 + k) (h : k < 32) :
    s.memWrite a v = (s.setShadow a.toNat v).gtiaWrite k v := by
  rw [s.memWrite_of_device v (ha ▸ isDevice_add (by decide) (by omega)), ha]
  simp only [beforeDevWrite, devWrite, chipOf_gtia h, Nat.add_sub_cancel_left]

theorem State.memWrite_pokey (s : State) {a : Word} {k : Nat} (v : Byte) (ha : a.toNat = 0xD200 + k) (h : k < 16) :
    s.memWrite a v = ((if pokeySyncsBefore k then s.sync s.cycle else s).setShadow a.toNat v).pokeyWrite k v := by
  rw [s.memWrite_of_device v (ha ▸ isDevice_add (by decide) (by omega)), ha]
  simp only [beforeDevWrite, devWrite, chipOf_pokey h, Nat.add_sub_cancel_left]

theorem State.memWrite_pia (s : State) {a : Word} {k : Nat} (v : Byte) (ha : a.toNat = 0xD300 + k) (h : k < 4) :
    s.memWrite a v = (s.setShadow a.toNat v).piaWrite k v := by
  rw [s.memWrite_of_device v (ha ▸ isDevice_add (by decide) (by omega)), ha]
  simp only [beforeDevWrite, devWrite, chipOf_pia h, Nat.add_sub_cancel_left]

theorem State.memWrite_antic (s : State) {a : Word} {k : Nat} (v : Byte) (ha : a.toNat = 0xD400 + k) (h : k < 16) :
    s.memWrite a v = (s.setShadow a.toNat v).anticWrite k v := by
  rw [s.memWrite_of_device v (ha ▸ isDevice_add (by decide) (by omega)), ha]
  simp only [beforeDevWrite, devWrite, chipOf_antic h, Nat.add_sub_cancel_left]

/-! ### No read looks at `PC` -/

theorem State.memRead_setPc (s : State) (w a : Word) :
    (s.setPc w).memRead a = ((s.memRead a).1, (s.memRead a).2.setPc w) := by
  cases h : isDevice a.toNat
  · rw [State.memRead_of_not_device _ h, State.memRead_of_not_device _ h]
    rfl
  · rw [State.memRead_of_device _ h, State.memRead_of_device _ h]
    unfold devRead
    cases chipOf a.toNat <;> dsimp only
    · rfl
    · unfold pokeyRead
      split_ifs
      · rfl
      · rfl
      · rfl
      · rfl
      · unfold serinRead
        show (if s.sio.remaining = 0 then _ else _) = _
        by_cases h0 : s.sio.remaining = 0
        · rw [if_pos h0, if_pos h0]
          rfl
        · rw [if_neg h0, if_neg h0]
          dsimp only
          by_cases h1 : s.sio.remaining = 1
          · rw [if_pos h1, if_pos (show (s.setPc w).sio.remaining = 1 from h1)]
            rfl
          · rw [if_neg h1, if_neg (show ¬ (s.setPc w).sio.remaining = 1 from h1)]
            rfl
      · rfl
      · rfl
      · rfl
    · rfl
    · rfl
    · rfl

/-! ### Timers -/

/-- A timer's period depends on AUDF1..4, AUDCTL and `POKEY_DIV` alone (R391, R392). -/
theorem State.period_congr {s t : State} (h : ∀ k, k < 9 → t.sram.read (0xD200 + k) = s.sram.read (0xD200 + k))
    (hp : t.params = s.params) {n : Nat} (hn : n = 1 ∨ n = 2 ∨ n = 3 ∨ n = 4) : t.period n = s.period n := by
  have c : t.audctl = s.audctl := h 8 (by decide)
  have f : ∀ n, n ≤ 4 → t.audf n = s.audf n := fun n hn => by
    unfold audf
    rw [h (2 * (n - 1)) (by omega)]
  rcases hn with rfl | rfl | rfl | rfl <;>
    simp [period, reload, divisor, joined, fastClock, baseDivisor, c, hp, f]

end Sys2Proof.Machine
end

