-- ==== Sys2Proof/Laws/Display.lean ====
section
/-! SUPPORT. The rows the renderer and the compositor write. -/

namespace Sys2Proof.Machine

/-- A row of a plane reads as it was written, and no byte outside it changes. -/
theorem Memory.read_setRow {m : Memory} (hm : m.wf = true) (line : Nat) (row : List Byte) (a : Nat) :
    (m.setRow line row).read a =
      if inRange (frameColumns * line) frameColumns a then (row.take frameColumns).getD (a - frameColumns * line) blank
      else m.read a := by
  have lt : ∀ c ∈ Memory.ofBytes (frameColumns * line) (row.take frameColumns),
      c.1 < frameColumns * line + frameColumns := fun c hc => by
    have := ofBytes_lt _ _ c hc
    have := List.length_take_le frameColumns row
    omega
  rw [setRow, read_splice hm (wfFrom_ofBytes _ _) lt]
  split_ifs with h
  · have h' : frameColumns * line ≤ a := by simp only [inRange, Bool.and_eq_true, decide_eq_true_eq] at h; exact h.1
    obtain ⟨k, rfl⟩ := Nat.exists_eq_add_of_le h'
    rw [read_ofBytes, Nat.add_sub_cancel_left]
  · rfl

/-- Lines 248 to 311 and 0 to 7 carry no playfield (R367). -/
theorem State.lineMode_blank (s : State) (h : s.antic.scanline < displayLine ∨ vbiLine ≤ s.antic.scanline) :
    s.lineMode = 0 := by
  unfold lineMode
  dsimp only
  rw [if_neg (by omega)]

/-- A line without a playfield shows the background colour and priority in every column (R385). -/
theorem State.playfieldPixel_blank (s : State) (h : s.lineMode = 0) (column : Nat) : s.playfieldPixel column = s.border :=
  if_pos (.inl h)

/-- The columns outside the playfield width show the background colour and priority, scrolled or not (R385). -/
theorem State.playfieldPixel_border (s : State) (column : Nat) (h : s.inPlayfield column = false) :
    s.playfieldPixel column = s.border :=
  if_pos (.inr h)

/-- Width 0 is no playfield: no column of it, no byte consumed, and the memory scan stays (R376). -/
theorem State.width_zero (s : State) (h : s.playfieldWidth = 0) :
    (∀ column, s.playfieldPixel column = s.border) ∧ s.lineBytes = 0 := by
  refine ⟨fun column => s.playfieldPixel_border column ?_, if_pos (.inr h)⟩
  unfold inPlayfield
  simp only [h, ModeRow.widthBytes, Bool.and_eq_false_iff, decide_eq_false_iff_not]
  omega

/-- A missile leaves the player colours of a column alone (R386). -/
theorem State.drawOver_missile (s : State) (n : Fin 4) (d : Dot) : (s.drawOver (.missile n) d).players = d.players := rfl

/-- An object that is not drawn covers no column (R386). -/
theorem State.covers_drawn (s : State) (o : Sprite) (column : Nat) (h : s.covers o column = true) : s.drawn o = true := by
  unfold covers at h
  simp only [Bool.and_eq_true] at h
  exact h.1.1.1

/-- With nothing drawn the compositor changes nothing (R386). -/
theorem State.compositeSprites_nothing (s : State) (h : s.anyDrawn = false) : s.compositeSprites = s := by
  rw [compositeSprites, if_neg (by rw [h]; simp)]

/-- An object that is not drawn adds nothing to its collision registers (R388). -/
theorem State.collisionBits_notDrawn (s : State) (j : Nat)
    (h : s.drawn (Sprite.collisionOrder.getD (j % 8) (.missile 0)) = false) : s.collisionBits j = 0 := by
  unfold collisionBits
  dsimp only
  rw [h]
  rfl

end Sys2Proof.Machine
end

