-- ==== Sys2Proof/Laws/PerInstr.lean ====
section
/-! SUPPORT. The length of an encoding, instruction by instruction: what `encode` gives is as long as the instruction's
mode says (spec/30_encoding.md R101, R109). -/

namespace Sys2Proof.Laws.EncodedLength

/-- A well-formed instruction's encoding has the length of its mode. -/
def Statement (i : Instr) : Prop := i.WellFormed → (encode i).length = i.length

theorem lda (o : Operand) : Statement (.lda o) := by
  intro h; cases o <;> first | rfl | exact absurd h Bool.false_ne_true
theorem ldx (o : Operand) : Statement (.ldx o) := by
  intro h; cases o <;> first | rfl | exact absurd h Bool.false_ne_true
theorem ldy (o : Operand) : Statement (.ldy o) := by
  intro h; cases o <;> first | rfl | exact absurd h Bool.false_ne_true
theorem sta (o : Operand) : Statement (.sta o) := by
  intro h; cases o <;> first | rfl | exact absurd h Bool.false_ne_true
theorem stx (o : Operand) : Statement (.stx o) := by
  intro h; cases o <;> first | rfl | exact absurd h Bool.false_ne_true
theorem sty (o : Operand) : Statement (.sty o) := by
  intro h; cases o <;> first | rfl | exact absurd h Bool.false_ne_true
theorem tax : Statement (.tax) := fun _ => rfl
theorem tay : Statement (.tay) := fun _ => rfl
theorem txa : Statement (.txa) := fun _ => rfl
theorem tya : Statement (.tya) := fun _ => rfl
theorem tsx : Statement (.tsx) := fun _ => rfl
theorem txs : Statement (.txs) := fun _ => rfl
theorem pha : Statement (.pha) := fun _ => rfl
theorem php : Statement (.php) := fun _ => rfl
theorem pla : Statement (.pla) := fun _ => rfl
theorem plp : Statement (.plp) := fun _ => rfl
theorem and (o : Operand) : Statement (.and o) := by
  intro h; cases o <;> first | rfl | exact absurd h Bool.false_ne_true
theorem ora (o : Operand) : Statement (.ora o) := by
  intro h; cases o <;> first | rfl | exact absurd h Bool.false_ne_true
theorem eor (o : Operand) : Statement (.eor o) := by
  intro h; cases o <;> first | rfl | exact absurd h Bool.false_ne_true
theorem bit (o : Operand) : Statement (.bit o) := by
  intro h; cases o <;> first | rfl | exact absurd h Bool.false_ne_true
theorem cmp (o : Operand) : Statement (.cmp o) := by
  intro h; cases o <;> first | rfl | exact absurd h Bool.false_ne_true
theorem cpx (o : Operand) : Statement (.cpx o) := by
  intro h; cases o <;> first | rfl | exact absurd h Bool.false_ne_true
theorem cpy (o : Operand) : Statement (.cpy o) := by
  intro h; cases o <;> first | rfl | exact absurd h Bool.false_ne_true
theorem adc (o : Operand) : Statement (.adc o) := by
  intro h; cases o <;> first | rfl | exact absurd h Bool.false_ne_true
theorem sbc (o : Operand) : Statement (.sbc o) := by
  intro h; cases o <;> first | rfl | exact absurd h Bool.false_ne_true
theorem asl (o : Operand) : Statement (.asl o) := by
  intro h; cases o <;> first | rfl | exact absurd h Bool.false_ne_true
theorem lsr (o : Operand) : Statement (.lsr o) := by
  intro h; cases o <;> first | rfl | exact absurd h Bool.false_ne_true
theorem rol (o : Operand) : Statement (.rol o) := by
  intro h; cases o <;> first | rfl | exact absurd h Bool.false_ne_true
theorem ror (o : Operand) : Statement (.ror o) := by
  intro h; cases o <;> first | rfl | exact absurd h Bool.false_ne_true
theorem inc (o : Operand) : Statement (.inc o) := by
  intro h; cases o <;> first | rfl | exact absurd h Bool.false_ne_true
theorem dec (o : Operand) : Statement (.dec o) := by
  intro h; cases o <;> first | rfl | exact absurd h Bool.false_ne_true
theorem inx : Statement (.inx) := fun _ => rfl
theorem iny : Statement (.iny) := fun _ => rfl
theorem dex : Statement (.dex) := fun _ => rfl
theorem dey : Statement (.dey) := fun _ => rfl
theorem jmp (o : Operand) : Statement (.jmp o) := by
  intro h; cases o <;> first | rfl | exact absurd h Bool.false_ne_true
theorem jsr (target : Word) : Statement (.jsr target) := fun _ => rfl
theorem rts : Statement (.rts) := fun _ => rfl
theorem rti : Statement (.rti) := fun _ => rfl
theorem brk : Statement (.brk) := fun _ => rfl
theorem bpl (d : Byte) : Statement (.bpl d) := fun _ => rfl
theorem bmi (d : Byte) : Statement (.bmi d) := fun _ => rfl
theorem bvc (d : Byte) : Statement (.bvc d) := fun _ => rfl
theorem bvs (d : Byte) : Statement (.bvs d) := fun _ => rfl
theorem bcc (d : Byte) : Statement (.bcc d) := fun _ => rfl
theorem bcs (d : Byte) : Statement (.bcs d) := fun _ => rfl
theorem bne (d : Byte) : Statement (.bne d) := fun _ => rfl
theorem beq (d : Byte) : Statement (.beq d) := fun _ => rfl
theorem clc : Statement (.clc) := fun _ => rfl
theorem sec : Statement (.sec) := fun _ => rfl
theorem cli : Statement (.cli) := fun _ => rfl
theorem sei : Statement (.sei) := fun _ => rfl
theorem clv : Statement (.clv) := fun _ => rfl
theorem cld : Statement (.cld) := fun _ => rfl
theorem sed : Statement (.sed) := fun _ => rfl
theorem nop : Statement (.nop) := fun _ => rfl
theorem lax (o : Operand) : Statement (.lax o) := by
  intro h; cases o <;> first | rfl | exact absurd h Bool.false_ne_true
theorem sax (o : Operand) : Statement (.sax o) := by
  intro h; cases o <;> first | rfl | exact absurd h Bool.false_ne_true
theorem slo (o : Operand) : Statement (.slo o) := by
  intro h; cases o <;> first | rfl | exact absurd h Bool.false_ne_true
theorem rla (o : Operand) : Statement (.rla o) := by
  intro h; cases o <;> first | rfl | exact absurd h Bool.false_ne_true
theorem sre (o : Operand) : Statement (.sre o) := by
  intro h; cases o <;> first | rfl | exact absurd h Bool.false_ne_true
theorem rra (o : Operand) : Statement (.rra o) := by
  intro h; cases o <;> first | rfl | exact absurd h Bool.false_ne_true
theorem dcp (o : Operand) : Statement (.dcp o) := by
  intro h; cases o <;> first | rfl | exact absurd h Bool.false_ne_true
theorem isc (o : Operand) : Statement (.isc o) := by
  intro h; cases o <;> first | rfl | exact absurd h Bool.false_ne_true
theorem anc (op : Byte) (v : Byte) : Statement (.anc op v) := by
  intro h
  have e : opcodeOf (.anc op v) = some op := if_pos h
  simp [encode, e, Instr.operand, Instr.length, Operand.bytes, Operand.mode, Mode.length]
theorem alr (v : Byte) : Statement (.alr v) := fun _ => rfl
theorem arr (v : Byte) : Statement (.arr v) := fun _ => rfl
theorem sbx (v : Byte) : Statement (.sbx v) := fun _ => rfl
theorem usbc (v : Byte) : Statement (.usbc v) := fun _ => rfl
theorem sha (o : Operand) : Statement (.sha o) := by
  intro h; cases o <;> first | rfl | exact absurd h Bool.false_ne_true
theorem shx (w : Word) : Statement (.shx w) := fun _ => rfl
theorem shy (w : Word) : Statement (.shy w) := fun _ => rfl
theorem tas (w : Word) : Statement (.tas w) := fun _ => rfl
theorem las (w : Word) : Statement (.las w) := fun _ => rfl
theorem nopx (op : Byte) (o : Operand) : Statement (.nopx op o) := by
  intro h
  have e : opcodeOf (.nopx op o) = some op := if_pos h
  have f : o.bytes.length + 1 = o.mode.length := by cases o <;> rfl
  simp [encode, e, Instr.operand, Instr.length, f]
theorem ane (v : Byte) : Statement (.ane v) := fun _ => rfl
theorem lxa (v : Byte) : Statement (.lxa v) := fun _ => rfl
theorem jam (op : Byte) : Statement (.jam op) := by
  intro h
  have e : opcodeOf (.jam op) = some op := if_pos h
  simp [encode, e, Instr.operand, Instr.length, Operand.bytes, Operand.mode, Mode.length]

end Sys2Proof.Laws.EncodedLength
end

