-- ==== Sys2Proof/Laws/Sound.lean ====
section
/-! SUPPORT. What POKEY's catching up with the cycle counter leaves alone, and when a channel pulses. -/

namespace Sys2Proof.Machine

/-- What one round keeps, any number of rounds keeps. -/
theorem applyTimes_keeps {α : Type} {P : α → Prop} {f : α → α} (h : ∀ x, P x → P (f x)) (k : Nat) {x : α} (hx : P x) :
    P (applyTimes f k x) := by
  induction k generalizing x with
  | zero => exact hx
  | succ k ih => exact ih (h x hx)

/-- `sync` moves the channels, the LFSRs, the audio output and its own time; the interrupt and keyboard registers stay
(R398). -/
theorem State.sync_frame (s : State) (c : Nat) :
    ∃ channels lfsr17 lfsr9 lfsr5 lfsr4 audio, s.sync c = { s with pokey := { s.pokey with
      channels := channels, lfsr17 := lfsr17, lfsr9 := lfsr9, lfsr5 := lfsr5, lfsr4 := lfsr4, audio := audio
      lastSync := c } } := by
  have key : ∃ channels lfsr17 lfsr9 lfsr5 lfsr4 audio,
      applyTimes s.pokeyCycle (c - s.pokey.lastSync) s.pokey = { s.pokey with
        channels := channels, lfsr17 := lfsr17, lfsr9 := lfsr9, lfsr5 := lfsr5, lfsr4 := lfsr4, audio := audio } := by
    refine applyTimes_keeps (P := fun p => ∃ channels lfsr17 lfsr9 lfsr5 lfsr4 audio, p = { s.pokey with
      channels := channels, lfsr17 := lfsr17, lfsr9 := lfsr9, lfsr5 := lfsr5, lfsr4 := lfsr4, audio := audio })
      ?_ _ ⟨s.pokey.channels, s.pokey.lfsr17, s.pokey.lfsr9, s.pokey.lfsr5, s.pokey.lfsr4, s.pokey.audio, rfl⟩
    rintro p ⟨_, _, _, _, _, _, rfl⟩
    exact ⟨_, _, _, _, _, _, rfl⟩
  obtain ⟨channels, lfsr17, lfsr9, lfsr5, lfsr4, audio, h⟩ := key
  exact ⟨channels, lfsr17, lfsr9, lfsr5, lfsr4, audio, by unfold sync; rw [h]⟩

/-- Without audio output a `sync` generates none (R398). -/
theorem State.sync_silent (s : State) (c : Nat) (h : s.pokey.audio = none) : (s.sync c).pokey.audio = none :=
  applyTimes_keeps (P := fun p : Pokey => p.audio = none) (fun p hp => by show Option.map _ p.audio = none; rw [hp]; rfl)
    _ h

/-- A channel pulses at the end of its count, and starts it again (R391). -/
theorem Channel.clock_pulse (c : Channel) (divisor reload : Nat) (h1 : divisor ≤ c.clockAcc + 1) (h2 : c.counter ≤ 1) :
    c.clock divisor reload = ({ c with clockAcc := 0, counter := reload }, true) := by
  rw [clock, if_neg (by omega), if_neg (by omega)]

/-- Between two pulses a channel only counts. -/
theorem Channel.clock_counts (c : Channel) (divisor reload : Nat) (h : c.clockAcc + 1 < divisor ∨ 1 < c.counter) :
    (c.clock divisor reload).2 = false ∧ (c.clock divisor reload).1.output = c.output := by
  unfold clock
  split_ifs
  · exact ⟨rfl, rfl⟩
  · exact ⟨rfl, rfl⟩
  · omega

end Sys2Proof.Machine
end

