-- ==== Sys2Proof/Laws/Twin.lean ====
section
/-! SUPPORT. No store looks at the flags: replacing them commutes with `MemWrite`. -/

namespace Sys2Proof.Machine

/-- The flags replaced. -/
def State.withFlags (s : State) (f : Flags) : State := { s with flags := f }

theorem State.withFlags_sioCommand (s : State) (f : Flags) (image : List Byte) (c : Byte) (n : Nat) :
    (s.withFlags f).sioCommand image c n = (s.sioCommand image c n).withFlags f := by
  have hp : (s.withFlags f).params = s.params := rfl
  unfold sioCommand
  dsimp only
  rw [hp]
  split_ifs <;> rfl

theorem State.withFlags_sioCommandFrame (s : State) (f : Flags) (l : List Byte) :
    (s.withFlags f).sioCommandFrame l = (s.sioCommandFrame l).withFlags f := by
  unfold sioCommandFrame
  split_ifs
  · rfl
  · rfl
  · have : (s.withFlags f).disk = s.disk := rfl
    rw [this]
    cases s.disk
    · rfl
    · exact s.withFlags_sioCommand _ _ _ _

theorem State.withFlags_sioDataFrame (s : State) (f : Flags) (l : List Byte) :
    (s.withFlags f).sioDataFrame l = (s.sioDataFrame l).withFlags f := by
  have hd : (s.withFlags f).disk = s.disk := rfl
  have hs : (s.withFlags f).sio = s.sio := rfl
  unfold sioDataFrame
  dsimp only
  rw [hd, hs]
  split_ifs
  · rfl
  · split
    · rfl
    · split_ifs <;> rfl
  · split <;> rfl

theorem State.withFlags_sioByte (s : State) (f : Flags) (v : Byte) :
    (s.withFlags f).sioByte v = (s.sioByte v).withFlags f := by
  have hs : (s.withFlags f).sio = s.sio := rfl
  unfold sioByte
  dsimp only
  rw [hs]
  cases s.sio.phase <;> dsimp only <;> split_ifs <;>
    first | rfl | exact s.withFlags_sioCommandFrame _ _ | exact s.withFlags_sioDataFrame _ _

theorem State.withFlags_installRegion (s : State) (f : Flags) (r : Region) :
    (s.withFlags f).installRegion r = (s.installRegion r).withFlags f := by
  have h1 : (s.withFlags f).banks = s.banks := rfl
  have h2 : (s.withFlags f).wantsRom r = s.wantsRom r := rfl
  unfold installRegion
  rw [h1, h2]
  split_ifs <;> rfl

theorem State.withFlags_install (s : State) (f : Flags) : (s.withFlags f).install = s.install.withFlags f := by
  simp only [install, withFlags_installRegion]

theorem State.withFlags_devWrite (s : State) (f : Flags) (a : Nat) (v : Byte) :
    (s.withFlags f).devWrite a v = (s.devWrite a v).withFlags f := by
  unfold devWrite
  cases chipOf a <;> dsimp only
  · unfold gtiaWrite
    split_ifs <;> rfl
  · unfold pokeyWrite
    split_ifs
    · rfl
    · unfold seroutWrite
      rw [withFlags_sioByte]
      rfl
    · rfl
    · rfl
  · have h : (s.withFlags f).pia = s.pia := rfl
    unfold piaWrite
    rw [h]
    split_ifs
    all_goals try rfl
    unfold portbWrite
    rw [← withFlags_install]
    rfl
  · unfold anticWrite
    split_ifs <;> rfl

theorem State.withFlags_beforeDevWrite (s : State) (f : Flags) (a : Nat) :
    (s.withFlags f).beforeDevWrite a = (s.beforeDevWrite a).withFlags f := by
  unfold beforeDevWrite
  cases chipOf a <;> dsimp only
  split_ifs <;> rfl

/-- A store does the same whatever the flags are. -/
theorem State.withFlags_memWrite (s : State) (f : Flags) (a : Word) (v : Byte) :
    (s.withFlags f).memWrite a v = (s.memWrite a v).withFlags f := by
  have h : (s.withFlags f).banks = s.banks := rfl
  have hs : ∀ (t : State) (n : Nat), (t.withFlags f).setShadow n v = (t.setShadow n v).withFlags f := fun _ _ => rfl
  unfold memWrite
  rw [h]
  cases s.banks.dispatch a.toNat <;> dsimp only
  · rfl
  · rfl
  · rw [withFlags_beforeDevWrite, hs, withFlags_devWrite]

end Sys2Proof.Machine
end

