-- ==== Sys2Proof/Machine/Run.lean ====
section
/-! DEFINITION. The run loop (spec/40_step_and_addressing.md R130). -/

namespace Sys2Proof.Machine

/-- The run loop goes on: the target is not reached, or the event service of the last step is not over. -/
def State.runsOn (s : State) (target : Nat) : Bool := decide (s.cycle < target) || s.serviceOpen

/-- `run(target)`: steps until the cycle counter reaches the target, with a bound on the number of steps; `none` when
the bound is too small (R130). A target that is not in the future runs no step (D36). -/
def run (target : Nat) : Nat → State → Option Result
  | 0, s => if s.runsOn target then none else some (.next s)
  | k + 1, s =>
    if s.runsOn target then
      match step s with
      | .next t => run target k t
      | .fault r => some (.fault r)
      | .refused r => some (.refused r)
    else some (.next s)

end Sys2Proof.Machine
end

