-- ==== Sys2Proof/Tests/Slice0.lean ====
section
/-! SUPPORT. The model's own tests: ill-formed terms refused, words from the spec's encodings decoded, one step of each
instruction against the vectors of spec/95_test_vectors.md, device rules, and a witness for every obligation that has
hypotheses. -/

namespace Sys2Proof.Tests

open Sys2Proof Sys2Proof.Machine

/-! ## WellFormed refuses -/

theorem test_refuses_modes_a_mnemonic_lacks :
    (Instr.lda (.zpy 0)).wf = false ∧ (Instr.ldx (.zpx 0)).wf = false ∧ (Instr.ldy (.zpy 0)).wf = false ∧
    (Instr.sta (.imm 0)).wf = false ∧ (Instr.stx (.abx 0)).wf = false ∧ (Instr.sty (.aby 0)).wf = false ∧
    (Instr.bit (.imm 0)).wf = false ∧ (Instr.cpx (.zpx 0)).wf = false ∧ (Instr.cpy (.izy 0)).wf = false ∧
    (Instr.adc .acc).wf = false ∧ (Instr.sbc (.ind 0)).wf = false := by decide

theorem test_refuses_modify_forms :
    (Instr.asl (.aby 0)).wf = false ∧ (Instr.ror (.imm 0)).wf = false ∧ (Instr.inc .acc).wf = false ∧
    (Instr.dec (.izx 0)).wf = false ∧ (Instr.slo .acc).wf = false ∧ (Instr.isc (.imm 0)).wf = false := by decide

theorem test_refuses_jump_and_undocumented_forms :
    (Instr.jmp (.abx 0)).wf = false ∧ (Instr.jmp (.rel 0)).wf = false ∧ (Instr.lax (.imm 0)).wf = false ∧
    (Instr.sax (.aby 0)).wf = false ∧ (Instr.sha (.abs 0)).wf = false := by decide

theorem test_refuses_opcode_bytes_of_others :
    (Instr.anc 0x4B 0).wf = false ∧ (Instr.nopx 0xEA .imp).wf = false ∧ (Instr.nopx 0x80 (.zp 0)).wf = false ∧
    (Instr.nopx 0x04 (.imm 0)).wf = false ∧ (Instr.jam 0x82).wf = false := by decide

/-! ## Decoding: words written out from the rows of spec/opcode_table.json -/

/-- The bytes decode to the instruction, with nothing left over, and the instruction encodes to them. -/
def decodesTo (bytes : List Byte) (i : Instr) : Bool :=
  (match decode bytes with
    | .ok (j, rest) => j == i && rest.isEmpty
    | .error _ => false) && encode i == bytes

theorem test_decode_load_store_transfer :
    decodesTo [0b10110001, 0x5C] (.lda (.izy 0x5C)) = true ∧
    decodesTo [0b10101110, 0x34, 0x12] (.ldx (.abs 0x1234)) = true ∧
    decodesTo [0b10101100, 0x34, 0x12] (.ldy (.abs 0x1234)) = true ∧
    decodesTo [0b10010001, 0x5C] (.sta (.izy 0x5C)) = true ∧
    decodesTo [0b10001110, 0x34, 0x12] (.stx (.abs 0x1234)) = true ∧
    decodesTo [0b10001100, 0x34, 0x12] (.sty (.abs 0x1234)) = true ∧
    decodesTo [0b10101010] (.tax) = true ∧
    decodesTo [0b10101000] (.tay) = true ∧
    decodesTo [0b10001010] (.txa) = true ∧
    decodesTo [0b10011000] (.tya) = true ∧
    decodesTo [0b10111010] (.tsx) = true ∧
    decodesTo [0b10011010] (.txs) = true := by decide

theorem test_decode_stack :
    decodesTo [0b01001000] (.pha) = true ∧
    decodesTo [0b00001000] (.php) = true ∧
    decodesTo [0b01101000] (.pla) = true ∧
    decodesTo [0b00101000] (.plp) = true := by decide

theorem test_decode_logic_compare :
    decodesTo [0b00110001, 0x5C] (.and (.izy 0x5C)) = true ∧
    decodesTo [0b00010001, 0x5C] (.ora (.izy 0x5C)) = true ∧
    decodesTo [0b01010001, 0x5C] (.eor (.izy 0x5C)) = true ∧
    decodesTo [0b00101100, 0x34, 0x12] (.bit (.abs 0x1234)) = true ∧
    decodesTo [0b11010001, 0x5C] (.cmp (.izy 0x5C)) = true ∧
    decodesTo [0b11100100, 0x5C] (.cpx (.zp 0x5C)) = true ∧
    decodesTo [0b11000100, 0x5C] (.cpy (.zp 0x5C)) = true := by decide

theorem test_decode_add_subtract :
    decodesTo [0b01110001, 0x5C] (.adc (.izy 0x5C)) = true ∧
    decodesTo [0b11110001, 0x5C] (.sbc (.izy 0x5C)) = true := by decide

theorem test_decode_shift_step :
    decodesTo [0b00001110, 0x34, 0x12] (.asl (.abs 0x1234)) = true ∧
    decodesTo [0b01001110, 0x34, 0x12] (.lsr (.abs 0x1234)) = true ∧
    decodesTo [0b00101110, 0x34, 0x12] (.rol (.abs 0x1234)) = true ∧
    decodesTo [0b01101110, 0x34, 0x12] (.ror (.abs 0x1234)) = true ∧
    decodesTo [0b11110110, 0x5C] (.inc (.zpx 0x5C)) = true ∧
    decodesTo [0b11010110, 0x5C] (.dec (.zpx 0x5C)) = true ∧
    decodesTo [0b11101000] (.inx) = true ∧
    decodesTo [0b11001000] (.iny) = true ∧
    decodesTo [0b11001010] (.dex) = true ∧
    decodesTo [0b10001000] (.dey) = true := by decide

theorem test_decode_control_flow :
    decodesTo [0b01101100, 0x34, 0x12] (.jmp (.ind 0x1234)) = true ∧
    decodesTo [0b00100000, 0x34, 0x12] (.jsr 0x1234) = true ∧
    decodesTo [0b01100000] (.rts) = true ∧
    decodesTo [0b01000000] (.rti) = true ∧
    decodesTo [0b00000000] (.brk) = true ∧
    decodesTo [0b00010000, 0x5C] (.bpl 0x5C) = true ∧
    decodesTo [0b00110000, 0x5C] (.bmi 0x5C) = true ∧
    decodesTo [0b01010000, 0x5C] (.bvc 0x5C) = true ∧
    decodesTo [0b01110000, 0x5C] (.bvs 0x5C) = true ∧
    decodesTo [0b10010000, 0x5C] (.bcc 0x5C) = true ∧
    decodesTo [0b10110000, 0x5C] (.bcs 0x5C) = true ∧
    decodesTo [0b11010000, 0x5C] (.bne 0x5C) = true ∧
    decodesTo [0b11110000, 0x5C] (.beq 0x5C) = true := by decide

theorem test_decode_flags :
    decodesTo [0b00011000] (.clc) = true ∧
    decodesTo [0b00111000] (.sec) = true ∧
    decodesTo [0b01011000] (.cli) = true ∧
    decodesTo [0b01111000] (.sei) = true ∧
    decodesTo [0b10111000] (.clv) = true ∧
    decodesTo [0b11011000] (.cld) = true ∧
    decodesTo [0b11111000] (.sed) = true ∧
    decodesTo [0b11101010] (.nop) = true := by decide

theorem test_decode_undocumented :
    decodesTo [0b10110011, 0x5C] (.lax (.izy 0x5C)) = true ∧
    decodesTo [0b10001111, 0x34, 0x12] (.sax (.abs 0x1234)) = true ∧
    decodesTo [0b00010011, 0x5C] (.slo (.izy 0x5C)) = true ∧
    decodesTo [0b00110011, 0x5C] (.rla (.izy 0x5C)) = true ∧
    decodesTo [0b01010011, 0x5C] (.sre (.izy 0x5C)) = true ∧
    decodesTo [0b01110011, 0x5C] (.rra (.izy 0x5C)) = true ∧
    decodesTo [0b11010011, 0x5C] (.dcp (.izy 0x5C)) = true ∧
    decodesTo [0b11110011, 0x5C] (.isc (.izy 0x5C)) = true ∧
    decodesTo [0b00101011, 0x5C] (.anc 0x2B 0x5C) = true ∧
    decodesTo [0b01001011, 0x5C] (.alr 0x5C) = true ∧
    decodesTo [0b01101011, 0x5C] (.arr 0x5C) = true ∧
    decodesTo [0b11001011, 0x5C] (.sbx 0x5C) = true ∧
    decodesTo [0b11101011, 0x5C] (.usbc 0x5C) = true := by decide

theorem test_decode_unstable :
    decodesTo [0b10011111, 0x34, 0x12] (.sha (.aby 0x1234)) = true ∧
    decodesTo [0b10011110, 0x34, 0x12] (.shx 0x1234) = true ∧
    decodesTo [0b10011100, 0x34, 0x12] (.shy 0x1234) = true ∧
    decodesTo [0b10011011, 0x34, 0x12] (.tas 0x1234) = true ∧
    decodesTo [0b10111011, 0x34, 0x12] (.las 0x1234) = true ∧
    decodesTo [0b01110100, 0x5C] (.nopx 0x74 (.zpx 0x5C)) = true ∧
    decodesTo [0b10001011, 0x5C] (.ane 0x5C) = true ∧
    decodesTo [0b10101011, 0x5C] (.lxa 0x5C) = true ∧
    decodesTo [0b01100010] (.jam 0x62) = true := by decide

theorem test_decode_rejects_by_name :
    (decode [] matches .error .noOpcode) = true ∧ (decode [0xA9] matches .error .truncated) = true ∧
    (decode [0x4C, 0x00] matches .error .truncated) = true := by decide

theorem test_table_word_low_byte_first : decodeTableWord 24 0x12344C = some (.jmp (.abs 0x1234)) := by decide

/-! ## One step each -/

/-- The default start state of 95_test_vectors.md with registers, a status byte and memory: no event is armed. -/
def start (a x y sp : Byte) (pc : Word) (p : Byte) (mem : Memory) : State :=
  { State.reset with
    a := a, x := x, y := y, sp := sp, pc := pc, flags := unpack p, ram := mem, nextWake := none
    events := { State.reset.events with fetch := none } }

/-- One step answers the start state with these registers, flags, cycles and bytes of RAM, and nothing else changed. -/
def stepsTo (s : State) (a x y sp : Byte) (pc : Word) (p : Byte) (cycle : Nat) (stores : List Host.Cell) : Bool :=
  match step s with
  | .next t => t == { s with
      a := a, x := x, y := y, sp := sp, pc := pc, flags := unpack p, cycle := cycle
      ram := stores.foldl (fun m c => m.write c.1 c.2) s.ram }
  | _ => false

/-- A property of the state one step answers. -/
def afterStep (s : State) (p : State → Bool) : Bool :=
  match step s with
  | .next t => p t
  | _ => false

/-- V40.9 (95_test_vectors.md) -/
theorem test_lda_v40_9 :
    stepsTo (start 0x00 0x0F 0x00 0xFD 0x0600 0x00
      [(0x0000, 0x12), (0x00FF, 0x34), (0x0100, 0x99), (0x0600, 0xA1), (0x0601, 0xF0), (0x1234, 0x96)])
      0x96 0x0F 0x00 0xFD 0x0602 0x80 6 [] = true := by decide

/-- V40.4 (95_test_vectors.md) -/
theorem test_lda_v40_4 :
    stepsTo (start 0x00 0x01 0x00 0xFD 0x0600 0x00
      [(0x0600, 0xBD), (0x0601, 0xFF), (0x0602, 0x12), (0x1300, 0x55)])
      0x55 0x01 0x00 0xFD 0x0603 0x00 5 [] = true := by decide

/-- V40.2 (95_test_vectors.md) -/
theorem test_ldx_v40_2 :
    stepsTo (start 0x00 0x00 0x02 0xFD 0x0600 0x00
      [(0x0001, 0x5A), (0x0101, 0xEE), (0x0600, 0xB6), (0x0601, 0xFF)])
      0x00 0x5A 0x02 0xFD 0x0602 0x00 4 [] = true := by decide

/-- V41.4 (95_test_vectors.md) -/
theorem test_ldy_v41_4 :
    stepsTo (start 0x00 0x05 0x00 0xFD 0x0600 0x00
      [(0x0600, 0xBC), (0x0602, 0x20), (0x2005, 0x80)])
      0x00 0x05 0x80 0xFD 0x0603 0x80 4 [] = true := by decide

/-- V40.12 (95_test_vectors.md) -/
theorem test_sta_v40_12 :
    stepsTo (start 0x77 0x00 0xFF 0xFD 0x0600 0x00
      [(0x0040, 0x01), (0x0041, 0x30), (0x0600, 0x91), (0x0601, 0x40)])
      0x77 0x00 0xFF 0xFD 0x0602 0x00 6 [(0x3100, 0x77)] = true := by decide

/-- V40.16 (95_test_vectors.md) -/
theorem test_stx_v40_16 :
    stepsTo (start 0x00 0x9C 0x00 0xFD 0x0600 0x00
      [(0x0600, 0x8E), (0x0601, 0x34), (0x0602, 0x12)])
      0x00 0x9C 0x00 0xFD 0x0603 0x00 4 [(0x1234, 0x9C)] = true := by decide

/-- V40.15 (95_test_vectors.md) -/
theorem test_sty_v40_15 :
    stepsTo (start 0x00 0x00 0x07 0xFD 0x0600 0x00
      [(0x0600, 0x84), (0x0601, 0x20)])
      0x00 0x00 0x07 0xFD 0x0602 0x00 3 [(0x0020, 0x07)] = true := by decide

/-- V41.8 (95_test_vectors.md) -/
theorem test_tax_v41_8 :
    stepsTo (start 0x80 0x00 0x00 0xFD 0x0600 0x00
      [(0x0600, 0xAA)])
      0x80 0x80 0x00 0xFD 0x0601 0x80 2 [] = true := by decide

/-- V41.9 (95_test_vectors.md) -/
theorem test_tay_v41_9 :
    stepsTo (start 0x00 0x00 0x01 0xFD 0x0600 0x00
      [(0x0600, 0xA8)])
      0x00 0x00 0x00 0xFD 0x0601 0x02 2 [] = true := by decide

/-- V41.10 (95_test_vectors.md) -/
theorem test_txa_v41_10 :
    stepsTo (start 0x00 0x7F 0x00 0xFD 0x0600 0x82
      [(0x0600, 0x8A)])
      0x7F 0x7F 0x00 0xFD 0x0601 0x00 2 [] = true := by decide

/-- V41.11 (95_test_vectors.md) -/
theorem test_tya_v41_11 :
    stepsTo (start 0x01 0x00 0x00 0xFD 0x0600 0x00
      [(0x0600, 0x98)])
      0x00 0x00 0x00 0xFD 0x0601 0x02 2 [] = true := by decide

/-- V41.12 (95_test_vectors.md) -/
theorem test_tsx_v41_12 :
    stepsTo (start 0x00 0x01 0x00 0x00 0x0600 0x00
      [(0x0600, 0xBA)])
      0x00 0x00 0x00 0x00 0x0601 0x02 2 [] = true := by decide

/-- V41.13 (95_test_vectors.md) -/
theorem test_txs_v41_13 :
    stepsTo (start 0x00 0x00 0x00 0xFD 0x0600 0x80
      [(0x0600, 0x9A)])
      0x00 0x00 0x00 0x00 0x0601 0x80 2 [] = true := by decide

/-- V42.1 (95_test_vectors.md) -/
theorem test_pha_v42_1 :
    stepsTo (start 0xAB 0x00 0x00 0x00 0x0600 0x00
      [(0x0600, 0x48)])
      0xAB 0x00 0x00 0xFF 0x0601 0x00 3 [(0x0100, 0xAB)] = true := by decide

/-- V42.4 (95_test_vectors.md) -/
theorem test_php_v42_4 :
    stepsTo (start 0x00 0x00 0x00 0xFD 0x0600 0xDF
      [(0x0600, 0x08)])
      0x00 0x00 0x00 0xFC 0x0601 0xDF 3 [(0x01FD, 0xFF)] = true := by decide

/-- V42.2 (95_test_vectors.md) -/
theorem test_pla_v42_2 :
    stepsTo (start 0x11 0x00 0x00 0xFF 0x0600 0x00
      [(0x0600, 0x68)])
      0x00 0x00 0x00 0x00 0x0601 0x02 4 [] = true := by decide

/-- V42.6 (95_test_vectors.md) -/
theorem test_plp_v42_6 :
    stepsTo (start 0x00 0x00 0x00 0xFC 0x0600 0x00
      [(0x01FD, 0xFF), (0x0600, 0x28)])
      0x00 0x00 0x00 0xFD 0x0601 0xDF 4 [] = true := by decide

/-- V43.2 (95_test_vectors.md) -/
theorem test_and_v43_2 :
    stepsTo (start 0xFF 0x80 0x00 0xFD 0x0600 0x00
      [(0x0600, 0x3D), (0x0601, 0x80), (0x0602, 0x20), (0x2100, 0x81)])
      0x81 0x80 0x00 0xFD 0x0603 0x80 5 [] = true := by decide

/-- V43.3 (95_test_vectors.md) -/
theorem test_ora_v43_3 :
    stepsTo (start 0x00 0x00 0x00 0xFD 0x0600 0x00
      [(0x0600, 0x05), (0x0601, 0x10)])
      0x00 0x00 0x00 0xFD 0x0602 0x02 3 [] = true := by decide

/-- V43.4 (95_test_vectors.md) -/
theorem test_eor_v43_4 :
    stepsTo (start 0x0F 0x00 0x00 0xFD 0x0600 0x00
      [(0x0600, 0x49), (0x0601, 0xFF)])
      0xF0 0x00 0x00 0xFD 0x0602 0x80 2 [] = true := by decide

/-- V43.5 (95_test_vectors.md) -/
theorem test_bit_v43_5 :
    stepsTo (start 0xFF 0x00 0x00 0xFD 0x0600 0x80
      [(0x0600, 0x2C), (0x0602, 0x20), (0x2000, 0x40)])
      0xFF 0x00 0x00 0xFD 0x0603 0x40 4 [] = true := by decide

/-- V43.10 (95_test_vectors.md) -/
theorem test_cmp_v43_10 :
    stepsTo (start 0x10 0x00 0x01 0xFD 0x0600 0x00
      [(0x0010, 0xFF), (0x0011, 0x20), (0x0600, 0xD1), (0x0601, 0x10), (0x2100, 0x11)])
      0x10 0x00 0x01 0xFD 0x0602 0x80 6 [] = true := by decide

/-- V43.11 (95_test_vectors.md) -/
theorem test_cpx_v43_11 :
    stepsTo (start 0x00 0x05 0x00 0xFD 0x0600 0x00
      [(0x0010, 0x06), (0x0600, 0xE4), (0x0601, 0x10)])
      0x00 0x05 0x00 0xFD 0x0602 0x80 3 [] = true := by decide

/-- V43.12 (95_test_vectors.md) -/
theorem test_cpy_v43_12 :
    stepsTo (start 0x00 0x00 0x7F 0xFD 0x0600 0x08
      [(0x0600, 0xCC), (0x0602, 0x20), (0x2000, 0x7F)])
      0x00 0x00 0x7F 0xFD 0x0603 0x0B 4 [] = true := by decide

/-- V44.5 (95_test_vectors.md) -/
theorem test_adc_v44_5 :
    stepsTo (start 0x99 0x00 0x00 0xFD 0x0600 0x08
      [(0x0600, 0x69), (0x0601, 0x01)])
      0x00 0x00 0x00 0xFD 0x0602 0x89 2 [] = true := by decide

/-- V44.4 (95_test_vectors.md) -/
theorem test_adc_v44_4 :
    stepsTo (start 0x3F 0x00 0x00 0xFD 0x0600 0x01
      [(0x0010, 0x40), (0x0600, 0x65), (0x0601, 0x10)])
      0x80 0x00 0x00 0xFD 0x0602 0xC0 3 [] = true := by decide

/-- V44.15 (95_test_vectors.md) -/
theorem test_sbc_v44_15 :
    stepsTo (start 0x00 0x00 0x00 0xFD 0x0600 0x00
      [(0x0600, 0xE9)])
      0xFF 0x00 0x00 0xFD 0x0602 0x80 2 [] = true := by decide

/-- V44.20 (95_test_vectors.md) -/
theorem test_sbc_v44_20 :
    stepsTo (start 0x00 0x00 0x00 0xFD 0x0600 0x09
      [(0x0600, 0xE9), (0x0601, 0x0F)])
      0x9B 0x00 0x00 0xFD 0x0602 0x88 2 [] = true := by decide

/-- V45.1 (95_test_vectors.md) -/
theorem test_asl_v45_1 :
    stepsTo (start 0x80 0x00 0x00 0xFD 0x0600 0x00
      [(0x0600, 0x0A)])
      0x00 0x00 0x00 0xFD 0x0601 0x03 2 [] = true := by decide

/-- V45.2 (95_test_vectors.md) -/
theorem test_asl_v45_2 :
    stepsTo (start 0x99 0x01 0x00 0xFD 0x0600 0x00
      [(0x0600, 0x1E), (0x0601, 0xFF), (0x0602, 0x20), (0x2100, 0x41)])
      0x99 0x01 0x00 0xFD 0x0603 0x80 7 [(0x2100, 0x82)] = true := by decide

/-- V45.4 (95_test_vectors.md) -/
theorem test_lsr_v45_4 :
    stepsTo (start 0x00 0x01 0x00 0xFD 0x0600 0x00
      [(0x0011, 0xFE), (0x0600, 0x56), (0x0601, 0x10)])
      0x00 0x01 0x00 0xFD 0x0602 0x00 6 [(0x0011, 0x7F)] = true := by decide

/-- V45.6 (95_test_vectors.md) -/
theorem test_rol_v45_6 :
    stepsTo (start 0x00 0x00 0x00 0xFD 0x0600 0x01
      [(0x0600, 0x2E), (0x0602, 0x20), (0x2000, 0x7F)])
      0x00 0x00 0x00 0xFD 0x0603 0x80 6 [(0x2000, 0xFF)] = true := by decide

/-- V45.7 (95_test_vectors.md) -/
theorem test_ror_v45_7 :
    stepsTo (start 0x00 0x00 0x00 0xFD 0x0600 0x01
      [(0x0600, 0x6A)])
      0x80 0x00 0x00 0xFD 0x0601 0x80 2 [] = true := by decide

/-- V45.8 (95_test_vectors.md) -/
theorem test_ror_v45_8 :
    stepsTo (start 0x00 0x00 0x00 0xFD 0x0600 0x00
      [(0x0010, 0x01), (0x0600, 0x66), (0x0601, 0x10)])
      0x00 0x00 0x00 0xFD 0x0602 0x03 5 [(0x0010, 0x00)] = true := by decide

/-- V40.8 (95_test_vectors.md) -/
theorem test_inc_v40_8 :
    stepsTo (start 0x00 0x01 0x00 0xFD 0x0600 0x00
      [(0x0600, 0xFE), (0x0601, 0xFF), (0x0602, 0x12), (0x1300, 0x7F)])
      0x00 0x01 0x00 0xFD 0x0603 0x80 7 [(0x1300, 0x80)] = true := by decide

/-- V45.11 (95_test_vectors.md) -/
theorem test_dec_v45_11 :
    stepsTo (start 0x00 0x00 0x00 0xFD 0x0600 0x00
      [(0x0600, 0xCE), (0x0602, 0x20), (0x2000, 0x01)])
      0x00 0x00 0x00 0xFD 0x0603 0x02 6 [(0x2000, 0x00)] = true := by decide

/-- V45.13 (95_test_vectors.md) -/
theorem test_inx_v45_13 :
    stepsTo (start 0x00 0xFF 0x00 0xFD 0x0600 0x00
      [(0x0600, 0xE8)])
      0x00 0x00 0x00 0xFD 0x0601 0x02 2 [] = true := by decide

/-- V45.14 (95_test_vectors.md) -/
theorem test_iny_v45_14 :
    stepsTo (start 0x00 0x00 0x7F 0xFD 0x0600 0x00
      [(0x0600, 0xC8)])
      0x00 0x00 0x80 0xFD 0x0601 0x80 2 [] = true := by decide

/-- V45.15 (95_test_vectors.md) -/
theorem test_dex_v45_15 :
    stepsTo (start 0x00 0x00 0x00 0xFD 0x0600 0x00
      [(0x0600, 0xCA)])
      0x00 0xFF 0x00 0xFD 0x0601 0x80 2 [] = true := by decide

/-- V45.16 (95_test_vectors.md) -/
theorem test_dey_v45_16 :
    stepsTo (start 0x00 0x00 0x01 0xFD 0x0600 0x00
      [(0x0600, 0x88)])
      0x00 0x00 0x00 0xFD 0x0601 0x02 2 [] = true := by decide

/-- V40.13 (95_test_vectors.md) -/
theorem test_jmp_v40_13 :
    stepsTo (start 0x00 0x00 0x00 0xFD 0x0600 0x00
      [(0x0200, 0x40), (0x0300, 0x50), (0x0600, 0x6C), (0x0601, 0xFF), (0x0602, 0x02)])
      0x00 0x00 0x00 0xFD 0x4000 0x00 5 [] = true := by decide

/-- V46.1 (95_test_vectors.md) -/
theorem test_jmp_v46_1 :
    stepsTo (start 0x00 0x00 0x00 0xFD 0x0600 0x00
      [(0x0600, 0x4C), (0x0602, 0x06)])
      0x00 0x00 0x00 0xFD 0x0600 0x00 3 [] = true := by decide

/-- V46.2 (95_test_vectors.md) -/
theorem test_jsr_v46_2 :
    stepsTo (start 0x00 0x00 0x00 0x00 0x0600 0x00
      [(0x0600, 0x20), (0x0602, 0x30)])
      0x00 0x00 0x00 0xFE 0x3000 0x00 6 [(0x0100, 0x06), (0x01FF, 0x02)] = true := by decide

/-- V46.3 (95_test_vectors.md) -/
theorem test_rts_v46_3 :
    stepsTo (start 0x00 0x00 0x00 0xFB 0x0600 0x00
      [(0x01FC, 0xFF), (0x01FD, 0xFF), (0x0600, 0x60)])
      0x00 0x00 0x00 0xFD 0x0000 0x00 6 [] = true := by decide

/-- V46.4 (95_test_vectors.md) -/
theorem test_rti_v46_4 :
    stepsTo (start 0x00 0x00 0x00 0xFA 0x0600 0x00
      [(0x01FB, 0xFF), (0x01FC, 0x34), (0x01FD, 0x12), (0x0600, 0x40)])
      0x00 0x00 0x00 0xFD 0x1234 0xDF 6 [] = true := by decide

/-- V46.5 (95_test_vectors.md) -/
theorem test_brk_v46_5 :
    stepsTo (start 0x00 0x00 0x00 0xFD 0x0600 0x8C
      [(0x0601, 0xEA), (0xFFFF, 0x07)])
      0x00 0x00 0x00 0xFA 0x0700 0x8C 7 [(0x01FD, 0x06), (0x01FC, 0x02), (0x01FB, 0xBC)] = true := by decide

/-- V46.7 (95_test_vectors.md) -/
theorem test_bpl_v46_7 :
    stepsTo (start 0x00 0x00 0x00 0xFD 0x0600 0x00
      [(0x0600, 0x10), (0x0601, 0x7F)])
      0x00 0x00 0x00 0xFD 0x0681 0x00 3 [] = true := by decide

/-- V46.8 (95_test_vectors.md) -/
theorem test_bmi_v46_8 :
    stepsTo (start 0x00 0x00 0x00 0xFD 0x0600 0x80
      [(0x0600, 0x30), (0x0601, 0x80)])
      0x00 0x00 0x00 0xFD 0x0582 0x80 4 [] = true := by decide

/-- V46.9 (95_test_vectors.md) -/
theorem test_bvc_v46_9 :
    stepsTo (start 0x00 0x00 0x00 0xFD 0x0600 0x00
      [(0x0600, 0x50)])
      0x00 0x00 0x00 0xFD 0x0602 0x00 3 [] = true := by decide

/-- V46.10 (95_test_vectors.md) -/
theorem test_bvs_v46_10 :
    stepsTo (start 0x00 0x00 0x00 0xFD 0x0600 0x40
      [(0x0600, 0x70), (0x0601, 0x10)])
      0x00 0x00 0x00 0xFD 0x0612 0x40 3 [] = true := by decide

/-- V46.11 (95_test_vectors.md) -/
theorem test_bcc_v46_11 :
    stepsTo (start 0x00 0x00 0x00 0xFD 0x0600 0x01
      [(0x0600, 0x90), (0x0601, 0x02)])
      0x00 0x00 0x00 0xFD 0x0602 0x01 2 [] = true := by decide

/-- V46.12 (95_test_vectors.md) -/
theorem test_bcs_v46_12 :
    stepsTo (start 0x00 0x00 0x00 0xFD 0x06FC 0x01
      [(0x06FC, 0xB0), (0x06FD, 0x03)])
      0x00 0x00 0x00 0xFD 0x0701 0x01 4 [] = true := by decide

/-- V46.13 (95_test_vectors.md) -/
theorem test_bne_v46_13 :
    stepsTo (start 0x00 0x00 0x00 0xFD 0x0700 0x00
      [(0x0700, 0xD0), (0x0701, 0xFC)])
      0x00 0x00 0x00 0xFD 0x06FE 0x00 4 [] = true := by decide

/-- V46.14 (95_test_vectors.md) -/
theorem test_beq_v46_14 :
    stepsTo (start 0x00 0x00 0x00 0xFD 0x06FE 0x02
      [(0x06FE, 0xF0)])
      0x00 0x00 0x00 0xFD 0x0700 0x02 3 [] = true := by decide

/-- V47.1 (95_test_vectors.md) -/
theorem test_clc_v47_1 :
    stepsTo (start 0x00 0x00 0x00 0xFD 0x0600 0x81
      [(0x0600, 0x18)])
      0x00 0x00 0x00 0xFD 0x0601 0x80 2 [] = true := by decide

/-- V47.2 (95_test_vectors.md) -/
theorem test_sec_v47_2 :
    stepsTo (start 0x00 0x00 0x00 0xFD 0x0600 0x00
      [(0x0600, 0x38)])
      0x00 0x00 0x00 0xFD 0x0601 0x01 2 [] = true := by decide

/-- V47.3 (95_test_vectors.md) -/
theorem test_cli_v47_3 :
    stepsTo (start 0x00 0x00 0x00 0xFD 0x0600 0x04
      [(0x0600, 0x58)])
      0x00 0x00 0x00 0xFD 0x0601 0x00 2 [] = true := by decide

/-- V47.4 (95_test_vectors.md) -/
theorem test_sei_v47_4 :
    stepsTo (start 0x00 0x00 0x00 0xFD 0x0600 0x00
      [(0x0600, 0x78)])
      0x00 0x00 0x00 0xFD 0x0601 0x04 2 [] = true := by decide

/-- V47.5 (95_test_vectors.md) -/
theorem test_clv_v47_5 :
    stepsTo (start 0x00 0x00 0x00 0xFD 0x0600 0x41
      [(0x0600, 0xB8)])
      0x00 0x00 0x00 0xFD 0x0601 0x01 2 [] = true := by decide

/-- V47.6 (95_test_vectors.md) -/
theorem test_cld_v47_6 :
    stepsTo (start 0x00 0x00 0x00 0xFD 0x0600 0x08
      [(0x0600, 0xD8)])
      0x00 0x00 0x00 0xFD 0x0601 0x00 2 [] = true := by decide

/-- V47.7 (95_test_vectors.md) -/
theorem test_sed_v47_7 :
    stepsTo (start 0x00 0x00 0x00 0xFD 0x0600 0x00
      [(0x0600, 0xF8)])
      0x00 0x00 0x00 0xFD 0x0601 0x08 2 [] = true := by decide

/-- V47.8 (95_test_vectors.md) -/
theorem test_nop_v47_8 :
    stepsTo (start 0x12 0x00 0x00 0xFD 0x0600 0x82
      [(0x0600, 0xEA)])
      0x12 0x00 0x00 0xFD 0x0601 0x82 2 [] = true := by decide

/-- V48.2 (95_test_vectors.md) -/
theorem test_lax_v48_2 :
    stepsTo (start 0x00 0x00 0x02 0xFD 0x0600 0x00
      [(0x0011, 0x30), (0x0600, 0xB3), (0x0601, 0x10), (0x3002, 0xC1)])
      0xC1 0xC1 0x02 0xFD 0x0602 0x80 5 [] = true := by decide

/-- V48.4 (95_test_vectors.md) -/
theorem test_sax_v48_4 :
    stepsTo (start 0xFF 0x81 0x20 0xFD 0x0600 0x00
      [(0x0600, 0x97), (0x0601, 0xF0)])
      0xFF 0x81 0x20 0xFD 0x0602 0x00 4 [(0x0010, 0x81)] = true := by decide

/-- V48.5 (95_test_vectors.md) -/
theorem test_slo_v48_5 :
    stepsTo (start 0x10 0x01 0x00 0xFD 0x0600 0x00
      [(0x0600, 0x1F), (0x0601, 0xFF), (0x0602, 0x20), (0x2100, 0xC0)])
      0x90 0x01 0x00 0xFD 0x0603 0x81 7 [(0x2100, 0x80)] = true := by decide

/-- V48.6 (95_test_vectors.md) -/
theorem test_rla_v48_6 :
    stepsTo (start 0x0F 0x00 0x00 0xFD 0x0600 0x00
      [(0x0600, 0x2F), (0x0602, 0x20), (0x2000, 0x87)])
      0x0E 0x00 0x00 0xFD 0x0603 0x01 6 [(0x2000, 0x0E)] = true := by decide

/-- V48.7 (95_test_vectors.md) -/
theorem test_sre_v48_7 :
    stepsTo (start 0xFF 0x00 0x05 0xFD 0x0600 0x00
      [(0x0600, 0x5B), (0x0602, 0x20), (0x2005, 0xFF)])
      0x80 0x00 0x05 0xFD 0x0603 0x81 7 [(0x2005, 0x7F)] = true := by decide

/-- V48.8 (95_test_vectors.md) -/
theorem test_rra_v48_8 :
    stepsTo (start 0x01 0x00 0x00 0xFD 0x0600 0x01
      [(0x0010, 0x02), (0x0600, 0x67), (0x0601, 0x10)])
      0x82 0x00 0x00 0xFD 0x0602 0x80 5 [(0x0010, 0x81)] = true := by decide

/-- V48.9 (95_test_vectors.md) -/
theorem test_rra_v48_9 :
    stepsTo (start 0x19 0x00 0x00 0xFD 0x0600 0x08
      [(0x0010, 0x12), (0x0600, 0x67), (0x0601, 0x10)])
      0x28 0x00 0x00 0xFD 0x0602 0x08 5 [(0x0010, 0x09)] = true := by decide

/-- V48.10 (95_test_vectors.md) -/
theorem test_dcp_v48_10 :
    stepsTo (start 0x00 0x00 0x00 0xFD 0x0600 0x00
      [(0x0011, 0x20), (0x0600, 0xC3), (0x0601, 0x10)])
      0x00 0x00 0x00 0xFD 0x0602 0x00 8 [(0x2000, 0xFF)] = true := by decide

/-- V48.11 (95_test_vectors.md) -/
theorem test_isc_v48_11 :
    stepsTo (start 0x00 0x01 0x00 0xFD 0x0600 0x01
      [(0x0600, 0xFF), (0x0602, 0x20), (0x2001, 0xFF)])
      0x00 0x01 0x00 0xFD 0x0603 0x03 7 [(0x2001, 0x00)] = true := by decide

/-- V48.13 (95_test_vectors.md) -/
theorem test_anc_v48_13 :
    stepsTo (start 0xFF 0x00 0x00 0xFD 0x0600 0x01
      [(0x0600, 0x2B), (0x0601, 0x7F)])
      0x7F 0x00 0x00 0xFD 0x0602 0x00 2 [] = true := by decide

/-- V48.14 (95_test_vectors.md) -/
theorem test_alr_v48_14 :
    stepsTo (start 0x81 0x00 0x00 0xFD 0x0600 0x01
      [(0x0600, 0x4B), (0x0601, 0xFE)])
      0x40 0x00 0x00 0xFD 0x0602 0x00 2 [] = true := by decide

/-- V48.15 (95_test_vectors.md) -/
theorem test_arr_v48_15 :
    stepsTo (start 0xFF 0x00 0x00 0xFD 0x0600 0x08
      [(0x0600, 0x6B), (0x0601, 0x7F)])
      0x3F 0x00 0x00 0xFD 0x0602 0x48 2 [] = true := by decide

/-- V48.16 (95_test_vectors.md) -/
theorem test_sbx_v48_16 :
    stepsTo (start 0x3F 0x1F 0x00 0xFD 0x0600 0x41
      [(0x0600, 0xCB), (0x0601, 0x40)])
      0x3F 0xDF 0x00 0xFD 0x0602 0xC0 2 [] = true := by decide

/-- V48.17 (95_test_vectors.md) -/
theorem test_usbc_v48_17 :
    stepsTo (start 0x00 0x00 0x00 0xFD 0x0600 0x09
      [(0x0600, 0xEB), (0x0601, 0x01)])
      0x99 0x00 0x00 0xFD 0x0602 0x88 2 [] = true := by decide

/-- V48.18 (95_test_vectors.md) -/
theorem test_sha_v48_18 :
    stepsTo (start 0xFF 0x0F 0x05 0xFD 0x0600 0x00
      [(0x0010, 0xFE), (0x0011, 0x20), (0x0600, 0x93), (0x0601, 0x10)])
      0xFF 0x0F 0x05 0xFD 0x0602 0x00 6 [(0x2103, 0x01)] = true := by decide

/-- V48.19 (95_test_vectors.md) -/
theorem test_sha_v48_19 :
    stepsTo (start 0xFF 0xFF 0x00 0xFD 0x0600 0x00
      [(0x0600, 0x9F), (0x0602, 0xFF)])
      0xFF 0xFF 0x00 0xFD 0x0603 0x00 5 [(0xFF00, 0x00)] = true := by decide

/-- V48.20 (95_test_vectors.md) -/
theorem test_shx_v48_20 :
    stepsTo (start 0x00 0xFF 0x01 0xFD 0x0600 0x00
      [(0x0600, 0x9E), (0x0601, 0xFF), (0x0602, 0x20)])
      0x00 0xFF 0x01 0xFD 0x0603 0x00 5 [(0x2100, 0x21)] = true := by decide

/-- V48.21 (95_test_vectors.md) -/
theorem test_shy_v48_21 :
    stepsTo (start 0x00 0x00 0xFF 0xFD 0x0600 0x00
      [(0x0600, 0x9C), (0x0602, 0x40)])
      0x00 0x00 0xFF 0xFD 0x0603 0x00 5 [(0x4000, 0x41)] = true := by decide

/-- V48.22 (95_test_vectors.md) -/
theorem test_tas_v48_22 :
    stepsTo (start 0xAA 0xCC 0x10 0xFD 0x0600 0x00
      [(0x0600, 0x9B), (0x0602, 0x7F)])
      0xAA 0xCC 0x10 0x88 0x0603 0x00 5 [(0x7F10, 0x80)] = true := by decide

/-- V48.23 (95_test_vectors.md) -/
theorem test_las_v48_23 :
    stepsTo (start 0x00 0x00 0x01 0x0F 0x0600 0x00
      [(0x0600, 0xBB), (0x0601, 0xFF), (0x0602, 0x20), (0x2100, 0xF5)])
      0x05 0x05 0x01 0x05 0x0603 0x00 5 [] = true := by decide

/-- V48.26 (95_test_vectors.md) -/
theorem test_nopx_v48_26 :
    stepsTo (start 0x00 0x80 0x00 0xFD 0x0600 0x00
      [(0x0600, 0xFC), (0x0601, 0x80), (0x0602, 0x20)])
      0x00 0x80 0x00 0xFD 0x0603 0x00 5 [] = true := by decide

/-- V48.29 (95_test_vectors.md) -/
theorem test_ane_v48_29 :
    stepsTo (start 0xFF 0xFF 0x00 0xFD 0x0600 0x00
      [(0x0600, 0x8B)])
      0xFF 0xFF 0x00 0xFD 0x0602 0x00 2 [] = true := by decide

/-- V48.30 (95_test_vectors.md) -/
theorem test_lxa_v48_30 :
    stepsTo (start 0x00 0x00 0x00 0xFD 0x0600 0x00
      [(0x0600, 0xAB), (0x0601, 0xFF)])
      0x00 0x00 0x00 0xFD 0x0602 0x00 2 [] = true := by decide

/-- R302, R303 -/
theorem test_jam : stepsTo (start 0 0 0 0xFD 0x0600 0 [(0x0600, 0xF2)]) 0 0 0 0xFD 0x0601 0 2 [] = true := by decide

/-! ## Interrupts, reset, stalls, banking, devices -/

/-- The vectors and the NOP of section 2.10. -/
def gate (p : Byte) (pending : Nat) : State :=
  { start 0 0 0 0xFD 0x0600 p [(0x0600, 0xEA), (0xFFFB, 0x08), (0xFFFF, 0x07)] with irqPending := pending }

/-- V60.1 -/
theorem test_irq_service_v60_1 :
    afterStep (gate 0x03 1) (fun t => t.pc == 0x0700 && t.sp == 0xFA && t.flags == unpack 0x07 && t.cycle == 7 &&
      t.irqPending == 0 && t.ram.bytes 0x01FB 3 == [0x23, 0x00, 0x06]) = true := by decide

/-- V60.2 -/
theorem test_irq_masked_v60_2 :
    afterStep (gate 0x04 3) (fun t => t.pc == 0x0601 && t.irqPending == 3 && t.cycle == 2 && t.sp == 0xFD) = true := by
  decide

/-- V60.3 -/
theorem test_stall_outranks_irq_v60_3 :
    afterStep { gate 0 1 with stallUntil := 50 } (fun t => t.cycle == 50 && t.irqPending == 1 && t.pc == 0x0600) =
      true := by decide

/-- V60.4 -/
theorem test_nmi_v60_4 :
    let t := (gate 0x8C 0).nmi
    t.pc = 0x0800 ∧ t.sp = 0xFA ∧ t.flags = unpack 0x8C ∧ t.cycle = 7 ∧ t.ram.bytes 0x01FB 3 = [0xAC, 0x00, 0x06] := by
  decide

/-- V70.1 -/
theorem test_reset_v70_1 :
    let s := { start 0x11 0x22 0x33 0x80 0x1234 0x89 [(0xFFFD, 0x06)] with cycle := 1000, stallUntil := 1100, irqPending := 5 }
    s.resetCpu = { s with sp := 0xFD, pc := 0x0600, irqPending := 0, flags := unpack 0x8D } := by decide

/-- V61.1: the store, then the stall to the boundary, then the NOP. -/
def wsync : State :=
  { State.reset with
    cycle := 10, pc := 0x0600, flags := unpack 0
    ram := [(0x0600, 0x8D), (0x0601, 0x0A), (0x0602, 0xD4), (0x0603, 0xEA)] }

theorem test_wsync_v61_1 :
    afterStep wsync (fun t => t.cycle == 14 && t.stallUntil == 114 && t.antic.scanline == 0 &&
      afterStep t (fun u => u.cycle == 114 && u.antic.scanline == 1 && u.antic.lineStart == 114 && u.pc == 0x0603)) =
      true := by decide

/-- The first step of V20.1 that banks the OS out, on an image whose first byte is `$C0`: the byte stored under the ROM
appears, and it stays when the ROM comes back. -/
def banked : State :=
  ({ State.reset with osRom := some [0xC0], pia := { State.reset.pia with pbctl := 4 } }.install).memWrite 0xC000 0x5A

theorem test_bank_switch_v20_1 :
    let t := banked.memWrite 0xD301 0xFE
    (banked.memRead 0xC000).1 = 0xC0 ∧ (t.memRead 0xC000).1 = 0x5A ∧
    ((t.memWrite 0xD301 0xFF).memRead 0xC000).1 = 0xC0 := by decide

/-- V20.2 -/
theorem test_unmapped_device_v20_2 :
    stepsTo (start 0 0 0 0xFD 0x0600 0 [(0x0600, 0xAD), (0x0601, 0x50), (0x0602, 0xD1)]) 0xFF 0 0 0xFD 0x0603 0x80 4 [] =
      true := by decide

/-- R366, R368, R381 and program P6: the boundary of scanline 248. -/
def line247 (nmien : Byte) : State :=
  { State.reset with
    cycle := 248 * 114, flags := unpack 0, pc := 0x0605, ram := [(0xFFFB, 0x08)]
    events := { State.reset.events with fetch := some (248 * 114) }
    nextWake := some (248 * 114)
    antic := { State.reset.antic with scanline := 247, lineStart := 247 * 114, nmien := nmien } }

theorem test_vbi_p6 :
    let t := (line247 0x40).handle .fetch (248 * 114)
    t.antic.scanline = 248 ∧ t.pc = 0x0800 ∧ t.cycle = 28279 ∧ (t.memRead 0xD40F).1 = 0x5F ∧
    t.ram.bytes 0x01FB 3 = [0x20, 0x05, 0x06] := by decide

/-- R369, R370, R371: a blank-lines instruction with bit 7 covers three lines and arms the DLI in the last of them. -/
theorem test_display_list_blank :
    let s := { State.reset with
      sram := [(0xD400, 0x22)], ram := [(0x2000, 0xA0)]
      antic := { State.reset.antic with scanline := 7, dlpc := 0x2000 } }
    let t := s.handle .fetch 912
    t.antic.scanline = 8 ∧ t.antic.dlTarget = 11 ∧ t.antic.dlpc = 0x2001 ∧ t.antic.dlcmd = 0xA0 ∧
    t.events.dli = some (912 + 2 * 114 + 8) := by decide

/-- R369: JVB loads the pointer, keeps the 1 KB window of its own bytes, and waits for the next frame. -/
theorem test_display_list_jvb :
    let s := { State.reset with
      sram := [(0xD400, 0x22)], ram := [(0x2000, 0x34), (0x2001, 0x12), (0x23FF, 0x41)]
      antic := { State.reset.antic with scanline := 9, dlTarget := 10, dlpc := 0x23FF } }
    let t := s.handle .fetch 1140
    t.antic.dlpc = 0x1234 ∧ t.antic.dlWait = true ∧ t.fetchesHere = false := by decide

/-- The checksum examples of L1.5 and the sector offsets of L1.6. -/
theorem test_sio_checksum_and_offsets :
    sioChecksum [0x31, 0x52, 0x01, 0x00] = 0x84 ∧ sioChecksum [0xFF, 0xFF, 0x02] = 0x02 ∧
    sectorOffset [0, 0, 0, 0, 0x80, 0] 1 = 16 ∧ sectorOffset [0, 0, 0, 0, 0x80, 0] 3 = 272 ∧
    sectorOffset [0, 0, 0, 0, 0, 1] 4 = 400 ∧ sectorOffset [0, 0, 0, 0, 0, 1] 5 = 656 := by decide

/-- R391: periods of a normal channel, of channel 1 clocked at 1, and of a joined pair clocked at 1. -/
theorem test_timer_periods :
    { State.reset with sram := [(0xD200, 10)] }.period 1 = 308 ∧
    { State.reset with sram := [(0xD200, 10), (0xD208, 0x40)] }.period 1 = 14 ∧
    { State.reset with sram := [(0xD200, 10), (0xD202, 1), (0xD208, 0x50)] }.period 2 = 273 ∧
    { State.reset with sram := [(0xD206, 1), (0xD208, 1)] }.period 4 = 228 := by decide

/-- R391, R399: a channel with divisor 4 and count 3 pulses in the 12th cycle from a fresh count; volume-only adds its
volume whatever the output is. -/
theorem test_channel :
    let fresh : Channel := { counter := 3, clockAcc := 0, output := false, gate := false }
    let after := fun k => applyTimes (fun c : Channel => (c.clock 4 3).1) k fresh
    ((after 11).clock 4 3).2 = true ∧ ((after 10).clock 4 3).2 = false ∧ ((after 12).clock 4 3).2 = false ∧
    channelLevel 0xAF false fresh = 0 ∧ channelLevel 0xAF false { fresh with output := true } = 15 ∧
    channelLevel 0x1F false fresh = 15 := by decide

/-- R399: at 2.5 cycles per sample three samples are emitted in eight cycles, the exact sums of the levels. -/
theorem test_audio_samples :
    let u : Audio := { ring := [], accumulator := 0, cyclesPerSample := 163840, sampleClock := 0, queueHint := 0 }
    (applyTimes (fun u : Audio => u.step 3 2) 3 u).ring = [9] ∧ (applyTimes (fun u : Audio => u.step 3 2) 8 u).ring = [6, 9] := by
  decide

/-- R367: a mode line begun on line 246 shows no playfield from line 248 on. -/
theorem test_no_playfield_in_blank :
    let line := fun n => { State.reset with antic := { State.reset.antic with scanline := n, dlcmd := 3, rowsLeft := 8 } }
    (line 247).lineMode = 3 ∧ (line 248).lineMode = 0 ∧ (line 7).lineMode = 0 ∧ (line 8).lineMode = 3 := by decide

/-- R397: shift and keys stay down until every source has released them, BREAK among them. -/
theorem test_keyboard_sources :
    let s := { State.reset with pokey := { State.reset.pokey with irqen := 0x80 } }
    let held := ((s.setShift true 1).setShift true 2).setShift false 1
    held.skstat = 0xF7 ∧ (held.setShift false 2).skstat = 0xFF ∧
    (held.keyDown 0x3F false 1).pokey.kbcode = 0x7F ∧ (held.keyDown 0x3F false 1).skstat = 0xF3 ∧
    (s.keyDown 0x3F true 1).pokey.kbcode = 0xBF ∧ (s.keyDown 0x3F true 1).pokey.irqst = 0xBF ∧
    (s.breakDown 1).skstat = 0xFB ∧ (s.breakDown 1).pokey.irqst = 0x7F ∧ (s.breakDown 1).irqPending = 1 ∧
    (((s.breakDown 1).breakDown 2).breakUp 1).skstat = 0xFB ∧ ((s.breakDown 1).breakUp 1).skstat = 0xFF := by decide

/-- R376: at playfield width 0 a mode line consumes no byte, with the HSCROL bit set too. -/
theorem test_width_zero :
    let s := { State.reset with
      sram := [(0xD400, 0x20)], antic := { State.reset.antic with scanline := 100, dlcmd := 0x12, rowsLeft := 8 } }
    s.lineMode = 2 ∧ s.lineScrolled = true ∧ s.lineBytes = 0 := by decide

/-- R386: which missiles are drawn after an object. -/
theorem test_later_missiles :
    Sprite.laterMissiles (.player 2) = [3, 2, 1, 0] ∧ Sprite.laterMissiles (.missile 2) = [1, 0] ∧
    Sprite.laterMissiles (.missile 0) = [] := by decide

/-- R385: on a line without a playfield every column has the colour of COLBK and priority 0. -/
theorem test_border :
    let s := { State.reset with sram := [(0xD01A, 0x94)] }
    s.playfieldPixel 200 = (0x94, .background) ∧ Source.priority .background = 0 := by decide

/-- R384, R385: which pixel of a byte a column shows, and its bits, in modes 15, 8 and 13. -/
theorem test_pixel_bits :
    (let r := modeRow Params.default 15; pixelValue r.bits 0x40 (pixelIndex r.bits r.columns 1)) = 1 ∧
    (let r := modeRow Params.default 8; pixelValue r.bits 0x2D (pixelIndex r.bits r.columns 8)) = 2 ∧
    (let r := modeRow Params.default 13; pixelValue r.bits 0x2D (pixelIndex r.bits r.columns 6)) = 1 := by decide

/-- R375, R385: CHACTL bit 1 masks a code to 7 bits, bit 2 turns the glyph upside down. -/
theorem test_character_control :
    charCode 2 0xC1 = 0x41 ∧ charCode 0 0xC1 = 0xC1 ∧ charCode 2 0x41 = 0x41 ∧ glyphLine 4 8 0 = 7 ∧ glyphLine 0 8 0 = 0 := by
  decide

/-- R386, R389: an object with graphics and a position is drawn; the fifth player takes COLPF3. -/
theorem test_objects :
    let s := { State.reset with
      sram := [(0xD001, 0x60), (0xD007, 0x80), (0xD013, 0x28), (0xD015, 0x46), (0xD019, 0x0E), (0xD01B, 0x10)]
      gtia := { State.reset.gtia with grafp0 := 0x81, grafp1 := 0x81, grafm := 0x40 } }
    s.drawn (.player 1) = true ∧ s.drawn (.player 0) = false ∧ s.drawn (.missile 3) = true ∧ s.drawn (.missile 2) = false ∧
    s.spriteColour (.player 1) = 0x28 ∧ s.spriteColour (.missile 3) = 0x0E ∧
    { s with sram := [(0xD015, 0x46)] }.spriteColour (.missile 3) = 0x46 := by decide

/-- R6, R406, R408: a sector that fits the 1 KB buffer with its checksum is accepted for writing, one that does not is
refused. -/
theorem test_sio_buffer :
    let image : List Byte := [0, 0, 0, 0, 0, 4] ++ List.replicate 1418 0
    sectorValid image 4 = true ∧ (State.reset.sioCommand image 0x57 4).sio.response = [0x4E] ∧
    (State.reset.sioCommand image 0x57 3).sio.response = [0x41] ∧ (State.reset.sioCommand image 0x57 3).sio.expected = 129 := by
  have h : (List.replicate 1418 (0 : Byte)).length = 1418 := List.length_replicate
  generalize List.replicate 1418 (0 : Byte) = tail at h
  simp [sectorValid, sectorOffset, sectorBytes, declaredSectorSize, h, State.sioCommand, State.sioReply, State.sioExpectData,
    sioBufferSize, sioNak, sioAck, State.arm, State.recomputeNext]

/-- R43, R420, R423: the state after reset is `reset()` on the creation state of the default parameters. -/
theorem test_reset_of_creation : (State.create Params.default).resetCpu = State.reset := by decide

/-- R130, D36: a run to a target that is not ahead runs no step; one cycle ahead it runs one instruction. -/
theorem test_run_target :
    (run 10 0 wsync matches some (.next _)) = true ∧
    (match run 11 1 wsync with
      | some (.next t) => t.cycle == 14
      | _ => false) = true := by decide

/-! ## The host's questions: a table word decodes, and it is the first instruction to run -/

theorem test_first_instruction_after_reset :
    (match step (State.reset.withFetchWord 16 0x80A9) with
      | .next t => t.a == 0x80 && t.pc == 2 && t.cycle == 2
      | _ => false) = true := by decide

theorem test_first_jump_after_reset :
    (match step (State.reset.withFetchWord 24 0x12344C) with
      | .next t => t.pc == 0x1234 && t.cycle == 3
      | _ => false) = true := by decide

/-! ## Witnesses: a state and operands that meet the hypotheses of each obligation -/

theorem witness_well_formed_instructions :
    (Instr.adc (.izy 0xFF)).WellFormed ∧ (Instr.jmp (.ind 0xFFFF)).WellFormed ∧ (Instr.anc 0x2B 0).WellFormed ∧
    (Instr.nopx 0xFC (.abx 0)).WellFormed ∧ (Instr.jam 0xF2).WellFormed ∧ (Instr.asl .acc).WellFormed ∧
    (Instr.ror (.abx 0)).WellFormed ∧ (Instr.inc (.zp 0)).WellFormed ∧ (Instr.dec (.abs 0)).WellFormed ∧
    (Instr.lsr (.zpx 0)).WellFormed ∧ (Instr.rol (.abs 0)).WellFormed ∧ (Instr.sta (.izx 0)).WellFormed ∧
    (Instr.stx (.zpy 0)).WellFormed ∧ (Instr.sty (.zpx 0)).WellFormed ∧ (Instr.sax (.izx 0)).WellFormed := by decide

/-- EncodeInvertsDecode, EveryOpcodeDecodes: one opcode of each length, with just enough bytes and with one too few. -/
theorem witness_decode :
    decodesTo [0xAD, 0x34, 0x12] (.lda (.abs 0x1234)) = true ∧
    lengthOf 0xEA = 1 ∧ lengthOf 0xA9 = 2 ∧ lengthOf 0xAD = 3 ∧
    lengthOf 0xAD ≤ [(0x34 : Byte), 0x12].length + 1 ∧ [(0x34 : Byte)].length + 1 < lengthOf 0xAD := by decide

/-- StepRunsDecodedInstruction, first part: `PC` at the top of memory, the operand byte at address 0. -/
def atTop : State := start 0 0 0 0xFD 0xFFFF 0 [(0, 0x80), (0xFFFF, 0xA9)]

theorem witness_step_runs :
    atTop.serviceOpen = false ∧ atTop.stallUntil ≤ atTop.cycle ∧ atTop.irqPending = 0 ∧ decodesTo [0xA9, 0x80] (.lda (.imm 0x80)) = true ∧
    ∀ k < 2, isDevice (atTop.pc + BitVec.ofNat 16 k).toNat = false ∧
      atTop.ram.read (atTop.pc + BitVec.ofNat 16 k).toNat = [(0xA9 : Byte), 0x80].getD k 0 := by decide

/-- StepRunsDecodedInstruction, second part: bytes of length one, two and three through `memRead`, the last fetched from
the device window. -/
theorem witness_step_runs_fetched :
    wsync.serviceOpen = false ∧ wsync.stallUntil ≤ wsync.cycle ∧ wsync.irqPending = 0 ∧
    decodesTo [(wsync.memRead 0x0603).1] .nop = true ∧
    decodesTo [(atTop.memRead 0xFFFF).1, (atTop.memRead 0).1] (.lda (.imm 0x80)) = true ∧
    decodesTo [(wsync.memRead 0x0600).1, (wsync.memRead 0x0601).1, (wsync.memRead 0x0602).1] (.sta (.abs 0xD40A)) = true ∧
    decodesTo [(wsync.memRead 0xD014).1, (wsync.memRead 0xD015).1] (.ora (.izx 0xFF)) = true := by decide

/-- StalledStepOnlyAdvancesCycle: with the next event ahead, and with one due. -/
theorem witness_stalled :
    wsync.serviceOpen = false ∧ (let s := { wsync with stallUntil := 114 }; s.cycle < s.stallUntil ∧ s.WakeAhead) ∧
    (let s := { wsync with stallUntil := 200, cycle := 114 }; s.cycle < s.stallUntil ∧ ¬ s.WakeAhead) := by decide

/-- HandlerStackLayout, ReturnUndoesInterruptEntry: the stack at its wrap. -/
theorem witness_handler : ({ gate 0xFF 1 with sp := 0x01 }).ram.wf = true := by decide

/-- InterruptEntries -/
theorem witness_interrupt :
    (gate 0 1).serviceOpen = false ∧ (gate 0 1).stallUntil ≤ (gate 0 1).cycle ∧ 0 < (gate 0 1).irqPending ∧
    (gate 0 1).flags.i = false := by decide

/-- EarliestEventIsServiced: two events due at the same cycle. -/
theorem witness_tie :
    let s := { State.reset with cycle := 114 }.arm .timer4 (some 114)
    s.WakeIsLeast ∧ ¬ s.WakeAhead ∧ s.events.earliest = some (.fetch, 114) := by decide

/-- NoEventDueAfterStep, StepAdvancesCycle, StepKeepsHostInputs: a step from a state with no event due. -/
theorem witness_step :
    wsync.WakeAhead ∧ wsync.serviceOpen = false ∧
    afterStep wsync (fun t => decide t.WakeAhead && decide (wsync.cycle < t.cycle) && !t.serviceOpen) = true := by decide

/-- NoEventDueAfterStep, its last clause: an open service with the boundary at 114 still due goes on, and nothing else
happens in the step. -/
theorem witness_open_service :
    let s := { wsync with cycle := 114, serviceOpen := true }
    s.serviceOpen = true ∧ ¬ s.WakeAhead ∧
    afterStep s (fun t => t.antic.scanline == 1 && t.pc == s.pc && t.cycle == 114 && !t.serviceOpen) = true := by decide

/-- A running machine with BASIC mapped in. -/
def withBasic : State :=
  { State.reset with
    basicRom := some [0xBA], ram := [(0xA000, 0xBA)], pia := { State.reset.pia with portb := 0xFD }
    banks := { State.reset.banks with basic := true } }

/-- StepKeepsInvariant, StepAlwaysAnswers: the invariant with a ROM installed, legal parameters, and a step. -/
theorem witness_invariant :
    withBasic.Inv ∧ withBasic.params.legal = true ∧
    afterStep withBasic (fun t => decide t.WakeAhead && !t.serviceOpen) = true := by
  refine ⟨⟨by decide, by decide, by decide, fun r => by cases r <;> rfl, fun r image hr hi k _ => ?_⟩, by decide, by decide⟩
  have : r = .basic := by cases r <;> first | rfl | exact absurd hr Bool.false_ne_true
  subst this
  have : image = [0xBA] := (Option.some.inj hi).symm
  subst this
  cases k with
  | zero => rfl
  | succ k => simp [withBasic, Memory.read, Region.base, Region.size, Region.bytes, Region.offset]

/-- EffectiveAddresses: indexed addresses on both sides of a page cross, and the wrap at the top of memory. -/
theorem witness_page_cross :
    let s := start 0 1 0xFF 0xFD 0 0 [(0x40, 0x01), (0x41, 0x30)]
    (s.resolve (.abx 0x12FE)).1.crossed = false ∧ (s.resolve (.abx 0x12FF)).1.crossed = true ∧
    (s.resolve (.aby 0xFFFF)).1.ea = 0x00FE ∧ (s.resolve (.izy 0x40)).1.crossed = true ∧
    (s.resolve (.zpx 0xFF)).1.ea = 0 := by decide

/-- ReadsChangeOnlyPokeyState: each clause, the edges of the device window among them. -/
theorem witness_reads :
    readHasEffect 0xD209 = false ∧ readHasEffect 0xD20A = true ∧ readHasEffect 0xD20D = true ∧
    isDevice 0xCFFF = false ∧ isDevice 0xD000 = true ∧ isDevice 0xD7FF = true ∧ isDevice 0xD800 = false ∧
    chipOf 0xD020 = .unmapped ∧ chipOf 0xD210 = .unmapped ∧ chipOf 0xD7FF = .unmapped ∧
    Operand.mode (.zp 0) ≠ .ind ∧ readHasEffect (State.reset.effectiveAddress (.zp 0)).toNat = false := by decide

/-- BankMapFollowsPortb: everything mapped in (`portb` bits 7 and 1 clear, bit 0 set), and the edges of every region. -/
def allRom : State :=
  { State.reset with
    osRom := some [], basicRom := some [], pia := { State.reset.pia with portb := 0x7D }
    banks := { selfTest := true, basic := true, osLow := true, osHigh := true } }

theorem witness_installed : allRom.Installed ∧ State.reset.Installed :=
  ⟨fun r => by cases r <;> rfl, fun r => by cases r <;> rfl⟩

theorem witness_region_edges :
    [0x4FFF, 0x5800, 0x9FFF].map allRom.banks.dispatch = [.ram, .ram, .ram] ∧
    [0x5000, 0x57FF, 0xA000, 0xBFFF, 0xC000, 0xCFFF, 0xD800, 0xFFFF].map allRom.banks.dispatch =
      [.rom, .rom, .rom, .rom, .rom, .rom, .rom, .rom] ∧
    [0xD000, 0xD7FF].map allRom.banks.dispatch = [.dev, .dev] := by decide

/-- WritesReachRamOrShadow, StoresLeaveCpuAlone: RAM, ROM and the device window beside the two addresses set apart. -/
theorem witness_write_targets :
    banked.ram.wf = true ∧ banked.sram.wf = true ∧ banked.banks.dispatch 0xBFFF = .ram ∧
    banked.banks.dispatch 0xC000 = .rom ∧ banked.banks.dispatch 0xD01D = .dev ∧ banked.banks.dispatch 0xD01F = .dev ∧
    banked.banks.dispatch 0xD300 = .dev ∧ banked.banks.dispatch 0xD302 = .dev := by decide

/-- BankSwitchKeepsHiddenRam: each kind of image. -/
theorem witness_images :
    allRom.ram.wf = true ∧ allRom.sram.wf = true ∧ allRom.imageOf .selfTest = some [] ∧ allRom.imageOf .basic = some [] ∧
    banked.imageOf .osHigh = some [0xC0] := by decide

/-- PortbStoreInstallsMap: both states of PBCTL bit 2, a region that stays, one that turns to RAM, one that turns to ROM,
and addresses beside the regions. -/
theorem witness_portb :
    let toRam := banked.memWrite 0xD301 0xFE
    banked.Canonical ∧ banked.pia.pbctl.getLsbD 2 = true ∧
    banked.banks.rom .osLow = true ∧ toRam.banks.rom .osLow = false ∧ banked.banks.rom .basic = toRam.banks.rom .basic ∧
    toRam.Canonical ∧ toRam.pia.pbctl.getLsbD 2 = true ∧ (toRam.memWrite 0xD301 0xFF).banks.rom .osLow = true ∧
    State.reset.Canonical ∧ State.reset.pia.pbctl.getLsbD 2 = false := by decide

theorem witness_outside_regions :
    ∀ r : Region, ¬ (r.base ≤ 0xD301 ∧ 0xD301 < r.base + r.size) ∧ ¬ (r.base ≤ 0x9FFF ∧ 0x9FFF < r.base + r.size) := by
  intro r
  cases r <;> decide

/-- WsyncStallsToBoundary: the first and the last cycle of a line. -/
theorem witness_wsync :
    (let s := State.reset; s.OnRaster ∧ s.WakeIsLeast ∧ s.WakeAhead) ∧
    (let s := { State.reset with cycle := 113 }; s.OnRaster ∧ s.WakeIsLeast ∧ s.WakeAhead) := by decide

/-- InterruptSources: a joined timer with and without a period; ScanlineAdvance: the lines about 248 and the wrap. -/
theorem witness_scanlines :
    (247 + 1) % 312 = 248 ∧ (248 + 1) % 312 ≠ 248 ∧ (311 + 1) % 312 = 0 ∧
    (line247 0x40).antic.nmien.getLsbD 6 = true ∧ (line247 0).antic.nmien.getLsbD 6 = false := by decide

/-- TimerAndSerialRegisters: no byte, one byte and two bytes of a response left. -/
theorem witness_serial :
    State.reset.sio.remaining = 0 ∧ (State.reset.sioReply [0x4E]).sio.remaining = 1 ∧
    1 < (State.reset.sioReply [0x41, 0x43]).sio.remaining := by decide

/-- SectorWriteReadsBack: the first sector of an image that just holds it, and the fourth. -/
theorem witness_sector_one :
    sectorValid (List.replicate 144 0) 1 = true ∧ (List.replicate 128 (1 : Byte)).length = sectorBytes (List.replicate 144 0) 1 ∧
    sectorValid (List.replicate 143 0) 1 = false ∧ sectorValid (List.replicate 144 0) 0 = false := by
  simp [sectorValid, sectorOffset, sectorBytes]

theorem witness_sector_four :
    let image : List Byte := [0, 0, 0, 0, 2, 0] ++ List.replicate 396 0
    sectorValid image 4 = true ∧ [(1 : Byte), 2].length = sectorBytes image 4 := by
  have h : (List.replicate 396 (0 : Byte)).length = 396 := List.length_replicate
  generalize List.replicate 396 (0 : Byte) = tail at h
  simp [sectorValid, sectorOffset, sectorBytes, declaredSectorSize, h]

/-- DecimalAddition, DecimalSubtractionOfDigits: the largest valid digits. -/
theorem witness_digits : (0x99 : Byte).toNat / 16 < 10 ∧ (0x99 : Byte).toNat % 16 < 10 := by decide

/-- CombinedReadModifyWrites -/
theorem witness_memory_mode : (Operand.izy 0).mode.isMemory = true ∧ (Operand.zp 0xFF).mode.isMemory = true := by decide

/-- FlagWriters, RegisterWriters: NOP writes none of these. -/
theorem witness_nop_writes_nothing :
    Instr.nop.WellFormed ∧ exec .nop State.reset = .next (State.reset.addCycles 2) ∧
    Instr.writesNZ .nop = false ∧ Instr.writesV .nop = false ∧ Instr.writesB .nop = false ∧ Instr.writesD .nop = false ∧
    Instr.writesI .nop = false ∧ Instr.writesC .nop = false ∧ Instr.writesSp .nop = false ∧ Instr.writesPc .nop = false :=
  ⟨by decide, rfl, rfl, rfl, rfl, rfl, rfl, rfl, rfl, rfl⟩

/-- MemoryWriters: an instruction of each clause; the store goes to RAM. -/
theorem witness_memory_writers :
    State.reset.Canonical ∧ Instr.storesOperand .tax = false ∧ Instr.pushes .tax = false ∧ Instr.pushes .pha = true ∧
    Instr.storesOperand (.sta (.abs 0x1000)) = true ∧ (Instr.sta (.abs 0x1000)).WellFormed ∧
    State.reset.banks.dispatch (State.reset.effectiveAddress (.abs 0x1000)).toNat ≠ .dev := by decide

theorem witness_memory_writers_answer : ∃ t, exec (.sta (.abs 0x1000)) State.reset = .next t := ⟨_, rfl⟩

end Sys2Proof.Tests
end

section
/-! SUPPORT. Where an instruction reaches memory (spec/10_state.md R21, spec/20_memory.md R65, R69): a read leaves the
arrays and the dispatch table alone, a push stays in page 1, a store outside the device window stays at its address. -/

namespace Sys2Proof.Machine

/-! ### Operations that leave memory alone -/

/-- Both arrays and the dispatch table. -/
def State.memory (s : State) : Memory × Memory × Banks := (s.ram, s.sram, s.banks)

theorem State.memory_eq_iff (s t : State) :
    t.memory = s.memory ↔ t.ram = s.ram ∧ t.sram = s.sram ∧ t.banks = s.banks := by simp [memory]

@[simp] theorem State.addCycles_memory (s : State) (n : Nat) : (s.addCycles n).memory = s.memory := rfl

@[simp] theorem State.setPc_memory (s : State) (w : Word) : (s.setPc w).memory = s.memory := rfl

theorem State.memory_of_withReadEffects {s t : State} (h : t = s.withReadEffects t) : t.memory = s.memory := by
  rw [h]
  rfl

@[simp] theorem State.memRead_memory (s : State) (a : Word) : (s.memRead a).2.memory = s.memory :=
  memory_of_withReadEffects (s.memRead_eq_withReadEffects a)

@[simp] theorem State.resolve_memory (s : State) (o : Operand) : (s.resolve o).2.memory = s.memory :=
  memory_of_withReadEffects (s.resolve_eq_withReadEffects o)

@[simp] theorem State.afterOperand_memory (s : State) (o : Operand) : (s.afterOperand o).memory = s.memory :=
  memory_of_withReadEffects (s.afterOperand_eq o)

@[simp] theorem State.read16_memory (s : State) (a : Word) : (s.read16 a).2.memory = s.memory := by
  simp [read16, readPair]

@[simp] theorem State.pull8_memory (s : State) : s.pull8.2.memory = s.memory := by
  rw [pull8_eq]
  rfl

@[simp] theorem State.pull16_memory (s : State) : s.pull16.2.memory = s.memory := by
  rw [pull16_eq]
  rfl

@[simp] theorem State.returnFromHandler_memory (s : State) : s.returnFromHandler.memory = s.memory := by
  rw [returnFromHandler_eq]
  rfl

@[simp] theorem State.branch_memory (s : State) (c : Bool) (d : Byte) : (s.branch c d).memory = s.memory := by
  unfold branch
  split_ifs <;> rfl

theorem State.readOperand_memory (s : State) (o : Operand) {act : State → Byte → State}
    (hact : ∀ t v, (act t v).memory = t.memory) : (s.readOperand o act).memory = s.memory := by
  rw [readOperand_eq, addCycles_memory, hact, afterOperand_memory]

/-- In the accumulator mode the byte read and written back is `A`. -/
theorem State.modifyOperand_acc_memory (s : State) (f : Bool → Byte → Byte × Bool) {after : State → Byte → State}
    (hafter : ∀ t v, (after t v).memory = t.memory) : (s.modifyOperand .acc f after).memory = s.memory :=
  hafter _ _

/-- An instruction that neither stores at its operand nor pushes only reads. -/
theorem exec_memory {i : Instr} {s t : State} (hstore : i.storesOperand = false) (hpush : i.pushes = false)
    (h : exec i s = .next t) : t.memory = s.memory := by
  cases i <;> injection h with h <;> subst h
  case sta | stx | sty | sax | sha | shx | shy | tas | inc | dec | slo | rla | sre | rra | dcp | isc =>
    exact Bool.noConfusion hstore
  case pha | php | jsr | brk => exact Bool.noConfusion hpush
  case asl o | lsr o | rol o | ror o =>
    obtain rfl : o = .acc := by simpa [Instr.storesOperand] using hstore
    exact s.modifyOperand_acc_memory _ fun _ _ => rfl
  case lda | ldx | ldy | and | ora | eor | bit | cmp | cpx | cpy | adc | sbc | lax | usbc =>
    exact s.readOperand_memory _ fun _ _ => rfl
  case las =>
    split_ifs
    · rfl
    · exact s.readOperand_memory _ fun _ _ => rfl
  case nopx op o =>
    dsimp only [State.noop]
    split_ifs <;> simp
  case jmp o => exact s.resolve_memory o
  case pla | plp => exact s.pull8_memory
  case rts => exact s.pull16_memory
  case rti => exact s.returnFromHandler_memory
  case bpl | bmi | bvc | bvs | bcc | bcs | bne | beq => exact s.branch_memory _ _
  all_goals rfl

/-! ### Pushes -/

/-- From `s` to `t`, nothing but bytes of page 1 changed in memory. -/
def State.WritesStackOnly (s t : State) : Prop :=
  t.sram = s.sram ∧ t.banks = s.banks ∧ ∀ a, ¬ (0x100 ≤ a ∧ a < 0x200) → t.ram.read a = s.ram.read a

theorem State.WritesStackOnly.trans {s t u : State} (h : s.WritesStackOnly t) (k : t.WritesStackOnly u) :
    s.WritesStackOnly u := by
  obtain ⟨hsram, hbanks, hram⟩ := h
  obtain ⟨ksram, kbanks, kram⟩ := k
  exact ⟨ksram.trans hsram, kbanks.trans hbanks, fun a ha => (kram a ha).trans (hram a ha)⟩

theorem State.writesStackOnly_of_memory {s t : State} (h : t.memory = s.memory) : s.WritesStackOnly t := by
  obtain ⟨hram, hsram, hbanks⟩ := (memory_eq_iff s t).1 h
  exact ⟨hsram, hbanks, fun a _ => by rw [hram]⟩

theorem State.push8_writesStackOnly (s : State) (v : Byte) : s.WritesStackOnly (s.push8 v) := by
  rw [push8_eq]
  refine ⟨rfl, rfl, fun a ha => Memory.read_write_ne _ _ ?_⟩
  have := s.sp.isLt
  omega

theorem State.push16_writesStackOnly (s : State) (w : Word) : s.WritesStackOnly (s.push16 w) :=
  (s.push8_writesStackOnly _).trans (push8_writesStackOnly _ _)

theorem State.enterHandler_writesStackOnly (s : State) (ret : Word) (brk : Bool) (vector : Word) :
    s.WritesStackOnly (s.enterHandler ret brk vector) :=
  ((s.push16_writesStackOnly ret).trans (push8_writesStackOnly _ _)).trans
    (writesStackOnly_of_memory (read16_memory _ vector))

theorem exec_writesStackOnly {i : Instr} {s t : State} (hpush : i.pushes = true) (h : exec i s = .next t) :
    s.WritesStackOnly t := by
  match i with
  | .pha | .php =>
    injection h with h
    exact h ▸ s.push8_writesStackOnly _
  | .jsr _ =>
    injection h with h
    exact h ▸ s.push16_writesStackOnly _
  | .brk =>
    injection h with h
    exact h ▸ s.enterHandler_writesStackOnly _ _ _

/-! ### Stores -/

/-- From `s` to `t`, nothing but the byte at `a` changed in memory, if `a` lies outside the device window. -/
def State.WritesOnlyAt (s t : State) (a : Word) : Prop :=
  s.banks.dispatch a.toNat ≠ .dev →
    t.banks = s.banks ∧ ∀ b ≠ a.toNat, t.ram.read b = s.ram.read b ∧ t.sram.read b = s.sram.read b

theorem State.writesOnlyAt_of_memory {s t : State} (h : t.memory = s.memory) (a : Word) : s.WritesOnlyAt t a := by
  obtain ⟨hram, hsram, hbanks⟩ := (memory_eq_iff s t).1 h
  exact fun _ => ⟨hbanks, fun b _ => by rw [hram, hsram]; exact ⟨rfl, rfl⟩⟩

/-- Only the memory of the two states counts. -/
theorem State.WritesOnlyAt.congr {s t s' t' : State} {a : Word} (h : s.WritesOnlyAt t a) (hs : s.memory = s'.memory)
    (ht : t'.memory = t.memory) : s'.WritesOnlyAt t' a := by
  obtain ⟨sRam, sShadow, sBanks⟩ := (memory_eq_iff _ _).1 hs
  obtain ⟨tRam, tShadow, tBanks⟩ := (memory_eq_iff _ _).1 ht
  unfold WritesOnlyAt at h ⊢
  rwa [tRam, tShadow, tBanks, ← sRam, ← sShadow, ← sBanks]

theorem State.memWrite_writesOnlyAt (s : State) (a : Word) (v : Byte) : s.WritesOnlyAt (s.memWrite a v) a := by
  intro hdev
  cases hd : s.banks.dispatch a.toNat with
  | ram =>
    rw [s.memWrite_of_ram v hd]
    exact ⟨rfl, fun b hb => ⟨Memory.read_write_ne _ _ hb, rfl⟩⟩
  | rom =>
    rw [s.memWrite_of_rom v hd]
    exact ⟨rfl, fun b hb => ⟨rfl, Memory.read_write_ne _ _ hb⟩⟩
  | dev => exact absurd hd hdev

theorem State.store_writesOnlyAt (s : State) (o : Operand) (r : Resolved) (v : Byte) :
    s.WritesOnlyAt (s.store o r v) r.ea := by
  unfold store
  split
  · exact writesOnlyAt_of_memory rfl _
  · exact s.memWrite_writesOnlyAt _ _

theorem State.storeOperand_writesOnlyAt (s : State) (o : Operand) (value : State → Resolved → Byte) :
    s.WritesOnlyAt (s.storeOperand o value) (s.effectiveAddress o) :=
  (store_writesOnlyAt _ o (s.resolve o).1 _).congr (s.resolve_memory o) rfl

theorem State.storeUnlessUnstable_writesOnlyAt (s : State) (op : Byte) (o : Operand)
    (value : State → Resolved → Byte) :
    s.WritesOnlyAt (s.storeUnlessUnstable op o value) (s.effectiveAddress o) := by
  unfold storeUnlessUnstable
  split_ifs
  · exact writesOnlyAt_of_memory (s.resolve_memory o) _
  · exact s.storeOperand_writesOnlyAt o value

theorem State.modifyOperand_writesOnlyAt (s : State) (o : Operand) (f : Bool → Byte → Byte × Bool)
    {after : State → Byte → State} (hafter : ∀ t v, (after t v).memory = t.memory) :
    s.WritesOnlyAt (s.modifyOperand o f after) (s.effectiveAddress o) :=
  let n := f (s.afterOperand o).flags.c (s.operandByte o)
  (store_writesOnlyAt ((s.afterOperand o).setC n.2) o (s.resolve o).1 n.1).congr (s.afterOperand_memory o) (hafter _ _)

/-- An instruction that stores at its operand writes there alone: a plain store, a store of the SHA class, or a
read-modify-write. -/
theorem exec_writesOnlyAt {i : Instr} {s t : State} (hstore : i.storesOperand = true) (h : exec i s = .next t) :
    s.WritesOnlyAt t (s.effectiveAddress i.operand) := by
  match i with
  | .sta o | .stx o | .sty o | .sax o =>
    injection h with h
    exact h ▸ s.storeOperand_writesOnlyAt o _
  | .sha o =>
    injection h with h
    exact h ▸ s.storeUnlessUnstable_writesOnlyAt _ o _
  | .shx w | .shy w =>
    injection h with h
    exact h ▸ s.storeUnlessUnstable_writesOnlyAt _ _ _
  | .tas w =>
    injection h with h
    subst h
    split_ifs
    · exact State.writesOnlyAt_of_memory rfl _
    · exact State.storeOperand_writesOnlyAt { s with sp := s.a &&& s.x } (.aby w) _
  | .asl o | .lsr o | .rol o | .ror o | .inc o | .dec o | .slo o | .rla o | .sre o | .rra o | .dcp o | .isc o =>
    injection h with h
    exact h ▸ s.modifyOperand_writesOnlyAt o _ fun _ _ => rfl

/-- Settles O59, one clause for each class of instructions. -/
theorem memoryWriters : Obligations.MemoryWriters := fun _ s t _ _ h =>
  ⟨fun hstore hpush => (s.memory_eq_iff t).1 (exec_memory hstore hpush h),
    fun hpush => exec_writesStackOnly hpush h,
    fun hstore => exec_writesOnlyAt hstore h⟩

end Sys2Proof.Machine
end

section
/-! SUPPORT. The packed status byte, and the state right after reset. -/

namespace Sys2Proof.Machine

/-- One more bit at the low end of a word. -/
theorem toNat_append_ofBool {w : Nat} (x : BitVec w) (p : Bool) :
    (x ++ BitVec.ofBool p).toNat = 2 * x.toNat + bit p := by
  rw [BitVec.toNat_append, Nat.shiftLeft_eq, Nat.mul_comm, ← Nat.two_pow_add_eq_or_of_lt (BitVec.ofBool p).isLt]
  cases p <;> rfl

theorem Flags.pack_toNat (f : Flags) (b : Bool) :
    (f.pack b).toNat = 128 * bit f.n + 64 * bit f.v + 32 + 16 * bit b + 8 * bit f.d + 4 * bit f.i + 2 * bit f.z +
      bit f.c := by
  have hn : (BitVec.ofBool f.n).toNat = bit f.n := by cases f.n <;> rfl
  have hone : (1#1) = BitVec.ofBool true := rfl
  have htrue : bit true = 1 := rfl
  simp only [pack, hone, toNat_append_ofBool, hn, htrue]
  omega

theorem unpack_pack (f : Flags) (b : Bool) : unpack (f.pack b) = { f with b := b } := by
  simp only [unpack, Flags.pack, BitVec.getLsbD_append]
  simp

/-- Settles O9: the eight bits appended one after the other, and read back by index. -/
theorem statusByteRoundTrip : Obligations.StatusByteRoundTrip :=
  fun f b _ => ⟨f.pack_toNat b, unpack_pack f b, rfl⟩

theorem reset_resetCpu : State.reset.resetCpu = State.reset := by
  unfold State.resetCpu
  dsimp only
  rw [State.read16_of_not_device _ (by decide) (by decide)]
  rfl

/-- Settles O33: every field is read off `State.reset`; its empty memory holds 0 everywhere, the reset vector
included. -/
theorem resetStateValues : Obligations.ResetStateValues :=
  ⟨rfl, rfl, rfl, rfl, rfl, rfl, rfl, rfl, rfl, rfl, rfl, rfl, rfl, rfl, fun _ _ _ => rfl, rfl, reset_resetCpu⟩

end Sys2Proof.Machine
end

section
/-! SUPPORT. What an instruction does to the CPU's own fields (spec/10_state.md R21 to R24). -/

namespace Sys2Proof.Machine

/-! ### The CPU's own fields -/

/-- `s` with every field that a read or a store may change set as after reset: two states that agree here agree in the
registers, the flags, the cycle counter, the pending count, the output planes, the ROM images and the parameters. -/
def State.core (s : State) : State := s.withWriteEffects State.reset

theorem State.core_of_withReadEffects {s t : State} (h : t = s.withReadEffects t) : t.core = s.core := by
  rw [h]
  rfl

theorem State.core_of_withWriteEffects {s t : State} (h : t = s.withWriteEffects t) : t.core = s.core := by
  rw [h]
  rfl

@[simp] theorem State.core_addCycles (s : State) (n : Nat) : (s.addCycles n).core = s.core.addCycles n := rfl

@[simp] theorem State.core_setC (s : State) (c : Bool) : (s.setC c).core = s.core.setC c := rfl

@[simp] theorem State.core_memRead (s : State) (a : Word) : (s.memRead a).2.core = s.core :=
  core_of_withReadEffects (s.memRead_eq_withReadEffects a)

@[simp] theorem State.core_memWrite (s : State) (a : Word) (v : Byte) : (s.memWrite a v).core = s.core :=
  core_of_withWriteEffects (s.memWrite_eq_withWriteEffects a v)

@[simp] theorem State.core_resolve (s : State) (o : Operand) : (s.resolve o).2.core = s.core :=
  core_of_withReadEffects (s.resolve_eq_withReadEffects o)

@[simp] theorem State.core_afterOperand (s : State) (o : Operand) : (s.afterOperand o).core = s.core :=
  core_of_withReadEffects (s.afterOperand_eq o)

/-! ### What an instruction leaves unchanged -/

/-- The CPU's own fields of `t` are those of `u`, one cycle later or more. -/
def State.Ends (t u : State) : Prop := ∃ n, 0 < n ∧ t.core = u.addCycles n

theorem State.addCycles_ends {s u : State} {n : Nat} (hn : 0 < n) (h : s.core = u) : (s.addCycles n).Ends u :=
  ⟨n, hn, congrArg (State.addCycles · n) h⟩

/-- The flags `i` leaves unchanged from `f` to `g` (R24). -/
def FlagFrame (i : Instr) (f g : Flags) : Prop :=
  (i.writesNZ = false → g.n = f.n ∧ g.z = f.z) ∧ (i.writesV = false → g.v = f.v) ∧ (i.writesB = false → g.b = f.b) ∧
    (i.writesD = false → g.d = f.d) ∧ (i.writesI = false → g.i = f.i) ∧ (i.writesC = false → g.c = f.c)

/-- What else `i` leaves unchanged from `s` to `t` (R21, R22, R34, R40). -/
def RegisterFrame (i : Instr) (s t : State) : Prop :=
  (i.writesSp = false → t.sp = s.sp) ∧ (i.writesPc = false → t.pc = s.pc) ∧
    t.irqPending = s.irqPending ∧ t.frame = s.frame ∧ t.prio = s.prio ∧ t.osRom = s.osRom ∧ t.basicRom = s.basicRom ∧
    t.params = s.params

/-- The frame of an instruction, which takes time (R32). -/
structure InstrFrame (i : Instr) (s t : State) : Prop where
  flags     : FlagFrame i s.flags t.flags
  registers : RegisterFrame i s t
  time      : s.cycle < t.cycle

theorem FlagFrame.refl (i : Instr) (f : Flags) : FlagFrame i f f :=
  ⟨fun _ => ⟨rfl, rfl⟩, fun _ => rfl, fun _ => rfl, fun _ => rfl, fun _ => rfl, fun _ => rfl⟩

/-- `SP`, `PC` and the flags are all an instruction can change of the fields its frame speaks of. -/
theorem InstrFrame.of_ends {i : Instr} {s t u : State} (h : t.Ends u)
    (hflags : FlagFrame i s.flags u.flags)
    (hsp : i.writesSp = false → u.sp = s.sp := by exact fun _ => rfl)
    (hpc : i.writesPc = false → u.pc = s.pc := by exact fun _ => rfl)
    (hu : u = { s.core with a := u.a, x := u.x, y := u.y, sp := u.sp, pc := u.pc, flags := u.flags } := by rfl) :
    InstrFrame i s t := by
  obtain ⟨n, hn, h⟩ := h
  have hcore : t.core = { s.core with
      a := u.a, x := u.x, y := u.y, sp := u.sp, pc := u.pc, flags := u.flags, cycle := s.cycle + n } := by
    rw [h, hu]
    rfl
  have keep {α : Type} (π : State → α) := congrArg π hcore
  exact {
    flags := (keep State.flags : t.flags = u.flags) ▸ hflags
    registers := ⟨fun hi => (keep State.sp).trans (hsp hi), fun hi => (keep State.pc).trans (hpc hi),
      keep State.irqPending, keep State.frame, keep State.prio, keep State.osRom, keep State.basicRom,
      keep State.params⟩
    time := (keep State.cycle : t.cycle = s.cycle + n) ▸ Nat.lt_add_of_pos_right hn }

/-! ### The shapes of an instruction -/

theorem readCycles_pos (m : Mode) : 0 < readCycles m := by cases m <;> decide

theorem storeCycles_pos (m : Mode) : 0 < storeCycles m := by cases m <;> decide

theorem rmwCycles_pos (m : Mode) : 0 < rmwCycles m := by cases m <;> decide

theorem jumpCycles_pos (m : Mode) : 0 < jumpCycles m := by cases m <;> decide

theorem State.readOperand_ends (s : State) (o : Operand) {act : State → Byte → State}
    (hact : ∀ t v, (act t v).core = act t.core v) : (s.readOperand o act).Ends (act s.core (s.operandByte o)) :=
  addCycles_ends (Nat.add_pos_left (readCycles_pos _) _)
    ((hact _ _).trans (congrArg (act · _) (s.core_afterOperand o)))

theorem State.core_with_a {s t : State} (h : t.core = s.core) : t.core = { s.core with a := t.a } := by
  change t.core = { s.core with a := t.core.a }
  rw [h]

/-- A store reaches memory, or the accumulator. -/
theorem State.core_store (s : State) (o : Operand) (r : Resolved) (v : Byte) :
    (s.store o r v).core = { s.core with a := (s.store o r v).a } := by
  unfold store
  split
  · rfl
  · exact core_with_a (s.core_memWrite r.ea v)

theorem State.storeOperand_ends (s : State) (o : Operand) (value : State → Resolved → Byte) :
    (s.storeOperand o value).Ends { s.core with a := (s.storeOperand o value).a } := by
  refine addCycles_ends (storeCycles_pos _) ((core_store _ _ _ _).trans ?_)
  rw [core_resolve]
  rfl

theorem State.storeUnlessUnstable_ends (s : State) (op : Byte) (o : Operand) (value : State → Resolved → Byte) :
    (s.storeUnlessUnstable op o value).Ends { s.core with a := (s.storeUnlessUnstable op o value).a } := by
  unfold storeUnlessUnstable
  split_ifs
  · exact addCycles_ends (storeCycles_pos _) (core_with_a (s.core_resolve o))
  · exact s.storeOperand_ends o value

/-- The state of a read-modify-write after its store. -/
def State.stored (s : State) (o : Operand) (f : Bool → Byte → Byte × Bool) : State :=
  let n := f s.flags.c (s.operandByte o)
  ((s.afterOperand o).setC n.2).store o (s.resolve o).1 n.1

theorem State.modifyOperand_stored (s : State) (o : Operand) (f : Bool → Byte → Byte × Bool)
    (after : State → Byte → State) : s.modifyOperand o f after =
      (after (s.stored o f) (f s.flags.c (s.operandByte o)).1).addCycles (rmwCycles o.mode) := by
  unfold stored
  rw [← s.afterOperand_flags o]
  rfl

theorem State.core_stored (s : State) (o : Operand) (f : Bool → Byte → Byte × Bool) :
    (s.stored o f).core = { s.core.setC (f s.flags.c (s.operandByte o)).2 with a := (s.stored o f).a } := by
  refine (core_store _ _ _ _).trans ?_
  rw [core_setC, core_afterOperand]
  rfl

theorem State.modifyOperand_ends (s : State) (o : Operand) (f : Bool → Byte → Byte × Bool)
    {after : State → Byte → State} (hafter : ∀ t v, (after t v).core = after t.core v) :
    (s.modifyOperand o f after).Ends
      (after { s.core.setC (f s.flags.c (s.operandByte o)).2 with a := (s.stored o f).a }
        (f s.flags.c (s.operandByte o)).1) := by
  rw [modifyOperand_stored, ← core_stored, ← hafter]
  exact addCycles_ends (rmwCycles_pos _) rfl

theorem State.branch_ends (s : State) (c : Bool) (d : Byte) :
    (s.branch c d).Ends { s.core with pc := (s.branch c d).pc } := by
  unfold branch
  split_ifs
  · exact addCycles_ends (Nat.add_pos_left (by decide) _) rfl
  · exact addCycles_ends (by decide) rfl

/-! ### The arithmetic -/

theorem adc_frame (f : Flags) (a m : Byte) :
    (adc f a m).2.b = f.b ∧ (adc f a m).2.d = f.d ∧ (adc f a m).2.i = f.i := by
  unfold adc
  split_ifs <;> exact ⟨rfl, rfl, rfl⟩

theorem sbc_frame (f : Flags) (a m : Byte) :
    (sbc f a m).2.b = f.b ∧ (sbc f a m).2.d = f.d ∧ (sbc f a m).2.i = f.i := by
  unfold sbc
  split_ifs <;> exact ⟨rfl, rfl, rfl⟩

/-! ### Every instruction -/

/-- Every instruction meets its frame: by the shape it has, with one entry for each flag it may write (`nofun`) or
leaves (`rfl`). -/
theorem exec_frame {i : Instr} {s t : State} (h : exec i s = .next t) : InstrFrame i s t := by
  cases i <;> injection h with h <;> subst h
  case lda | ldx | ldy | lax | and | ora | eor =>
    exact .of_ends (s.readOperand_ends _ fun _ _ => rfl)
      ⟨nofun, fun _ => rfl, fun _ => rfl, fun _ => rfl, fun _ => rfl, fun _ => rfl⟩
  case bit =>
    exact .of_ends (s.readOperand_ends _ fun _ _ => rfl)
      ⟨nofun, nofun, fun _ => rfl, fun _ => rfl, fun _ => rfl, fun _ => rfl⟩
  case cmp | cpx | cpy =>
    exact .of_ends (s.readOperand_ends _ fun _ _ => rfl)
      ⟨nofun, fun _ => rfl, fun _ => rfl, fun _ => rfl, fun _ => rfl, nofun⟩
  case adc =>
    obtain ⟨hb, hd, hi⟩ := adc_frame s.flags s.a (s.operandByte _)
    exact .of_ends (s.readOperand_ends _ fun _ _ => rfl)
      ⟨nofun, nofun, fun _ => hb, fun _ => hd, fun _ => hi, nofun⟩
  case sbc | usbc =>
    obtain ⟨hb, hd, hi⟩ := sbc_frame s.flags s.a (s.operandByte _)
    exact .of_ends (s.readOperand_ends _ fun _ _ => rfl)
      ⟨nofun, nofun, fun _ => hb, fun _ => hd, fun _ => hi, nofun⟩
  case sta | stx | sty | sax => exact .of_ends (s.storeOperand_ends _ _) (.refl _ _)
  case sha | shx | shy => exact .of_ends (s.storeUnlessUnstable_ends _ _ _) (.refl _ _)
  case asl | lsr | rol | ror | slo | rla | sre | dcp =>
    exact .of_ends (s.modifyOperand_ends _ _ fun _ _ => rfl)
      ⟨nofun, fun _ => rfl, fun _ => rfl, fun _ => rfl, fun _ => rfl, nofun⟩
  case inc | dec =>
    exact .of_ends (s.modifyOperand_ends _ _ fun _ _ => rfl)
      ⟨nofun, fun _ => rfl, fun _ => rfl, fun _ => rfl, fun _ => rfl, fun _ => rfl⟩
  case rra =>
    exact .of_ends (s.modifyOperand_ends _ _ fun _ _ => rfl)
      ⟨nofun, nofun, fun _ => (adc_frame _ _ _).1, fun _ => (adc_frame _ _ _).2.1, fun _ => (adc_frame _ _ _).2.2,
        nofun⟩
  case isc =>
    exact .of_ends (s.modifyOperand_ends _ _ fun _ _ => rfl)
      ⟨nofun, nofun, fun _ => (sbc_frame _ _ _).1, fun _ => (sbc_frame _ _ _).2.1, fun _ => (sbc_frame _ _ _).2.2,
        nofun⟩
  case tax | tay | txa | tya | tsx | inx | iny | dex | dey =>
    exact .of_ends (State.addCycles_ends (by decide) rfl)
      ⟨nofun, fun _ => rfl, fun _ => rfl, fun _ => rfl, fun _ => rfl, fun _ => rfl⟩
  case anc | alr | sbx =>
    exact .of_ends (State.addCycles_ends (by decide) rfl)
      ⟨nofun, fun _ => rfl, fun _ => rfl, fun _ => rfl, fun _ => rfl, nofun⟩
  case arr =>
    exact .of_ends (State.addCycles_ends (by decide) rfl)
      ⟨nofun, nofun, fun _ => rfl, fun _ => rfl, fun _ => rfl, nofun⟩
  case clv =>
    exact .of_ends (State.addCycles_ends (by decide) rfl)
      ⟨fun _ => ⟨rfl, rfl⟩, nofun, fun _ => rfl, fun _ => rfl, fun _ => rfl, fun _ => rfl⟩
  case cld | sed =>
    exact .of_ends (State.addCycles_ends (by decide) rfl)
      ⟨fun _ => ⟨rfl, rfl⟩, fun _ => rfl, fun _ => rfl, nofun, fun _ => rfl, fun _ => rfl⟩
  case cli | sei =>
    exact .of_ends (State.addCycles_ends (by decide) rfl)
      ⟨fun _ => ⟨rfl, rfl⟩, fun _ => rfl, fun _ => rfl, fun _ => rfl, nofun, fun _ => rfl⟩
  case clc | sec =>
    exact .of_ends (State.addCycles_ends (by decide) rfl)
      ⟨fun _ => ⟨rfl, rfl⟩, fun _ => rfl, fun _ => rfl, fun _ => rfl, fun _ => rfl, nofun⟩
  case nop | ane | lxa | jam => exact .of_ends (State.addCycles_ends (by decide) rfl) (.refl _ _)
  case nopx =>
    refine .of_ends (u := s.core) (State.addCycles_ends (Nat.add_pos_left (readCycles_pos _) _) ?_) (.refl _ _)
    split_ifs <;> simp
  case bpl | bmi | bvc | bvs | bcc | bcs | bne | beq =>
    exact .of_ends (s.branch_ends _ _) (.refl _ _) (hpc := nofun)
  case jmp =>
    exact .of_ends (State.addCycles_ends (jumpCycles_pos _) (congrArg (State.setPc · _) (s.core_resolve _)))
      (.refl _ _) (hpc := nofun)
  case jsr =>
    rw [State.push16_eq]
    exact .of_ends (State.addCycles_ends (by decide) rfl) (.refl _ _) (hsp := nofun) (hpc := nofun)
  case rts =>
    rw [State.pull16_eq]
    exact .of_ends (State.addCycles_ends (by decide) rfl) (.refl _ _) (hsp := nofun) (hpc := nofun)
  case rti =>
    rw [State.returnFromHandler_eq]
    exact .of_ends (State.addCycles_ends (by decide) rfl) ⟨nofun, nofun, nofun, nofun, nofun, nofun⟩ (hsp := nofun)
      (hpc := nofun)
  case brk =>
    rw [State.enterHandler_eq _ _ _ (by decide)]
    exact .of_ends (State.addCycles_ends (by decide) rfl)
      ⟨fun _ => ⟨rfl, rfl⟩, fun _ => rfl, fun _ => rfl, fun _ => rfl, nofun, fun _ => rfl⟩ (hsp := nofun)
      (hpc := nofun)
  case txs => exact .of_ends (State.addCycles_ends (by decide) rfl) (.refl _ _) (hsp := nofun)
  case pha | php =>
    rw [State.push8_eq]
    exact .of_ends (State.addCycles_ends (by decide) rfl) (.refl _ _) (hsp := nofun)
  case pla =>
    rw [State.pull8_eq]
    exact .of_ends (State.addCycles_ends (by decide) rfl)
      ⟨nofun, fun _ => rfl, fun _ => rfl, fun _ => rfl, fun _ => rfl, fun _ => rfl⟩ (hsp := nofun)
  case plp =>
    rw [State.pull8_eq]
    exact .of_ends (State.addCycles_ends (by decide) rfl) ⟨nofun, nofun, nofun, nofun, nofun, nofun⟩ (hsp := nofun)
  case tas =>
    split_ifs
    · exact .of_ends (State.addCycles_ends (storeCycles_pos _) rfl) (.refl _ _)
    · exact .of_ends (State.storeOperand_ends _ _ _) (.refl _ _) (hsp := nofun)
  case las =>
    split_ifs
    · exact .of_ends (State.addCycles_ends (Nat.add_pos_left (readCycles_pos _) _) rfl) (.refl _ _)
    · exact .of_ends (s.readOperand_ends _ fun _ _ => rfl)
        ⟨nofun, fun _ => rfl, fun _ => rfl, fun _ => rfl, fun _ => rfl, fun _ => rfl⟩ (hsp := nofun)

/-- Settles O57 by the flag part of each instruction's frame. -/
theorem flagWriters : Obligations.FlagWriters := fun _ _ _ _ h => (exec_frame h).flags

/-- Settles O58 by the rest of it. -/
theorem registerWriters : Obligations.RegisterWriters := fun _ _ _ _ h => (exec_frame h).registers

end Sys2Proof.Machine
end

section
/-! SUPPORT. The cycle counter never runs backwards, and a step moves it forward (spec/10_state.md R32). -/

namespace Sys2Proof.Machine

/-! ### Before the gate -/

theorem State.fetchByte_cycle (s : State) : s.fetchByte.2.cycle = s.cycle :=
  (congrArg State.cycle (s.core_memRead s.pc) : (s.memRead s.pc).2.core.cycle = s.core.cycle)

theorem State.fetchInstr_cycle (s : State) : s.fetchInstr.2.cycle = s.cycle := by
  unfold fetchInstr
  dsimp only
  split <;> simp only [fetchByte_cycle]

theorem executeInstruction_cycle {s t : State} (h : s.executeInstruction = .next t) : s.cycle < t.cycle :=
  s.fetchInstr_cycle ▸ (exec_frame h).time

theorem State.serviceIrq_cycle (s : State) : s.serviceIrq.cycle = s.cycle + 7 := by
  unfold serviceIrq
  rw [enterHandler_eq _ _ _ (by decide)]
  rfl

/-- A stalled advance ends at the stall limit or at the next event, both ahead. -/
theorem State.stalledAdvance_cycle {s : State} (hahead : s.WakeAhead) (hstall : s.cycle < s.stallUntil) :
    s.cycle < s.stalledAdvance.cycle := by
  unfold stalledAdvance
  cases hwake : s.nextWake with
  | none => exact lt_max_of_lt_right hstall
  | some w =>
    have hw : s.cycle < w := by
      unfold WakeAhead at hahead
      simpa [hwake, reached] using hahead
    exact lt_max_of_lt_right (lt_min hstall hw)

/-! ### The gate -/

theorem State.fireIrq_cycle (s : State) (bits : Byte) : (s.fireIrq bits).cycle = s.cycle := by
  unfold fireIrq
  dsimp only
  split_ifs <;> rfl

theorem State.handleDli_cycle (s : State) : s.cycle ≤ s.handleDli.cycle := by
  unfold handleDli
  dsimp only
  split_ifs
  · obtain ⟨-, -, -, -, hcycle⟩ :=
      nmi_time { s with antic := { s.antic with nmist := (s.antic.nmist &&& ~~~0x40) ||| 0x80 } }
    exact hcycle ▸ Nat.le_add_right _ _
  · exact le_refl _

theorem State.handle_cycle (s : State) (e : EventId) (t : Nat) : s.cycle ≤ (s.handle e t).cycle := by
  cases e with
  | fetch =>
    obtain ⟨-, -, hle, -⟩ := s.handleFetch_time t
    exact hle
  | draw => exact s.handleDraw_time.1.ge
  | dli => exact s.handleDli_cycle
  | timer1 | timer2 | timer4 | serOutNeeded | serOutDone | serInReady => exact (s.fireIrq_cycle _).ge

theorem State.eventGate_cycle (s : State) : s.cycle ≤ s.eventGate.cycle :=
  serviceEvents_keeps (P := fun u => s.cycle ≤ u.cycle) (fun u e t hu _ _ => hu.trans (u.handle_cycle e t))
    (fun _ hu _ => hu) (fun _ _ hu => hu) _ (le_refl _)

/-- Settles O15: a stalled advance, an IRQ service and an instruction each add cycles, and the gate takes none away. -/
theorem stepAdvancesCycle : Obligations.StepAdvancesCycle := by
  intro s t hahead hclosed h
  obtain ⟨u, rfl, hu⟩ := step_cases h
  refine lt_of_lt_of_le ?_ u.eventGate_cycle
  rcases hu with ⟨hopen, -⟩ | ⟨-, hstall, rfl⟩ | ⟨-, -, -, -, rfl⟩ | ⟨-, -, -, hexec⟩
  · exact absurd hopen (by simp [hclosed])
  · exact State.stalledAdvance_cycle hahead hstall
  · exact s.serviceIrq_cycle ▸ Nat.lt_add_of_pos_right (by decide)
  · exact executeInstruction_cycle hexec

end Sys2Proof.Machine
end

section
/-! SUPPORT. No step reaches the ROM images, the parameters or the host's inputs (spec/10_state.md R40,
spec/61_platform_devices.md R390, R397, R414). -/

namespace Sys2Proof.Machine

/-- The ROM images, the parameters and what the host's inputs set: port inputs, triggers, console keys, keyboard. -/
def State.hostInputs (s : State) :
    Option (List Byte) × Option (List Byte) × Params × Byte × Byte × BitVec 4 × BitVec 3 × Byte × List (Key × Nat) ×
      List Nat :=
  (s.osRom, s.basicRom, s.params, s.pia.portaIn, s.pia.portbIn, s.gtia.trigPressed, s.gtia.consol, s.pokey.kbcode,
    s.pokey.keysDown, s.pokey.shiftDown)

theorem State.arm_hostInputs (s : State) (e : EventId) (t : Option Nat) : (s.arm e t).hostInputs = s.hostInputs := rfl

/-! ### Reads and stores -/

theorem State.sync_hostInputs (s : State) (c : Nat) : (s.sync c).hostInputs = s.hostInputs := by
  obtain ⟨_, _, _, _, _, _, h⟩ := s.sync_frame c
  rw [h]
  rfl

theorem State.serinRead_hostInputs (s : State) : s.serinRead.2.hostInputs = s.hostInputs := by
  unfold serinRead
  dsimp only
  split_ifs <;> rfl

theorem State.pokeyRead_hostInputs (s : State) (off : Nat) : (s.pokeyRead off).2.hostInputs = s.hostInputs := by
  unfold pokeyRead
  split_ifs
  · rfl
  · rfl
  · rfl
  · exact s.sync_hostInputs s.cycle
  · exact s.serinRead_hostInputs
  · rfl
  · rfl
  · rfl

theorem State.memRead_hostInputs (s : State) (a : Word) : (s.memRead a).2.hostInputs = s.hostInputs := by
  cases h : isDevice a.toNat
  · rw [s.memRead_of_not_device h]
  · rw [s.memRead_of_device h]
    unfold devRead
    cases chipOf a.toNat
    case pokey => exact s.pokeyRead_hostInputs _
    all_goals rfl

theorem State.seroutWrite_hostInputs (s : State) (v : Byte) : (s.seroutWrite v).hostInputs = s.hostInputs := by
  rw [s.seroutWrite_eq v]
  rfl

theorem State.portbWrite_hostInputs (s : State) (v : Byte) : (s.portbWrite v).hostInputs = s.hostInputs := by
  unfold portbWrite
  rw [install_engine]
  rfl

theorem State.gtiaWrite_hostInputs (s : State) (off : Nat) (v : Byte) :
    (s.gtiaWrite off v).hostInputs = s.hostInputs := by
  unfold gtiaWrite gractlWrite clearCollisions
  split_ifs <;> simp only [hostInputs]

theorem State.pokeyWrite_hostInputs (s : State) (off : Nat) (v : Byte) :
    (s.pokeyWrite off v).hostInputs = s.hostInputs := by
  unfold pokeyWrite
  split_ifs
  · simp only [stimerWrite, arm_hostInputs]
  · exact s.seroutWrite_hostInputs v
  · rfl
  · rfl

theorem State.piaWrite_hostInputs (s : State) (off : Nat) (v : Byte) :
    (s.piaWrite off v).hostInputs = s.hostInputs := by
  unfold piaWrite
  split_ifs
  · rfl
  · rfl
  · exact s.portbWrite_hostInputs v
  · rfl
  · rfl
  · rfl

theorem State.anticWrite_hostInputs (s : State) (off : Nat) (v : Byte) :
    (s.anticWrite off v).hostInputs = s.hostInputs := by
  unfold anticWrite raiseStall
  split_ifs <;> simp only [hostInputs]

theorem State.devWrite_hostInputs (s : State) (a : Nat) (v : Byte) : (s.devWrite a v).hostInputs = s.hostInputs := by
  unfold devWrite
  cases chipOf a with
  | gtia => exact s.gtiaWrite_hostInputs _ v
  | pokey => exact s.pokeyWrite_hostInputs _ v
  | pia => exact s.piaWrite_hostInputs _ v
  | antic => exact s.anticWrite_hostInputs _ v
  | unmapped => rfl

theorem State.beforeDevWrite_hostInputs (s : State) (a : Nat) : (s.beforeDevWrite a).hostInputs = s.hostInputs := by
  unfold beforeDevWrite
  cases chipOf a <;> dsimp only
  split_ifs
  · exact s.sync_hostInputs s.cycle
  · rfl

theorem State.memWrite_hostInputs (s : State) (a : Word) (v : Byte) : (s.memWrite a v).hostInputs = s.hostInputs := by
  cases h : s.banks.dispatch a.toNat
  case ram => rw [s.memWrite_of_ram v h]; rfl
  case rom => rw [s.memWrite_of_rom v h]; rfl
  case dev =>
    rw [s.memWrite_of_device v ((s.banks.dispatch_dev_iff _).1 h), devWrite_hostInputs]
    exact s.beforeDevWrite_hostInputs a.toNat

theorem CpuAction.hostInputs {s t : State} (k : CpuAction s t) : t.hostInputs = s.hostInputs := by
  cases k with
  | read a => exact s.memRead_hostInputs a
  | write a v => exact s.memWrite_hostInputs a v
  | registers | cycles | pending => rfl

/-! ### Event handlers -/

theorem State.nmi_hostInputs (s : State) : s.nmi.hostInputs = s.hostInputs :=
  (CpuPath.of_nmi s).keeps (P := fun t => t.hostInputs = s.hostInputs) (fun _ _ k h => k.hostInputs.trans h) rfl

theorem State.raiseVbi_hostInputs (s : State) : s.raiseVbi.hostInputs = s.hostInputs := by
  unfold raiseVbi
  dsimp only
  split_ifs
  · exact nmi_hostInputs _
  · rfl

theorem State.fetchDlInstruction_hostInputs (s : State) (t : Nat) :
    (s.fetchDlInstruction t).hostInputs = s.hostInputs := by
  rw [(s.fetchDlInstruction_frame t).state]
  rfl

theorem State.handleFetch_hostInputs (s : State) (t : Nat) : (s.handleFetch t).hostInputs = s.hostInputs := by
  have hend : ∀ (u : State) (n : Nat) (a b : Option Nat),
      (((u.raiseStall n).arm .fetch a).arm .draw b).hostInputs = u.hostInputs := fun _ _ _ _ => rfl
  have hline : (s.nextScanline t).hostInputs = s.hostInputs := rfl
  unfold handleFetch
  dsimp only
  rw [hend]
  split_ifs <;> simp only [fetchDlInstruction_hostInputs, raiseVbi_hostInputs, hline]

theorem State.renderPlayfield_hostInputs (s : State) : s.renderPlayfield.hostInputs = s.hostInputs := by
  unfold renderPlayfield advanceMemscan
  dsimp only
  split_ifs <;> rfl

theorem State.playerDma_hostInputs (s : State) : s.playerDma.hostInputs = s.hostInputs := by
  unfold playerDma
  split_ifs <;> rfl

theorem State.missileDma_hostInputs (s : State) : s.missileDma.hostInputs = s.hostInputs := by
  unfold missileDma
  split_ifs <;> rfl

theorem State.compositeSprites_hostInputs (s : State) : s.compositeSprites.hostInputs = s.hostInputs := by
  unfold compositeSprites
  split_ifs <;> simp only [hostInputs]

theorem State.handleDraw_hostInputs (s : State) : s.handleDraw.hostInputs = s.hostInputs := by
  have hend : ∀ (u : State) (a : Antic), ({ u with antic := a }.arm .draw none).hostInputs = u.hostInputs :=
    fun _ _ => rfl
  unfold handleDraw
  dsimp only
  rw [hend, compositeSprites_hostInputs, missileDma_hostInputs, playerDma_hostInputs, renderPlayfield_hostInputs]
  split_ifs <;> rfl

theorem State.handleDli_hostInputs (s : State) : s.handleDli.hostInputs = s.hostInputs := by
  unfold handleDli
  dsimp only
  rw [arm_hostInputs]
  split_ifs
  · rw [nmi_hostInputs]
    rfl
  · rfl

theorem State.fireIrq_hostInputs (s : State) (bits : Byte) : (s.fireIrq bits).hostInputs = s.hostInputs := by
  unfold fireIrq
  dsimp only
  split_ifs <;> rfl

theorem State.handle_hostInputs (s : State) (e : EventId) (t : Nat) : (s.handle e t).hostInputs = s.hostInputs := by
  cases e with
  | fetch => exact s.handleFetch_hostInputs t
  | draw => exact s.handleDraw_hostInputs
  | dli => exact s.handleDli_hostInputs
  | timer1 | timer2 | timer4 | serOutNeeded | serOutDone | serInReady => exact s.fireIrq_hostInputs _

theorem step_hostInputs {s t : State} (h : step s = .next t) : t.hostInputs = s.hostInputs :=
  step_keeps (P := fun u => u.hostInputs = s.hostInputs) (fun _ _ k hu => k.hostInputs.trans hu) (fun _ _ _ hu => hu)
    (fun u e c hu _ _ => (u.handle_hostInputs e c).trans hu) (fun _ hu _ => hu) (fun _ _ hu => hu) rfl h

/-- Settles O16, field by field. -/
theorem stepKeepsHostInputs : Obligations.StepKeepsHostInputs := by
  intro s t h
  have hinputs := step_hostInputs h
  simp only [State.hostInputs, Prod.mk.injEq] at hinputs
  exact hinputs

end Sys2Proof.Machine
end

section
/-! SUPPORT. Nothing reads the stored break flag (spec/10_state.md R28, R30): replacing it commutes with every operation,
but for the two that write it. -/

namespace Sys2Proof.Machine

/-- The stored break flag replaced. -/
def State.withBreak (s : State) (b : Bool) : State := { s with flags := { s.flags with b := b } }

/-! ### Reads and stores -/

theorem State.withBreak_serinRead (s : State) (b : Bool) :
    (s.withBreak b).serinRead = (s.serinRead.1, s.serinRead.2.withBreak b) := by
  have hsio : (s.withBreak b).sio = s.sio := rfl
  unfold serinRead
  dsimp only
  rw [hsio]
  split_ifs <;> rfl

theorem State.withBreak_pokeyRead (s : State) (b : Bool) (off : Nat) :
    (s.withBreak b).pokeyRead off = ((s.pokeyRead off).1, (s.pokeyRead off).2.withBreak b) := by
  unfold pokeyRead
  split_ifs
  · rfl
  · rfl
  · rfl
  · rfl
  · exact s.withBreak_serinRead b
  · rfl
  · rfl
  · rfl

theorem State.withBreak_memRead (s : State) (b : Bool) (a : Word) :
    (s.withBreak b).memRead a = ((s.memRead a).1, (s.memRead a).2.withBreak b) := by
  cases h : isDevice a.toNat
  · rw [State.memRead_of_not_device _ h, State.memRead_of_not_device _ h]
    rfl
  · rw [State.memRead_of_device _ h, State.memRead_of_device _ h]
    unfold devRead
    cases chipOf a.toNat <;> dsimp only
    case pokey => exact s.withBreak_pokeyRead b _
    all_goals rfl

theorem State.withBreak_memWrite (s : State) (b : Bool) (a : Word) (v : Byte) :
    (s.withBreak b).memWrite a v = (s.memWrite a v).withBreak b := by
  have hflags : (s.memWrite a v).flags = s.flags := by
    rw [memWrite_eq_withWriteEffects]
    rfl
  unfold withBreak
  rw [hflags]
  exact s.withFlags_memWrite _ a v

/-! ### Operands -/

theorem State.withBreak_readPair (s : State) (b : Bool) (lo hi : Word) :
    (s.withBreak b).readPair lo hi = ((s.readPair lo hi).1, (s.readPair lo hi).2.withBreak b) := by
  simp only [readPair, withBreak_memRead]

theorem State.withBreak_resolve (s : State) (b : Bool) (o : Operand) :
    (s.withBreak b).resolve o = ((s.resolve o).1, (s.resolve o).2.withBreak b) := by
  cases o
  case ind w => exact congrArg (fun p : Word × State => (Resolved.at p.1, p.2)) (s.withBreak_readPair b _ _)
  case izx d => exact congrArg (fun p : Word × State => (Resolved.at p.1, p.2)) (s.withBreak_readPair b _ _)
  case izy d =>
    exact congrArg (fun p : Word × State => (Resolved.indexed p.1 p.2.y, p.2)) (s.withBreak_readPair b _ _)
  all_goals rfl

theorem State.withBreak_load (s : State) (b : Bool) (o : Operand) (r : Resolved) :
    (s.withBreak b).load o r = ((s.load o r).1, (s.load o r).2.withBreak b) := by
  unfold load
  split
  · rfl
  · rfl
  · exact s.withBreak_memRead b _

theorem State.withBreak_store (s : State) (b : Bool) (o : Operand) (r : Resolved) (v : Byte) :
    (s.withBreak b).store o r v = (s.store o r v).withBreak b := by
  unfold store
  split
  · rfl
  · exact s.withBreak_memWrite b _ v

theorem State.withBreak_readOperand (s : State) (b : Bool) (o : Operand) {act : State → Byte → State}
    (hact : ∀ t v, act (t.withBreak b) v = (act t v).withBreak b) :
    (s.withBreak b).readOperand o act = (s.readOperand o act).withBreak b := by
  unfold readOperand
  simp only [withBreak_resolve, withBreak_load, hact]
  rfl

theorem State.withBreak_storeOperand (s : State) (b : Bool) (o : Operand) {value : State → Resolved → Byte}
    (hvalue : ∀ t r, value (t.withBreak b) r = value t r) :
    (s.withBreak b).storeOperand o value = (s.storeOperand o value).withBreak b := by
  unfold storeOperand
  simp only [withBreak_resolve, withBreak_store, hvalue]
  rfl

theorem State.withBreak_storeUnlessUnstable (s : State) (b : Bool) (op : Byte) (o : Operand)
    {value : State → Resolved → Byte} (hvalue : ∀ t r, value (t.withBreak b) r = value t r) :
    (s.withBreak b).storeUnlessUnstable op o value = (s.storeUnlessUnstable op o value).withBreak b := by
  have hunstable : (s.withBreak b).unstable op = s.unstable op := rfl
  unfold storeUnlessUnstable
  rw [hunstable]
  split_ifs
  · rw [withBreak_resolve]
    rfl
  · exact s.withBreak_storeOperand b o hvalue

theorem State.withBreak_modifyOperand (s : State) (b : Bool) (o : Operand) (f : Bool → Byte → Byte × Bool)
    {after : State → Byte → State} (hafter : ∀ t v, after (t.withBreak b) v = (after t v).withBreak b) :
    (s.withBreak b).modifyOperand o f after = (s.modifyOperand o f after).withBreak b := by
  have hc : ∀ t : State, (t.withBreak b).flags.c = t.flags.c := fun _ => rfl
  have hsetC : ∀ (t : State) (c : Bool), (t.withBreak b).setC c = (t.setC c).withBreak b := fun _ _ => rfl
  unfold modifyOperand
  simp only [withBreak_resolve, withBreak_load, hc, hsetC, withBreak_store, hafter]
  rfl

theorem State.withBreak_branch (s : State) (b c : Bool) (d : Byte) :
    (s.withBreak b).branch c d = (s.branch c d).withBreak b := by
  unfold branch
  split_ifs <;> rfl

/-! ### Instructions -/

theorem State.withBreak_adc (s : State) (b : Bool) (m : Byte) : (s.withBreak b).adc m = (s.adc m).withBreak b := by
  have hd : (s.withBreak b).flags.d = s.flags.d := rfl
  unfold State.adc Machine.adc
  rw [hd]
  split_ifs <;> rfl

theorem State.withBreak_sbc (s : State) (b : Bool) (m : Byte) : (s.withBreak b).sbc m = (s.sbc m).withBreak b := by
  have hd : (s.withBreak b).flags.d = s.flags.d := rfl
  unfold State.sbc Machine.sbc
  rw [hd]
  split_ifs <;> rfl

/-- PLP and RTI overwrite the break flag; every other instruction leaves it. -/
theorem exec_withBreak {i : Instr} {s t : State} (b : Bool) (h : exec i s = .next t) :
    ∃ c, exec i (s.withBreak b) = .next (t.withBreak c) := by
  cases i <;> injection h with h <;> subst h
  case plp =>
    rw [State.pull8_eq]
    refine ⟨(unpack (s.ram.read (0x100 + (s.sp + 1).toNat))).b, ?_⟩
    rw [exec, execPlp, State.pull8_eq]
    rfl
  case rti =>
    rw [State.returnFromHandler_eq]
    refine ⟨(unpack (s.ram.read (0x100 + (s.sp + 1).toNat))).b, ?_⟩
    rw [exec, execRti, State.returnFromHandler_eq]
    rfl
  all_goals refine ⟨b, congrArg Host.Outcome.next ?_⟩
  case lda | ldx | ldy | lax | and | ora | eor | bit | cmp | cpx | cpy =>
    exact s.withBreak_readOperand b _ fun _ _ => rfl
  case adc => exact s.withBreak_readOperand b _ fun t v => t.withBreak_adc b v
  case sbc | usbc => exact s.withBreak_readOperand b _ fun t v => t.withBreak_sbc b v
  case sta | stx | sty | sax => exact s.withBreak_storeOperand b _ fun _ _ => rfl
  case sha | shx | shy => exact s.withBreak_storeUnlessUnstable b _ _ fun _ _ => rfl
  case asl | lsr | rol | ror | inc | dec | slo | rla | sre | dcp => exact s.withBreak_modifyOperand b _ _ fun _ _ => rfl
  case rra => exact s.withBreak_modifyOperand b _ _ fun t v => t.withBreak_adc b v
  case isc => exact s.withBreak_modifyOperand b _ _ fun t v => t.withBreak_sbc b v
  case bpl | bmi | bvc | bvs | bcc | bcs | bne | beq => exact s.withBreak_branch b _ _
  case tax | tay | txa | tya | tsx | txs | inx | iny | dex | dey => rfl
  case clc | sec | cli | sei | clv | cld | sed | nop => rfl
  case anc | alr | arr | sbx | ane | lxa | jam => rfl
  case pha | php =>
    simp only [State.push8_eq]
    rfl
  case pla =>
    simp only [State.pull8_eq]
    rfl
  case jsr =>
    simp only [State.push16_eq]
    rfl
  case rts =>
    simp only [State.pull16_eq]
    rfl
  case brk =>
    simp only [State.enterHandler_eq _ _ _ (show 0xD800 ≤ irqVector.toNat ∧ irqVector.toNat < 0xFFFF by decide)]
    rfl
  case jmp o =>
    rw [s.withBreak_resolve b o]
    rfl
  case tas =>
    have hunstable : (s.withBreak b).unstable 0x9B = s.unstable 0x9B := rfl
    rw [hunstable]
    split_ifs
    · rfl
    · exact State.withBreak_storeOperand { s with sp := s.a &&& s.x } b _
        (value := fun t r => t.sp &&& nextHigh r.ea t.y) fun _ _ => rfl
  case las =>
    have hunstable : (s.withBreak b).unstable 0xBB = s.unstable 0xBB := rfl
    rw [hunstable]
    split_ifs
    · rfl
    · exact s.withBreak_readOperand b _ fun _ _ => rfl
  case nopx op o =>
    have hparams : (s.withBreak b).params = s.params := rfl
    rw [hparams, s.withBreak_resolve b o]
    split_ifs
    · rw [State.withBreak_memRead]
      rfl
    · rfl

/-! ### Event handlers -/

theorem State.withBreak_arm (s : State) (b : Bool) (e : EventId) (t : Option Nat) :
    (s.withBreak b).arm e t = (s.arm e t).withBreak b := rfl

theorem State.withBreak_ite (p : Prop) [Decidable p] (s t : State) (b : Bool) :
    (if p then s.withBreak b else t.withBreak b) = (if p then s else t).withBreak b := by
  split_ifs <;> rfl

theorem State.withBreak_nmi (s : State) (b : Bool) : (s.withBreak b).nmi = s.nmi.withBreak b := by
  unfold nmi
  simp only [enterHandler_eq _ _ _ (show 0xD800 ≤ nmiVector.toNat ∧ nmiVector.toNat < 0xFFFF by decide)]
  rfl

theorem State.withBreak_serviceIrq (s : State) (b : Bool) : (s.withBreak b).serviceIrq = s.serviceIrq.withBreak b := by
  unfold serviceIrq
  simp only [enterHandler_eq _ _ _ (show 0xD800 ≤ irqVector.toNat ∧ irqVector.toNat < 0xFFFF by decide)]
  rfl

theorem State.withBreak_fireIrq (s : State) (b : Bool) (bits : Byte) :
    (s.withBreak b).fireIrq bits = (s.fireIrq bits).withBreak b := by
  have hpokey : (s.withBreak b).pokey = s.pokey := rfl
  unfold fireIrq
  dsimp only
  rw [hpokey]
  split_ifs <;> rfl

theorem State.withBreak_handleTimer (s : State) (b : Bool) (e : EventId) (n : Nat) (bits : Byte) (t : Nat) :
    (s.withBreak b).handleTimer e n bits t = (s.handleTimer e n bits t).withBreak b := by
  unfold handleTimer
  rw [withBreak_fireIrq]
  rfl

theorem State.withBreak_handleSerial (s : State) (b : Bool) (e : EventId) (bits : Byte) :
    (s.withBreak b).handleSerial e bits = (s.handleSerial e bits).withBreak b := by
  unfold handleSerial
  rw [withBreak_fireIrq]
  rfl

/-- NMIST with one of its two bits set and the other clear. -/
def State.setNmist (s : State) (clear set : Byte) : State :=
  { s with antic := { s.antic with nmist := (s.antic.nmist &&& ~~~clear) ||| set } }

theorem State.withBreak_setNmist (s : State) (b : Bool) (clear set : Byte) :
    (s.withBreak b).setNmist clear set = (s.setNmist clear set).withBreak b := rfl

theorem State.raiseVbi_eq (s : State) : s.raiseVbi =
    if s.antic.nmien.getLsbD 6 then (s.setNmist 0x80 0x40).nmi else s.setNmist 0x80 0x40 := rfl

theorem State.handleDli_eq (s : State) : s.handleDli =
    (if s.antic.nmien.getLsbD 7 then (s.setNmist 0x40 0x80).nmi else s.setNmist 0x40 0x80).arm .dli none := rfl

theorem State.withBreak_raiseVbi (s : State) (b : Bool) : (s.withBreak b).raiseVbi = s.raiseVbi.withBreak b := by
  have hantic : (s.withBreak b).antic = s.antic := rfl
  simp only [raiseVbi_eq, hantic, withBreak_setNmist, withBreak_nmi, withBreak_ite]

theorem State.withBreak_handleDli (s : State) (b : Bool) : (s.withBreak b).handleDli = s.handleDli.withBreak b := by
  have hantic : (s.withBreak b).antic = s.antic := rfl
  simp only [handleDli_eq, hantic, withBreak_setNmist, withBreak_nmi, withBreak_ite, withBreak_arm]

/-! ### Display list -/

theorem State.withBreak_dlByte (s : State) (b : Bool) :
    (s.withBreak b).dlByte = (s.dlByte.1, s.dlByte.2.withBreak b) := rfl

theorem State.withBreak_dlWord (s : State) (b : Bool) :
    (s.withBreak b).dlWord = (s.dlWord.1, s.dlWord.2.withBreak b) := rfl

theorem State.withBreak_dlJump (s : State) (b wait : Bool) :
    (s.withBreak b).dlJump wait = ((s.dlJump wait).1, (s.dlJump wait).2.withBreak b) := by
  cases wait <;> rfl

theorem State.withBreak_dlDisplay (s : State) (b : Bool) (cmd : Byte) :
    (s.withBreak b).dlDisplay cmd = ((s.dlDisplay cmd).1, (s.dlDisplay cmd).2.withBreak b) := by
  unfold dlDisplay
  cases cmd.getLsbD 6 <;> rfl

theorem State.withBreak_dlExecute (s : State) (b : Bool) (cmd : Byte) :
    (s.withBreak b).dlExecute cmd = ((s.dlExecute cmd).1, (s.dlExecute cmd).2.withBreak b) := by
  unfold dlExecute
  dsimp only
  split_ifs
  · rfl
  · exact withBreak_dlJump { s with antic := { s.antic with dlcmd := cmd } } b _
  · exact withBreak_dlDisplay { s with antic := { s.antic with dlcmd := cmd } } b cmd

theorem State.withBreak_fetchDlInstruction (s : State) (b : Bool) (t : Nat) :
    (s.withBreak b).fetchDlInstruction t = (s.fetchDlInstruction t).withBreak b := by
  unfold fetchDlInstruction
  simp only [withBreak_dlByte, withBreak_dlExecute]
  split_ifs <;> rfl

/-- The end of a scanline boundary: the DMA stall, the next boundary and the draw event. -/
def State.endFetch (s : State) (t : Nat) : State :=
  ((s.raiseStall (t + s.dmaStall)).arm .fetch (some (t + cyclesPerLine))).arm .draw (some (t + s.params.drawOffset))

theorem State.withBreak_endFetch (s : State) (b : Bool) (t : Nat) :
    (s.withBreak b).endFetch t = (s.endFetch t).withBreak b := rfl

theorem State.withBreak_handleFetch (s : State) (b : Bool) (t : Nat) :
    (s.withBreak b).handleFetch t = (s.handleFetch t).withBreak b := by
  have hend (u : State) : ((u.raiseStall (t + u.dmaStall)).arm .fetch (some (t + cyclesPerLine))).arm .draw
    (some (t + (u.raiseStall (t + u.dmaStall)).params.drawOffset)) = u.endFetch t := rfl
  have hline : (s.withBreak b).nextScanline t = (s.nextScanline t).withBreak b := rfl
  have hantic (u : State) : (u.withBreak b).antic = u.antic := rfl
  have hfetches (u : State) : (u.withBreak b).fetchesHere = u.fetchesHere := rfl
  simp only [handleFetch, hend, hline, hantic, withBreak_raiseVbi, withBreak_ite, hfetches,
    withBreak_fetchDlInstruction, withBreak_endFetch]

/-! ### Drawing -/

theorem State.withBreak_advanceMemscan (s : State) (b : Bool) :
    (s.withBreak b).advanceMemscan = s.advanceMemscan.withBreak b := by
  have hcond : ((s.withBreak b).lineMode ≠ 0 ∧ (s.withBreak b).antic.rowsLeft = 1) =
    (s.lineMode ≠ 0 ∧ s.antic.rowsLeft = 1) := rfl
  unfold advanceMemscan
  simp only [hcond]
  split_ifs <;> rfl

theorem State.withBreak_playfieldPixel (s : State) (b : Bool) :
    (s.withBreak b).playfieldPixel = s.playfieldPixel := rfl

/-- The rows of the two planes written, before the memory scan moves. -/
def State.writeRows (s : State) : State :=
  let pixels := (List.range frameColumns).map s.playfieldPixel
  { s with
    frame := s.frame.setRow s.antic.scanline (pixels.map Prod.fst)
    prio := s.prio.setRow s.antic.scanline (pixels.map fun (p : Byte × Source) => p.2.priority) }

theorem State.withBreak_writeRows (s : State) (b : Bool) : (s.withBreak b).writeRows = s.writeRows.withBreak b := by
  unfold writeRows
  rw [withBreak_playfieldPixel]
  rfl

theorem State.withBreak_renderPlayfield (s : State) (b : Bool) :
    (s.withBreak b).renderPlayfield = s.renderPlayfield.withBreak b := by
  have hrows (u : State) : u.renderPlayfield = u.writeRows.advanceMemscan := rfl
  rw [hrows, hrows, withBreak_writeRows, withBreak_advanceMemscan]

theorem State.withBreak_playerDma (s : State) (b : Bool) : (s.withBreak b).playerDma = s.playerDma.withBreak b := by
  have hcond : ((s.withBreak b).dmactl.getLsbD 3 && (s.withBreak b).gractl.getLsbD 1) =
    (s.dmactl.getLsbD 3 && s.gractl.getLsbD 1) := rfl
  unfold playerDma
  rw [hcond]
  split_ifs <;> rfl

theorem State.withBreak_missileDma (s : State) (b : Bool) : (s.withBreak b).missileDma = s.missileDma.withBreak b := by
  have hcond : ((s.withBreak b).dmactl.getLsbD 2 && (s.withBreak b).gractl.getLsbD 0) =
    (s.dmactl.getLsbD 2 && s.gractl.getLsbD 0) := rfl
  unfold missileDma
  rw [hcond]
  split_ifs <;> rfl

theorem State.withBreak_compositeSprites (s : State) (b : Bool) :
    (s.withBreak b).compositeSprites = s.compositeSprites.withBreak b := by
  have hany : (s.withBreak b).anyDrawn = s.anyDrawn := rfl
  have hbits : (s.withBreak b).collisionBits = s.collisionBits := rfl
  have hram : (s.withBreak b).collisionRam = s.collisionRam := by
    unfold collisionRam
    rw [hbits]
    rfl
  have hpixel : (s.withBreak b).spritePixel = s.spritePixel := rfl
  unfold compositeSprites
  rw [hany, hram, hpixel]
  generalize s.collisionRam = ram
  split_ifs <;> rfl

/-- The priority plane is cleared on the first line of a frame. -/
def State.startDraw (s : State) : State := if s.antic.scanline = 0 then { s with prio := [] } else s

theorem State.withBreak_startDraw (s : State) (b : Bool) : (s.withBreak b).startDraw = s.startDraw.withBreak b := by
  have hantic : (s.withBreak b).antic = s.antic := rfl
  unfold startDraw
  rw [hantic]
  split_ifs <;> rfl

/-- The phase moves on and the draw event is disarmed. -/
def State.endDraw (s : State) : State := { s with antic := { s.antic with phase := s.phaseAfterDraw } }.arm .draw none

theorem State.withBreak_endDraw (s : State) (b : Bool) : (s.withBreak b).endDraw = s.endDraw.withBreak b := rfl

theorem State.handleDraw_startDraw (s : State) :
    s.handleDraw = s.startDraw.renderPlayfield.playerDma.missileDma.compositeSprites.endDraw := rfl

theorem State.withBreak_handleDraw (s : State) (b : Bool) : (s.withBreak b).handleDraw = s.handleDraw.withBreak b := by
  simp only [handleDraw_startDraw, withBreak_startDraw, withBreak_renderPlayfield, withBreak_playerDma,
    withBreak_missileDma, withBreak_compositeSprites, withBreak_endDraw]

theorem State.withBreak_handle (s : State) (b : Bool) (e : EventId) (t : Nat) :
    (s.withBreak b).handle e t = (s.handle e t).withBreak b := by
  cases e with
  | fetch => exact s.withBreak_handleFetch b t
  | draw => exact s.withBreak_handleDraw b
  | dli => exact s.withBreak_handleDli b
  | timer1 | timer2 | timer4 => exact s.withBreak_handleTimer b _ _ _ t
  | serOutNeeded | serOutDone | serInReady => exact s.withBreak_handleSerial b _ _

/-! ### The step -/

theorem State.withBreak_serviceEvents (s : State) (b : Bool) (k : Nat) :
    (s.withBreak b).serviceEvents k = (s.serviceEvents k).withBreak b := by
  induction k generalizing s with
  | zero => rfl
  | succ k ih =>
    have hdue : reached (s.withBreak b).nextWake (s.withBreak b).cycle = reached s.nextWake s.cycle := rfl
    have hearliest : (s.withBreak b).events.earliest = s.events.earliest := rfl
    unfold serviceEvents
    rw [hdue, hearliest]
    split_ifs
    · cases s.events.earliest with
      | none => rfl
      | some p =>
        dsimp only
        rw [withBreak_handle, ih]
    · rfl

theorem State.withBreak_eventGate (s : State) (b : Bool) : (s.withBreak b).eventGate = s.eventGate.withBreak b :=
  s.withBreak_serviceEvents b s.serviceFuel

theorem State.withBreak_fetchByte (s : State) (b : Bool) :
    (s.withBreak b).fetchByte = (s.fetchByte.1, s.fetchByte.2.withBreak b) := by
  have hpc : (s.withBreak b).pc = s.pc := rfl
  unfold fetchByte
  rw [hpc, withBreak_memRead]
  rfl

theorem State.withBreak_fetchInstr (s : State) (b : Bool) :
    (s.withBreak b).fetchInstr = (s.fetchInstr.1, s.fetchInstr.2.withBreak b) := by
  unfold fetchInstr
  simp only [withBreak_fetchByte]
  generalize lengthOf s.fetchByte.1 = n
  match n with
  | 0 | 1 | 2 | _ + 3 => simp only

theorem withBreak_executeInstruction {s t : State} (b : Bool) (h : s.executeInstruction = .next t) :
    ∃ c, (s.withBreak b).executeInstruction = .next (t.withBreak c) := by
  unfold State.executeInstruction
  rw [State.withBreak_fetchInstr]
  exact exec_withBreak b h

/-- Both states take the same branch of the step. -/
theorem step_withBreak (s : State) (b : Bool) :
    ∃ t c, step s = .next t ∧ step (s.withBreak b) = .next (t.withBreak c) := by
  have hopen : (s.withBreak b).serviceOpen = s.serviceOpen := rfl
  have hstall : ((s.withBreak b).cycle < (s.withBreak b).stallUntil) = (s.cycle < s.stallUntil) := rfl
  have hirq : (0 < (s.withBreak b).irqPending ∧ (s.withBreak b).flags.i = false) =
    (0 < s.irqPending ∧ s.flags.i = false) := rfl
  have gate {r r' : Result} {u : State} {c : Bool} (hr : r = .next u) (hr' : r' = .next (u.withBreak c)) :
      ∃ t c, gateAfter r = .next t ∧ gateAfter r' = .next (t.withBreak c) :=
    ⟨u.eventGate, c, by rw [hr]; rfl, by rw [hr', ← State.withBreak_eventGate]; rfl⟩
  unfold step
  simp only [hopen, hstall, hirq]
  split_ifs
  · exact ⟨s.eventGate, b, rfl, by rw [State.withBreak_eventGate]⟩
  · exact gate rfl rfl
  · exact gate rfl (by rw [State.withBreak_serviceIrq])
  · obtain ⟨u, hu⟩ := exec_next s.fetchInstr.1 s.fetchInstr.2
    obtain ⟨c, hc⟩ := withBreak_executeInstruction b hu
    exact gate hu hc

/-- Settles O60: the pair of states goes through the same actions, apart in the break flag alone. -/
theorem breakFlagIsNeverRead : Obligations.BreakFlagIsNeverRead := step_withBreak

end Sys2Proof.Machine
end

section
/-! SUPPORT. What every step keeps, and that it answers (spec/20_memory.md R74 to R76, spec/60_exceptions.md R321, R334,
spec/61_platform_devices.md R361 to R367). -/

namespace Sys2Proof.Machine

/-! ### The invariant -/

theorem State.Timed.withCycle {s : State} (h : s.Timed) {n : Nat} (hn : s.cycle ≤ n) :
    State.Timed { s with cycle := n } :=
  h.follow (.same rfl rfl) rfl rfl hn

theorem step_timed {s t : State} (h : s.Timed) (k : step s = .next t) : t.Timed :=
  step_keeps (P := State.Timed) (fun _ _ => CpuAction.timed) (fun _ _ hn h => h.withCycle hn)
    (fun _ _ _ h hdue he => h.handle hdue he) (fun _ h _ => h.follow ⟨rfl, .inr rfl⟩ rfl rfl (le_refl _))
    (fun _ _ h => h) h k

theorem step_bankInv {s t : State} (h : BankInv s) (k : step s = .next t) : BankInv t :=
  step_keeps (P := BankInv) (fun _ _ => bankInv_action) (fun _ _ _ h => h) (fun _ e t h _ _ => bankInv_handle h e t)
    (fun _ h _ => h) (fun _ _ h => h) h k

/-- Settles O12: the time half and the bank half of the invariant are each kept by every action and every event
handler. -/
theorem stepKeepsInvariant : Obligations.StepKeepsInvariant := by
  intro s t h k
  obtain ⟨hwake, hraster⟩ := step_timed ⟨h.wakeIsLeast, h.onRaster⟩ k
  obtain ⟨hcanonical, hinstalled, hvisible⟩ := step_bankInv ⟨h.canonical, h.installed, h.romVisible⟩ k
  exact ⟨hcanonical, hwake, hraster, hinstalled, hvisible⟩

/-! ### The answer of a step -/

theorem step_next (s : State) : ∃ t, step s = .next t := by
  unfold step
  split_ifs
  · exact ⟨_, rfl⟩
  · exact ⟨_, rfl⟩
  · exact ⟨_, rfl⟩
  · obtain ⟨u, hu⟩ := exec_next s.fetchInstr.1 s.fetchInstr.2
    have hexec : s.executeInstruction = .next u := hu
    exact ⟨u.eventGate, by rw [hexec]; rfl⟩

theorem CpuAction.params {s t : State} (k : CpuAction s t) : t.params = s.params :=
  congrArg (fun inputs => inputs.2.2.1) k.hostInputs

/-- A property kept by every CPU action and by an advance of the cycle counter holds when the step comes to its gate. -/
theorem step_before_gate {P : State → Prop} (haction : ∀ s t, CpuAction s t → P s → P t)
    (hcycle : ∀ (s : State) (n : Nat), s.cycle ≤ n → P s → P { s with cycle := n })
    {s t : State} (hs : P s) (h : step s = .next t) : ∃ u, P u ∧ t = u.eventGate := by
  obtain ⟨u, rfl, hu⟩ := step_cases h
  refine ⟨u, ?_, rfl⟩
  rcases hu with ⟨-, rfl⟩ | ⟨-, -, rfl⟩ | ⟨-, -, -, -, rfl⟩ | ⟨-, -, -, hexec⟩
  · exact hs
  · exact hcycle s _ (Nat.le_max_left _ _) hs
  · exact (CpuPath.of_serviceIrq s).keeps haction hs
  · exact (CpuPath.of_executeInstruction hexec).keeps haction hs

theorem nmiCost_of_legal {p : Params} (h : p.legal = true) : 4 * p.nmiCost < 114 := by
  simp only [Params.legal, Bool.and_eq_true, decide_eq_true_eq] at h
  exact h.2

/-- The event service of the gate is over within its bound. -/
theorem State.eventGate_closes {u : State} (h : u.Timed) (hlegal : u.params.legal = true) :
    u.eventGate.serviceOpen = false :=
  serviceEvents_closes h (nmiCost_of_legal hlegal) (backlog_le_serviceFuel h)

theorem step_closes {s t : State} (h : s.Timed) (hlegal : s.params.legal = true) (k : step s = .next t) :
    t.serviceOpen = false := by
  obtain ⟨u, ⟨hu, hparams⟩, rfl⟩ := step_before_gate (P := fun u => u.Timed ∧ u.params.legal = true)
    (fun _ _ k h => ⟨k.timed h.1, k.params ▸ h.2⟩) (fun _ _ hn h => ⟨h.1.withCycle hn, h.2⟩) ⟨h, hlegal⟩ k
  exact State.eventGate_closes hu hparams

/-- The gate notes whether an event is still due. -/
theorem step_wakeAhead_iff {s t : State} (k : step s = .next t) : t.WakeAhead ↔ t.serviceOpen = false := by
  obtain ⟨u, rfl, -⟩ := step_cases k
  rw [State.WakeAhead, State.eventGate, State.serviceEvents_open]

/-- Settles O14: every branch of the step answers, and the backlog bounds its event service. -/
theorem stepAlwaysAnswers : Obligations.StepAlwaysAnswers := by
  intro s
  obtain ⟨t, k⟩ := step_next s
  refine ⟨t, k, fun hinv hlegal => ?_⟩
  have hclosed := step_closes ⟨hinv.wakeIsLeast, hinv.onRaster⟩ hlegal k
  exact ⟨(step_wakeAhead_iff k).2 hclosed, hclosed⟩

end Sys2Proof.Machine
end

section
/-! SUPPORT. What a memory read and a store may change (spec/20_memory.md R64, R65, R70, R72). -/

namespace Sys2Proof.Machine

/-! ### Reads -/

theorem State.memRead_unmapped (s : State) {a : Word} (hdev : isDevice a.toNat = true)
    (hchip : chipOf a.toNat = .unmapped) : s.memRead a = (s.params.devUnmappedRead, s) := by
  rw [s.memRead_of_device hdev]
  unfold devRead
  rw [hchip]

theorem State.load_state (s : State) {o : Operand} {r : Resolved}
    (h : o.mode = .imm ∨ o.mode = .acc ∨ readHasEffect r.ea.toNat = false) : (s.load o r).2 = s := by
  unfold load
  split
  · rfl
  · rfl
  · next himm hacc => exact s.memRead_state ((h.resolve_left himm).resolve_left hacc)

theorem State.afterOperand_state (s : State) {o : Operand} (hind : o.mode ≠ .ind)
    (h : o.mode = .imm ∨ o.mode = .acc ∨ readHasEffect (s.effectiveAddress o).toNat = false) :
    s.afterOperand o = s := by
  unfold afterOperand
  rw [s.resolve_state hind]
  exact s.load_state h

/-- Settles O18, one law of the reads for each clause. -/
theorem readsChangeOnlyPokeyState : Obligations.ReadsChangeOnlyPokeyState :=
  ⟨fun s a => s.memRead_eq_withReadEffects a, fun s _ h => s.memRead_state h, fun s _ h => s.memRead_of_not_device h,
    fun s _ hdev hchip => s.memRead_unmapped hdev hchip, fun s _ hind h => s.afterOperand_state hind h⟩

/-! ### Regions and the device window -/

/-- The address lies in the region. -/
def Region.Holds (r : Region) (a : Nat) : Prop := r.base ≤ a ∧ a < r.base + r.size

theorem Region.holds_iff_le (r : Region) (a : Nat) : r.Holds a ↔ r.base ≤ a ∧ a ≤ r.base + (r.size - 1) := by
  cases r <;> simp only [Holds, base, size] <;> omega

theorem Region.not_device {r : Region} {a : Nat} (h : r.Holds a) : isDevice a = false := by
  rw [isDevice_false_iff]
  cases r <;> simp only [Holds, base, size] at h <;> omega

theorem Region.not_holds_of_device {a : Nat} (h : isDevice a = true) (r : Region) : ¬ r.Holds a := fun hr =>
  Bool.noConfusion (h.symm.trans (Region.not_device hr))

theorem Region.exists_iff {p : Region → Prop} : (∃ r, p r) ↔ p .selfTest ∨ p .basic ∨ p .osLow ∨ p .osHigh := by
  constructor
  · rintro ⟨r, h⟩
    cases r with
    | selfTest => exact .inl h
    | basic => exact .inr (.inl h)
    | osLow => exact .inr (.inr (.inl h))
    | osHigh => exact .inr (.inr (.inr h))
  · rintro (h | h | h | h) <;> exact ⟨_, h⟩

/-- An address is ROM when it lies in a region that is mapped to ROM. -/
theorem Banks.dispatch_rom_iff (b : Banks) (a : Nat) :
    b.dispatch a = .rom ↔ ∃ r : Region, r.Holds a ∧ b.rom r = true := by
  constructor
  · have mem {lo n : Nat} (h : inRange lo n a = true) : lo ≤ a ∧ a < lo + n := by simpa [inRange] using h
    intro h
    unfold dispatch at h
    split_ifs at h
    · next hin hrom => exact ⟨.selfTest, mem hin, hrom⟩
    · next hin hrom => exact ⟨.basic, mem hin, hrom⟩
    · next hin hrom => exact ⟨.osLow, mem hin, hrom⟩
    · next hin hrom => exact ⟨.osHigh, mem hin, hrom⟩
  · rintro ⟨r, ⟨hlo, hhi⟩, hrom⟩
    obtain ⟨k, rfl⟩ := Nat.exists_eq_add_of_le hlo
    rw [b.dispatch_region r (by omega), if_pos hrom]

/-- Settles O19: the ROM addresses are those of the four regions, each under its own PORTB bits and image. -/
theorem bankMapFollowsPortb : Obligations.BankMapFollowsPortb := by
  intro s a hinstalled _
  refine ⟨?_, ?_⟩
  · rw [s.banks.dispatch_dev_iff, isDevice_iff]
    omega
  · simp only [s.banks.dispatch_rom_iff, hinstalled _, Region.exists_iff, Region.holds_iff_le, Region.base, Region.size,
      State.wantsRom, Region.selected, State.imageOf, Bool.and_eq_true, Bool.not_eq_true', and_assoc, Nat.reduceAdd,
      Nat.reduceSub]

/-! ### Stores outside the device window -/

/-- A store to RAM changes the byte there; the rest of the array reads as before (R65). -/
theorem State.memWrite_ram_read (s : State) {a : Word} (v : Byte) (hram : s.ram.wf = true)
    (h : s.banks.dispatch a.toNat = .ram) :
    s.memWrite a v = { s with ram := (s.memWrite a v).ram } ∧
      ∀ b, (s.memWrite a v).ram.read b = if b = a.toNat then v else s.ram.read b := by
  rw [s.memWrite_of_ram v h]
  exact ⟨rfl, fun b => Memory.read_write hram a.toNat b v⟩

/-- A store to ROM goes to the shadow byte under it (R65). -/
theorem State.memWrite_rom_read (s : State) {a : Word} (v : Byte) (hsram : s.sram.wf = true)
    (h : s.banks.dispatch a.toNat = .rom) :
    s.memWrite a v = { s with sram := (s.memWrite a v).sram } ∧
      ∀ b, (s.memWrite a v).sram.read b = if b = a.toNat then v else s.sram.read b := by
  rw [s.memWrite_of_rom v h]
  exact ⟨rfl, fun b => Memory.read_write hsram a.toNat b v⟩

/-! ### Stores in the device window -/

theorem State.beforeDevWrite_memory (s : State) (n : Nat) : (s.beforeDevWrite n).memory = s.memory := by
  unfold beforeDevWrite
  cases chipOf n <;> dsimp only
  split_ifs <;> rfl

/-- HITCLR is the one GTIA register that reaches memory. -/
theorem State.gtiaWrite_memory (s : State) {off : Nat} (v : Byte) (h : off ≠ 0x1E) :
    (s.gtiaWrite off v).memory = s.memory := by
  unfold gtiaWrite
  rw [if_neg h]
  split_ifs <;> rfl

theorem State.seroutWrite_memory (s : State) (v : Byte) : (s.seroutWrite v).memory = s.memory := by
  rw [s.seroutWrite_eq v]
  rfl

theorem State.pokeyWrite_memory (s : State) (off : Nat) (v : Byte) : (s.pokeyWrite off v).memory = s.memory := by
  unfold pokeyWrite
  split_ifs
  · rfl
  · exact s.seroutWrite_memory v
  · rfl
  · rfl

/-- PORTB is the one PIA register that reaches memory. -/
theorem State.piaWrite_memory (s : State) {off : Nat} (v : Byte) (h : off ≠ 1) :
    (s.piaWrite off v).memory = s.memory := by
  unfold piaWrite
  rw [if_neg h]
  split_ifs <;> rfl

theorem State.anticWrite_memory (s : State) (off : Nat) (v : Byte) : (s.anticWrite off v).memory = s.memory := by
  unfold anticWrite
  split_ifs <;> rfl

theorem State.devWrite_memory (s : State) {n : Nat} (v : Byte) (hportb : n ≠ 0xD301) (hhitclr : n ≠ 0xD01E) :
    (s.devWrite n v).memory = s.memory := by
  unfold devWrite
  cases chipOf n with
  | gtia => exact s.gtiaWrite_memory v (by omega)
  | pokey => exact s.pokeyWrite_memory _ v
  | pia => exact s.piaWrite_memory v (by omega)
  | antic => exact s.anticWrite_memory _ v
  | unmapped => rfl

/-- Apart from PORTB and HITCLR, the shadow byte is all of memory that a store in the window changes. -/
theorem State.memWrite_device_memory (s : State) {a : Word} (v : Byte) (h : isDevice a.toNat = true)
    (hportb : a.toNat ≠ 0xD301) (hhitclr : a.toNat ≠ 0xD01E) :
    (s.memWrite a v).memory = (s.setShadow a.toNat v).memory := by
  obtain ⟨hram, hsram, hbanks⟩ := (memory_eq_iff _ _).1 (s.beforeDevWrite_memory a.toNat)
  rw [s.memWrite_of_device v h, devWrite_memory _ v hportb hhitclr, memory_eq_iff]
  exact ⟨hram, congrArg (Memory.write · a.toNat v) hsram, hbanks⟩

/-- Settles O21: the frame of every store, and of the stores in the window. -/
theorem storesLeaveCpuAlone : Obligations.StoresLeaveCpuAlone := by
  intro s a v _ _
  refine ⟨s.memWrite_eq_withWriteEffects a v, fun hdev hportb hhitclr => ?_⟩
  obtain ⟨hram, hsram, hbanks⟩ := (State.memory_eq_iff _ _).1
    (s.memWrite_device_memory v ((s.banks.dispatch_dev_iff _).1 hdev) hportb hhitclr)
  exact ⟨hram, hbanks, fun b hb => by rw [hsram]; exact Memory.read_write_ne _ _ hb⟩

/-! ### The output planes play no part in banking -/

/-- Both output planes blank. -/
def State.blankPlanes (s : State) : State := { s with frame := [], prio := [] }

theorem State.blankPlanes_canonical {s : State} (hram : s.ram.wf = true) (hsram : s.sram.wf = true) :
    s.blankPlanes.Canonical := ⟨hram, hsram, rfl, rfl⟩

theorem State.blankPlanes_installRegion (s : State) (r : Region) :
    s.blankPlanes.installRegion r = (s.installRegion r).blankPlanes := by
  have hbanks : s.blankPlanes.banks = s.banks := rfl
  have hwants : s.blankPlanes.wantsRom r = s.wantsRom r := rfl
  unfold installRegion
  rw [hbanks, hwants]
  split_ifs <;> rfl

theorem State.blankPlanes_install (s : State) : s.blankPlanes.install = s.install.blankPlanes := by
  simp only [install, blankPlanes_installRegion]

/-- Installing the map changes no shadow byte of the device window. -/
theorem State.install_sram_device {s : State} (hram : s.ram.wf = true) (hsram : s.sram.wf = true) {a : Nat}
    (h : isDevice a = true) : s.install.sram.read a = s.sram.read a := by
  obtain ⟨-, -, -, -, houtside⟩ := install_spec (blankPlanes_canonical hram hsram)
  rw [s.blankPlanes_install] at houtside
  exact (houtside a (Region.not_holds_of_device h)).2

/-! ### PORTB -/

/-- The state of a PORTB store before `install()`: the byte held in the shadow array, the latch written. -/
def State.withPortb (s : State) (v : Byte) : State :=
  { s.setShadow 0xD301 v with pia := { s.pia with portb := v } }

/-- Everything a store to PORTB does (R403). -/
theorem State.memWrite_portb (s : State) (v : Byte) :
    s.memWrite 0xD301 v =
      if s.pia.pbctl.getLsbD 2 then (s.withPortb v).install
      else { s with sram := s.sram.write 0xD301 v, pia := { s.pia with ddrb := v } } :=
  s.memWrite_pia v (k := 1) rfl (by decide)

theorem State.memWrite_portb_sram (s : State) (v : Byte) (hram : s.ram.wf = true) (hsram : s.sram.wf = true) :
    (s.memWrite 0xD301 v).sram.read 0xD301 = v := by
  have hkept : (s.sram.write 0xD301 v).read 0xD301 = v := (Memory.read_write hsram _ _ v).trans (if_pos rfl)
  rw [s.memWrite_portb]
  split_ifs
  · exact (install_sram_device (s := s.withPortb v) hram (Memory.wf_write hsram _ _) (by decide)).trans hkept
  · exact hkept

/-- HITCLR clears the collision registers, and its own shadow byte is kept. -/
theorem State.memWrite_hitclr (s : State) (v : Byte) :
    s.memWrite 0xD01E v = (s.setShadow 0xD01E v).clearCollisions :=
  s.memWrite_gtia v (k := 0x1E) rfl (by decide)

/-- A store in the window is held in the shadow array (R65). -/
theorem State.memWrite_device_sram (s : State) {a : Word} (v : Byte) (hram : s.ram.wf = true) (hsram : s.sram.wf = true)
    (h : isDevice a.toNat = true) : (s.memWrite a v).sram.read a.toNat = v := by
  have hkept : (s.setShadow a.toNat v).sram.read a.toNat = v := (Memory.read_write hsram _ _ v).trans (if_pos rfl)
  by_cases hportb : a.toNat = 0xD301
  · obtain rfl : a = 0xD301 := BitVec.eq_of_toNat_eq hportb
    exact s.memWrite_portb_sram v hram hsram
  by_cases hhitclr : a.toNat = 0xD01E
  · obtain rfl : a = 0xD01E := BitVec.eq_of_toNat_eq hhitclr
    rw [s.memWrite_hitclr]
    exact hkept
  obtain ⟨-, hshadow, -⟩ := (memory_eq_iff _ _).1 (s.memWrite_device_memory v h hportb hhitclr)
  rw [hshadow, hkept]

/-- Settles O20, by the dispatch entry of the address. -/
theorem writesReachRamOrShadow : Obligations.WritesReachRamOrShadow := fun s _ v hram hsram =>
  ⟨s.memWrite_ram_read v hram, s.memWrite_rom_read v hsram,
    fun h => s.memWrite_device_sram v hram hsram ((s.banks.dispatch_dev_iff _).1 h)⟩

end Sys2Proof.Machine
end

section
/-! SUPPORT. The bank switches region by region (spec/20_memory.md R75, R76, spec/61_platform_devices.md R403). -/

namespace Sys2Proof.Machine

/-! ### The two transitions -/

theorem Region.holds_add {r : Region} {k : Nat} (h : k < r.size) : r.Holds (r.base + k) :=
  ⟨Nat.le_add_right _ _, Nat.add_lt_add_left h _⟩

theorem inRange_of_holds {r : Region} {a : Nat} (h : r.Holds a) : inRange r.base r.size a = true := by
  simpa [inRange, Region.Holds] using h

theorem inRange_of_not_holds {r : Region} {a : Nat} (h : ¬ r.Holds a) : ¬ inRange r.base r.size a = true := by
  simpa [inRange, Region.Holds] using h

/-- The visible array after the RAM to ROM transition: the image in the region, the rest as it was. -/
theorem State.ramToRom_ram_read {s : State} (r : Region) (hram : s.ram.wf = true) (a : Nat) :
    (s.ramToRom r).ram.read a = if inRange r.base r.size a then
      (Memory.ofBytes r.base (r.bytes ((s.imageOf r).getD []))).read a else s.ram.read a :=
  Memory.read_splice hram (Memory.wfFrom_ofBytes _ _) (ofBytes_lt_region _ _) a

theorem State.ramToRom_ram_wf {s : State} (r : Region) (hram : s.ram.wf = true) : (s.ramToRom r).ram.wf = true :=
  Memory.wf_splice hram (Memory.wfFrom_ofBytes _ _) (ofBytes_lt_region _ _)

/-- One array with a region taken from another: the shadow after the RAM to ROM transition, the visible array after the
way back. -/
theorem Memory.read_splice_slice {m n : Memory} (hm : m.wf = true) (hn : n.wf = true) (r : Region) (a : Nat) :
    (m.splice r.base r.size (n.slice r.base r.size)).read a =
      if inRange r.base r.size a then n.read a else m.read a := by
  rw [read_splice hm (wfFrom_slice hn _ _) (slice_lt _ _ _), read_slice]
  split_ifs <;> rfl

theorem Memory.wf_splice_slice {m n : Memory} (hm : m.wf = true) (hn : n.wf = true) (r : Region) :
    (m.splice r.base r.size (n.slice r.base r.size)).wf = true :=
  wf_splice hm (wfFrom_slice hn _ _) (slice_lt _ _ _)

/-- ROM and back: every visible byte is what it was (R76). -/
theorem State.romToRam_ramToRom_ram {s : State} (r : Region) (hram : s.ram.wf = true) (hsram : s.sram.wf = true) :
    ((s.ramToRom r).romToRam r).ram = s.ram := by
  have hvisible := ramToRom_ram_wf r hram
  have hshadow : (s.ramToRom r).sram.wf = true := Memory.wf_splice_slice hsram hram r
  refine Memory.ext (Memory.wf_splice_slice hvisible hshadow r) hram fun a => ?_
  have hback := Memory.read_splice_slice hvisible hshadow r a
  have hsaved : (s.ramToRom r).sram.read a = _ := Memory.read_splice_slice hsram hram r a
  rw [hsaved, ramToRom_ram_read r hram] at hback
  refine hback.trans ?_
  split_ifs <;> rfl

theorem Banks.rom_set_self (b : Banks) (r : Region) (v : Bool) : (b.set r v).rom r = v :=
  (b.rom_set r r v).trans (if_pos rfl)

theorem Banks.rom_set_other (b : Banks) {r q : Region} (v : Bool) (h : q ≠ r) : (b.set r v).rom q = b.rom q :=
  (b.rom_set r q v).trans (if_neg h)

/-- Settles O22: in each transition, the bytes of the region, the bytes outside it, and the dispatch entries. -/
theorem bankSwitchKeepsHiddenRam : Obligations.BankSwitchKeepsHiddenRam := by
  intro s r hram hsram
  constructor
  · have hread := Memory.read_splice_slice hram hsram r
    exact ⟨fun k hk => (hread _).trans (if_pos (inRange_of_holds (Region.holds_add hk))),
      fun a ha => (hread a).trans (if_neg (inRange_of_not_holds ha)), rfl, s.banks.rom_set_self r false,
      fun q hq => s.banks.rom_set_other false hq⟩
  · intro image himage
    have hvisible (a : Nat) := State.ramToRom_ram_read r hram a
    have hshadow := Memory.read_splice_slice hsram hram r
    refine ⟨fun k hk => ⟨?_, (hshadow _).trans (if_pos (inRange_of_holds (Region.holds_add hk)))⟩,
      fun a ha => ⟨(hvisible a).trans (if_neg (inRange_of_not_holds ha)),
        (hshadow a).trans (if_neg (inRange_of_not_holds ha))⟩,
      s.banks.rom_set_self r true, fun q hq => s.banks.rom_set_other true hq,
      State.romToRam_ramToRom_ram r hram hsram⟩
    rw [hvisible, if_pos (inRange_of_holds (Region.holds_add hk)), himage]
    exact Memory.read_ofBytes _ _ _

/-! ### A store to PORTB -/

theorem State.memWrite_portb_latch (s : State) (v : Byte) (h : s.pia.pbctl.getLsbD 2 = true) :
    s.memWrite 0xD301 v = (s.withPortb v).install := (s.memWrite_portb v).trans (if_pos h)

theorem State.memWrite_portb_direction (s : State) (v : Byte) (h : s.pia.pbctl.getLsbD 2 = false) :
    s.memWrite 0xD301 v = { s with sram := s.sram.write 0xD301 v, pia := { s.pia with ddrb := v } } :=
  (s.memWrite_portb v).trans (if_neg (ne_true_of_eq_false h))

theorem State.withPortb_canonical {s : State} (h : s.Canonical) (v : Byte) : (s.withPortb v).Canonical := by
  obtain ⟨hram, hsram, hplanes⟩ := h
  exact ⟨hram, Memory.wf_write hsram _ _, hplanes⟩

/-- The shadow byte of PORTB lies in no region: what moves in a region after the store moved from the state before
it. -/
theorem Region.Moved.of_withPortb {r : Region} {s t : State} {v : Byte} (m : r.Moved (s.withPortb v) t) :
    r.Moved s t := by
  intro k hk
  have hne : r.base + k ≠ 0xD301 := fun h => by
    have hdev := Region.not_device (Region.holds_add hk)
    rw [h] at hdev
    exact absurd hdev (by decide)
  have hsram : (s.withPortb v).sram.read (r.base + k) = s.sram.read (r.base + k) := Memory.read_write_ne _ _ hne
  have himage : (s.withPortb v).imageOf r = s.imageOf r := by cases r <;> rfl
  have hmoved := m k hk
  rw [hsram, himage] at hmoved
  exact hmoved

/-- Settles O23: the store is `install()` after the latch and the shadow byte are written, or the direction register. -/
theorem portbStoreInstallsMap : Obligations.PortbStoreInstallsMap := by
  intro s v hcanonical
  refine ⟨fun hlatch => ?_, s.memWrite_portb_direction v⟩
  obtain ⟨-, hpia, hinstalled, hmoved, houtside⟩ := install_spec (State.withPortb_canonical hcanonical v)
  rw [s.memWrite_portb_latch v hlatch]
  refine ⟨hpia, hinstalled, fun r => (hmoved r).of_withPortb, fun a ha => ?_⟩
  obtain ⟨hram, hsram⟩ := houtside a ha
  obtain ⟨-, hshadow, -, -⟩ := hcanonical
  exact ⟨hram, hsram.trans (Memory.read_write hshadow _ _ _)⟩

end Sys2Proof.Machine
end

section
/-! SUPPORT. The opcode map and the encoder are inverse to each other (spec/30_encoding.md R100 to R110): the map's entry
at each opcode value encodes to that value and its operand bytes, and each instruction with an opcode is the entry at
it. -/

namespace Sys2Proof

open Sys2Proof.Machine (hiByte_toNat joinBytes_toNat loByte_toNat joinBytes_hiByte_loByte)

/-! ### Operand bytes -/

@[simp] theorem loByte_joinBytes (h l : Byte) : loByte (joinBytes h l) = l := by
  have := l.isLt
  rw [← BitVec.toNat_inj, loByte_toNat, joinBytes_toNat]
  omega

@[simp] theorem hiByte_joinBytes (h l : Byte) : hiByte (joinBytes h l) = h := by
  have := l.isLt
  rw [← BitVec.toNat_inj, hiByte_toNat, joinBytes_toNat]
  omega

theorem Mode.length_cases (m : Mode) : m.length = 1 ∨ m.length = 2 ∨ m.length = 3 := by
  cases m <;> decide

theorem lengthOf_cases (op : Byte) : lengthOf op = 1 ∨ lengthOf op = 2 ∨ lengthOf op = 3 :=
  Mode.length_cases _

theorem Operand.length_bytes (o : Operand) : o.bytes.length + 1 = o.mode.length := by cases o <;> rfl

/-- The operand byte of a two-byte format; 0 in the other formats, where `decode` passes 0. -/
def Operand.byte : Operand → Byte
  | .imm d | .zp d | .zpx d | .zpy d | .izx d | .izy d | .rel d => d
  | .imp | .acc | .abs _ | .abx _ | .aby _ | .ind _ => 0

/-- The operand word of a three-byte format; 0 in the other formats, where `decode` passes 0. -/
def Operand.word : Operand → Word
  | .abs w | .abx w | .aby w | .ind w => w
  | .imp | .acc | .imm _ | .zp _ | .zpx _ | .zpy _ | .izx _ | .izy _ | .rel _ => 0

/-- The operand bytes in the format of `n` bytes (R101): none, `d`, or `w` with its low byte first (R102). -/
def operandBytes : Nat → Byte → Word → List Byte
  | 1, _, _ => []
  | 2, d, _ => [d]
  | _, _, w => [loByte w, hiByte w]

theorem length_operandBytes (op d : Byte) (w : Word) : (operandBytes (lengthOf op) d w).length + 1 = lengthOf op := by
  obtain h | h | h := lengthOf_cases op <;> rw [h] <;> rfl

/-! ### What the decoder does with a list of bytes -/

/-- The decoder takes the operand bytes the opcode's length asks for, or there are too few (R109, R110). -/
theorem decode_cons (op : Byte) (rest : List Byte) :
    (∃ d w tail, rest = operandBytes (lengthOf op) d w ++ tail ∧
      decode (op :: rest) = .ok (decodeOp op d w, tail)) ∨
    (rest.length + 1 < lengthOf op ∧ decode (op :: rest) = .error .truncated) := by
  obtain h | h | h := lengthOf_cases op
  · exact .inl ⟨0, 0, rest, by simp [h, operandBytes], by simp [decode, h]⟩
  · cases rest with
    | nil => exact .inr (by simp [decode, h])
    | cons d tail => exact .inl ⟨d, 0, tail, by simp [h, operandBytes], by simp [decode, h]⟩
  · match rest with
    | [] | [_] => exact .inr (by simp [decode, h])
    | l :: u :: tail => exact .inl ⟨0, joinBytes u l, tail, by simp [h, operandBytes], by simp [decode, h]⟩

theorem decode_operand_bytes {op : Byte} (o : Operand) (h : lengthOf op = o.mode.length) (rest : List Byte) :
    decode (op :: (o.bytes ++ rest)) = .ok (decodeOp op o.byte o.word, rest) := by
  cases o <;>
    simp only [Operand.mode, Mode.length] at h <;>
    simp [decode, h, Operand.bytes, Operand.byte, Operand.word, joinBytes_hiByte_loByte]

/-! ### The opcode map by rows -/

/-- The rows of the matrix of R104: row `k` has the opcode values whose high nibble is `k`. -/
def opcodeRows (d : Byte) (w : Word) : List (List Instr) :=
  [row0 d w, row1 d w, row2 d w, row3 d w, row4 d w, row5 d w, row6 d w, row7 d w,
   row8 d w, row9 d w, rowA d w, rowB d w, rowC d w, rowD d w, rowE d w, rowF d w]

theorem opcodeMap_eq_flatten (d : Byte) (w : Word) : opcodeMap d w = (opcodeRows d w).flatten := by
  simp [opcodeMap, opcodeRows]

theorem length_of_mem_opcodeRows (d : Byte) (w : Word) : ∀ r ∈ opcodeRows d w, r.length = 16 :=
  List.map_eq_replicate_iff.mp rfl

/-- Rows of `n` entries one after the other: entry `n * k + j` is entry `j` of row `k`. -/
theorem getD_flatten_of_length {α : Type} {rows : List (List α)} {n : Nat} (h : ∀ r ∈ rows, r.length = n) (x : α)
    (k : Nat) {j : Nat} (hj : j < n) : rows.flatten.getD (n * k + j) x = (rows.getD k []).getD j x := by
  induction rows generalizing k with
  | nil => simp
  | cons r rows ih =>
    obtain ⟨hr, hrows⟩ := List.forall_mem_cons.mp h
    rw [List.flatten_cons]
    cases k with
    | zero => rw [Nat.mul_zero, Nat.zero_add, List.getD_append _ _ _ _ (hr ▸ hj), List.getD_cons_zero]
    | succ k =>
      rw [List.getD_append_right _ _ _ _ (by rw [hr, Nat.mul_succ]; omega), List.getD_cons_succ, ← ih hrows k]
      congr 1
      rw [hr, Nat.mul_succ]
      omega

/-- The entry at an opcode byte stands in the row of its high nibble, in the column of its low nibble. -/
theorem decodeOp_eq_row (op d : Byte) (w : Word) :
    decodeOp op d w = ((opcodeRows d w).getD (op.toNat / 16) []).getD (op.toNat % 16) .nop := by
  rw [← getD_flatten_of_length (length_of_mem_opcodeRows d w) .nop _ (Nat.mod_lt _ (by decide)), Nat.div_add_mod,
    ← opcodeMap_eq_flatten, decodeOp]

/-! ### From an instruction to its opcode and back -/

/-- The modes and opcode bytes of `WellFormed` are those of the encoder's tables (R105, R106). -/
theorem Instr.wf_eq_isSome_opcodeOf (i : Instr) : i.wf = (opcodeOf i).isSome := by
  cases i
  case lda o | ldx o | ldy o | sta o | stx o | sty o | and o | ora o | eor o | bit o | cmp o | cpx o | cpy o | adc o
    | sbc o | asl o | lsr o | rol o | ror o | inc o | dec o | jmp o | lax o | sax o | slo o | rla o | sre o | rra o
    | dcp o | isc o | sha o => cases o <;> rfl
  case anc op _ | nopx op _ | jam op =>
    simp only [Instr.wf, opcodeOf]
    split
    · assumption
    · exact Bool.eq_false_of_not_eq_true ‹_›
  all_goals rfl

theorem Instr.wellFormed_iff {i : Instr} : i.WellFormed ↔ ∃ op, opcodeOf i = some op := by
  rw [WellFormed, wf_eq_isSome_opcodeOf, Option.isSome_iff_exists]

/-- An instruction with an opcode is the opcode map's entry at it. -/
theorem decodeOp_of_opcodeOf {i : Instr} {op : Byte} (h : opcodeOf i = some op) :
    decodeOp op i.operand.byte i.operand.word = i := by
  rw [decodeOp_eq_row]
  cases i
  case lda o | ldx o | ldy o | sta o | stx o | sty o | and o | ora o | eor o | bit o | cmp o | cpx o | cpy o | adc o
    | sbc o | asl o | lsr o | rol o | ror o | inc o | dec o | jmp o | lax o | sax o | slo o | rla o | sre o | rra o
    | dcp o | isc o | sha o => cases o <;> cases h <;> rfl
  case anc own _ | jam own =>
    obtain ⟨hown, ⟨⟩⟩ := Option.ite_none_right_eq_some.mp h
    have hmem := List.mem_of_elem_eq_true hown
    fin_cases hmem <;> rfl
  case nopx own o =>
    obtain ⟨hown, ⟨⟩⟩ := Option.ite_none_right_eq_some.mp h
    have hmem := List.mem_of_elem_eq_true hown
    cases o <;> fin_cases hmem <;> rfl
  all_goals
    cases h
    rfl

/-! ### From an opcode to its instruction and back -/

/-- Each row encodes, entry by entry, to the opcode values of its high nibble with their operand bytes. -/
theorem opcodeRows_map_encode (d : Byte) (w : Word) : ∀ k < 16,
    ((opcodeRows d w).getD k []).map encode = (List.range 16).map fun j =>
      BitVec.ofNat 8 (16 * k + j) :: operandBytes (lengthOf (BitVec.ofNat 8 (16 * k + j))) d w := by
  intro k hk
  interval_cases k <;> rfl

theorem encode_decodeOp (op d : Byte) (w : Word) :
    encode (decodeOp op d w) = op :: operandBytes (lengthOf op) d w := by
  have hrow : op.toNat / 16 < 16 := Nat.div_lt_of_lt_mul op.isLt
  have hcolumn : op.toNat % 16 < 16 := Nat.mod_lt _ (by decide)
  rw [decodeOp_eq_row, ← List.getD_map (f := encode), opcodeRows_map_encode d w _ hrow]
  simp [hcolumn, Nat.div_add_mod]

theorem encode_of_opcodeOf {i : Instr} {op : Byte} (h : opcodeOf i = some op) : encode i = op :: i.operand.bytes := by
  simp [encode, h]

theorem length_encode {i : Instr} (h : i.WellFormed) : (encode i).length = i.length := by
  obtain ⟨op, hop⟩ := Instr.wellFormed_iff.mp h
  rw [encode_of_opcodeOf hop]
  exact i.operand.length_bytes

theorem decodeOp_wellFormed (op d : Byte) (w : Word) : (decodeOp op d w).WellFormed := by
  refine Instr.wellFormed_iff.mpr ?_
  cases h : opcodeOf (decodeOp op d w) with
  | none =>
    have hencode := encode_decodeOp op d w
    simp [encode, h] at hencode
  | some own => exact ⟨own, rfl⟩

theorem length_decodeOp (op d : Byte) (w : Word) : (decodeOp op d w).length = lengthOf op := by
  rw [← length_encode (decodeOp_wellFormed op d w), encode_decodeOp]
  exact length_operandBytes op d w

/-! ### The obligations -/

/-- Settles O2: the instruction is the entry at its opcode, whose length is that of its operand's format. -/
theorem decodeInvertsEncode : Obligations.DecodeInvertsEncode := by
  intro i rest hwf
  obtain ⟨op, hop⟩ := Instr.wellFormed_iff.mp hwf
  have hentry := decodeOp_of_opcodeOf hop
  have hlength : lengthOf op = i.operand.mode.length := by
    rw [← length_decodeOp, hentry, Instr.length]
  rw [encode_of_opcodeOf hop, List.cons_append, decode_operand_bytes _ hlength, hentry]

/-- Settles O3: what is decoded is the opcode map's entry at the first byte. -/
theorem encodeInvertsDecode : Obligations.EncodeInvertsDecode := by
  intro bytes rest i h
  cases bytes with
  | nil => cases h
  | cons op bytes =>
    obtain ⟨d, w, tail, hbytes, hdecode⟩ | ⟨-, hdecode⟩ := decode_cons op bytes
    · cases hdecode.symm.trans h
      exact ⟨decodeOp_wellFormed op d w, by rw [encode_decodeOp, hbytes, List.cons_append]⟩
    · cases hdecode.symm.trans h

/-- Settles O4: the operand bytes are there, or they are missing. -/
theorem everyOpcodeDecodes : Obligations.EveryOpcodeDecodes := by
  intro op rest
  refine ⟨lengthOf_cases op, ?_⟩
  obtain ⟨d, w, tail, rfl, hdecode⟩ | ⟨hshort, hdecode⟩ := decode_cons op rest
  · have hlength := length_operandBytes op d w
    refine ⟨fun _ => ⟨decodeOp op d w, ?_, decodeOp_wellFormed op d w, length_decodeOp op d w⟩, fun hshort => ?_⟩
    · rw [hdecode, List.drop_left' (by omega)]
    · rw [List.length_append] at hshort
      omega
  · exact ⟨fun henough => absurd henough (by omega), fun _ => hdecode⟩

/-- Settles O1 by running the decoder on each word. -/
theorem knownWordsDecode : Obligations.KnownWordsDecode := by
  unfold Obligations.KnownWordsDecode
  and_intros <;> rfl

end Sys2Proof
end

section
/-! SUPPORT. The four branches of a step and the bytes it fetches (spec/40_step_and_addressing.md R131 to R136), and the
entry into an interrupt handler (spec/60_exceptions.md R326, R331). -/

namespace Sys2Proof.Machine

/-! ### The branches of a step -/

theorem step_of_open {s : State} (hopen : s.serviceOpen = true) : step s = .next s.eventGate := by
  rw [step, if_pos hopen]

theorem step_of_stall {s : State} (hclosed : s.serviceOpen = false) (hstall : s.cycle < s.stallUntil) :
    step s = gateAfter (.next s.stalledAdvance) := by
  rw [step, if_neg (by simp [hclosed]), if_pos hstall]

theorem step_of_irq {s : State} (hclosed : s.serviceOpen = false) (hstall : s.stallUntil ≤ s.cycle)
    (hpending : 0 < s.irqPending) (hi : s.flags.i = false) : step s = gateAfter (.next s.serviceIrq) := by
  rw [step, if_neg (by simp [hclosed]), if_neg hstall.not_gt, if_pos ⟨hpending, hi⟩]

/-- The instruction runs on the state the fetch leaves. -/
theorem step_of_fetch {s t : State} {i : Instr} (hclosed : s.serviceOpen = false) (hstall : s.stallUntil ≤ s.cycle)
    (hirq : s.irqPending = 0 ∨ s.flags.i = true) (hfetch : s.fetchInstr = (i, t)) : step s = gateAfter (exec i t) := by
  have hno : ¬ (0 < s.irqPending ∧ s.flags.i = false) := by
    rintro ⟨hpending, hi⟩
    obtain h | h := hirq
    · exact hpending.ne' h
    · exact Bool.noConfusion (hi.symm.trans h)
  rw [step, if_neg (by simp [hclosed]), if_neg hstall.not_gt, if_neg hno, State.executeInstruction, hfetch]

/-! ### The stalled advance -/

theorem State.wakeAhead_iff (s : State) : s.WakeAhead ↔ ∀ w, s.nextWake = some w → s.cycle < w := by
  unfold WakeAhead reached
  cases s.nextWake <;> simp

/-- With no event due the advance ends at the stall limit or at the next event, and passes neither. -/
theorem State.stalledAdvance_end {s : State} (hahead : s.WakeAhead) (hstall : s.cycle < s.stallUntil) :
    s.stalledAdvance.cycle ≤ s.stallUntil ∧ (∀ w, s.nextWake = some w → s.stalledAdvance.cycle ≤ w) ∧
      (s.stalledAdvance.cycle = s.stallUntil ∨ s.nextWake = some s.stalledAdvance.cycle) := by
  rw [wakeAhead_iff] at hahead
  unfold stalledAdvance
  cases hwake : s.nextWake with
  | none => simp [hstall.le]
  | some w =>
    have hw : s.cycle < w := hahead w hwake
    simp only [Option.some.injEq, forall_eq']
    omega

/-- With an event due the advance changes nothing. -/
theorem State.stalledAdvance_of_due {s : State} (hdue : ¬ s.WakeAhead) : s.stalledAdvance = s := by
  rw [wakeAhead_iff] at hdue
  push Not at hdue
  obtain ⟨w, hwake, hw⟩ := hdue
  have hcycle : s.stalledAdvance.cycle = s.cycle := by
    simp only [stalledAdvance, hwake]
    exact max_eq_left (min_le_of_right_le hw)
  calc s.stalledAdvance = { s with cycle := s.stalledAdvance.cycle } := rfl
    _ = s := by rw [hcycle]

/-- Settles O6: the stalled branch is the stalled advance, with the next event ahead or due. -/
theorem stalledStepOnlyAdvancesCycle : Obligations.StalledStepOnlyAdvancesCycle := by
  intro s hclosed hstall
  have hstep := step_of_stall hclosed hstall
  refine ⟨fun hahead => ?_, fun hdue => ?_⟩
  · obtain ⟨hlimit, hwake, hend⟩ := State.stalledAdvance_end hahead hstall
    exact ⟨s.stalledAdvance.cycle, State.stalledAdvance_cycle hahead hstall, hlimit, hwake, hend, hstep⟩
  · rw [hstep, State.stalledAdvance_of_due hdue]

/-! ### Interrupt entries -/

theorem State.serviceIrq_eq (s : State) : s.serviceIrq = { s with
    ram := ((s.ram.write (0x100 + s.sp.toNat) (hiByte s.pc)).write (0x100 + (s.sp - 1).toNat) (loByte s.pc)).write
      (0x100 + (s.sp - 2).toNat) (s.flags.pack false)
    sp := s.sp - 3
    flags := { s.flags with i := true }
    pc := joinBytes (s.ram.read 0xFFFF) (s.ram.read 0xFFFE)
    cycle := s.cycle + 7
    irqPending := s.irqPending - 1 } := by
  rw [serviceIrq, enterHandler_eq _ _ _ (by decide)]
  rfl

theorem State.nmi_eq (s : State) : s.nmi = { s with
    ram := ((s.ram.write (0x100 + s.sp.toNat) (hiByte s.pc)).write (0x100 + (s.sp - 1).toNat) (loByte s.pc)).write
      (0x100 + (s.sp - 2).toNat) (s.flags.pack false)
    sp := s.sp - 3
    flags := { s.flags with i := true }
    pc := joinBytes (s.ram.read 0xFFFB) (s.ram.read 0xFFFA)
    cycle := s.cycle + s.params.nmiCost } := by
  rw [nmi, enterHandler_eq _ _ _ (by decide)]
  rfl

/-- Settles O8: both entries have the shape of `enterHandler_eq`, each with its vector and its cost. -/
theorem interruptEntries : Obligations.InterruptEntries :=
  ⟨fun s hclosed hstall hpending hi => by rw [step_of_irq hclosed hstall hpending hi, s.serviceIrq_eq],
    fun s => s.nmi_eq⟩

/-! ### The gate -/

/-- Settles O11: the loop ends at once with no event due, and its last act is to note whether one still is. -/
theorem noEventDueAfterStep : Obligations.NoEventDueAfterStep :=
  ⟨fun _ hahead => State.serviceEvents_done hahead, fun _ _ k => (step_wakeAhead_iff k).symm, fun _ => step_of_open⟩

/-! ### The fetch -/

/-- Bytes that decode with nothing left over are as many as their opcode says (R109). -/
theorem lengthOf_of_decode {op : Byte} {rest : List Byte} {i : Instr} (h : decode (op :: rest) = .ok (i, [])) :
    lengthOf op = rest.length + 1 := by
  obtain ⟨d, w, tail, rfl, hdecode⟩ | ⟨-, hdecode⟩ := decode_cons op rest
  · cases hdecode.symm.trans h
    rw [List.append_nil, length_operandBytes]
  · cases hdecode.symm.trans h

/-- The `n` bytes from `a` on through `MemRead`, in ascending order, each once, and the state after the last. -/
def State.readBytes (s : State) : Nat → Word → List Byte × State
  | 0, _ => ([], s)
  | n + 1, a =>
    let b := s.memRead a
    let r := b.2.readBytes n (a + 1)
    (b.1 :: r.1, r.2)

theorem State.length_readBytes (s : State) (n : Nat) (a : Word) : (s.readBytes n a).1.length = n := by
  induction n generalizing s a with
  | zero => rfl
  | succ n ih => simp only [readBytes, List.length_cons, ih]

/-- Outside the device window the bytes are those of the visible array, and reading them changes nothing. -/
theorem State.readBytes_of_not_device (s : State) {bytes : List Byte} {a : Word}
    (h : ∀ k < bytes.length, isDevice (a + BitVec.ofNat 16 k).toNat = false ∧
      s.ram.read (a + BitVec.ofNat 16 k).toNat = bytes.getD k 0) : s.readBytes bytes.length a = (bytes, s) := by
  induction bytes generalizing a with
  | nil => rfl
  | cons b bytes ih =>
    have hread : s.memRead a = (b, s) := by
      obtain ⟨hwindow, hbyte⟩ := h 0 (Nat.zero_lt_succ _)
      rw [BitVec.add_zero] at hwindow hbyte
      rw [s.memRead_of_not_device hwindow, hbyte, List.getD_cons_zero]
    have hrest : s.readBytes bytes.length (a + 1) = (bytes, s) := ih fun k hk => by
      have hadd : a + 1 + BitVec.ofNat 16 k = a + BitVec.ofNat 16 (k + 1) := by
        rw [Nat.add_comm, BitVec.ofNat_add, BitVec.add_assoc]
        rfl
      rw [hadd]
      exact h (k + 1) (Nat.succ_lt_succ hk)
    simp only [List.length_cons, readBytes, hread, hrest]

@[simp] theorem State.setPc_setPc (s : State) (v w : Word) : (s.setPc v).setPc w = s.setPc w := rfl

/-- The fetch reads the bytes of the instruction and moves `PC` past them. -/
theorem State.fetchInstr_of_decode {s : State} {n : Nat} {i : Instr}
    (h : decode (s.readBytes n s.pc).1 = .ok (i, [])) :
    s.fetchInstr = (i, (s.readBytes n s.pc).2.setPc (s.pc + BitVec.ofNat 16 n)) := by
  cases n with
  | zero => cases h
  | succ n =>
    have hlength : lengthOf (s.memRead s.pc).1 = n + 1 := by
      rw [lengthOf_of_decode h, length_readBytes]
    obtain rfl | rfl | rfl : n = 0 ∨ n = 1 ∨ n = 2 := by
      have := lengthOf_cases (s.memRead s.pc).1
      omega
    all_goals
      simp only [readBytes, decode, hlength, Except.ok.injEq, Prod.mk.injEq, and_true] at h
      subst h
      simp [fetchInstr, fetchByte, readBytes, memRead_setPc, hlength, BitVec.add_assoc]

/-- Settles O5: from the visible array or from the device window, the bytes are those the fetch reads. -/
theorem stepRunsDecodedInstruction : Obligations.StepRunsDecodedInstruction := by
  refine ⟨fun s i bytes hclosed hstall hirq hdecode hbytes => ?_, fun s hclosed hstall hirq => ?_⟩
  · have hread := s.readBytes_of_not_device hbytes
    have hfetch := State.fetchInstr_of_decode (s := s) (n := bytes.length) (by rw [hread]; exact hdecode)
    rw [hread] at hfetch
    exact step_of_fetch hclosed hstall hirq hfetch
  · have hpc : s.pc + 1 + 1 = s.pc + 2 := by bv_omega
    have hread (n : Nat) (i : Instr) (h : decode (s.readBytes n s.pc).1 = .ok (i, [])) :=
      step_of_fetch hclosed hstall hirq (State.fetchInstr_of_decode h)
    have hthree := hread 3
    simp only [State.readBytes, hpc] at hthree
    exact ⟨hread 1, hread 2, hthree⟩

/-! ### Effective addresses -/

/-- The pointer in page zero as a number, its second byte wrapping inside the page (R144). -/
theorem State.read16zp_toNat (s : State) (z : Byte) :
    (s.read16zp z).1.toNat = (s.ram.read z.toNat).toNat + 256 * (s.ram.read ((z.toNat + 1) % 256)).toNat := by
  rw [read16zp_eq, joinBytes_toNat, BitVec.toNat_add]
  rfl

/-- Where the high byte of an indirect jump's target stands (R147). -/
theorem indirectHigh_toNat (wrap : Bool) (w : Word) :
    (indirectHigh wrap w).toNat =
      if wrap then w.toNat / 256 * 256 + (w.toNat % 256 + 1) % 256 else (w.toNat + 1) % 65536 := by
  cases wrap with
  | false => exact BitVec.toNat_add w 1
  | true =>
    have hlow : (loByte w + 1).toNat = (w.toNat % 256 + 1) % 256 := by
      rw [BitVec.toNat_add, loByte_toNat]
      rfl
    simp only [indirectHigh, if_true, joinBytes_toNat, hiByte_toNat, hlow]
    omega

/-- The byte a page-zero index reaches, modulo 256 (R142). -/
theorem zeroPage_add_toNat (d i : Byte) : (zeroPage (d + i)).toNat = (d.toNat + i.toNat) % 256 := by
  rw [zeroPage_toNat, BitVec.toNat_add]

theorem State.resolve_izx_toNat (s : State) (d : Byte) :
    let z := (d.toNat + s.x.toNat) % 256
    (s.resolve (.izx d)).1.ea.toNat = (s.ram.read z).toNat + 256 * (s.ram.read ((z + 1) % 256)).toNat := by
  have h := s.read16zp_toNat (d + s.x)
  rwa [BitVec.toNat_add] at h

/-- The index is the `Y` of the state before the pointer is read, which the read keeps (R149). -/
theorem State.resolve_izy (s : State) (d : Byte) :
    (s.resolve (.izy d)).1 = Resolved.indexed (s.read16zp d).1 s.y := by
  simp only [resolve, read16zp_eq]

theorem State.resolve_izy_toNat (s : State) (d : Byte) :
    let base := (s.ram.read d.toNat).toNat + 256 * (s.ram.read ((d.toNat + 1) % 256)).toNat
    let r := (s.resolve (.izy d)).1
    r.ea.toNat = (base + s.y.toNat) % 65536 ∧ (r.crossed = true ↔ r.ea.toNat / 256 ≠ base / 256) := by
  rw [resolve_izy, ← s.read16zp_toNat d]
  exact Resolved.indexed_spec _ _

theorem State.resolve_ind_toNat (s : State) (w : Word) :
    let l := s.memRead w
    let h := l.2.memRead (indirectHigh s.params.jmpIndPageWrap w)
    (s.resolve (.ind w)).1.ea.toNat = l.1.toNat + 256 * h.1.toNat := joinBytes_toNat _ _

/-- Settles O17, mode by mode in the order of R139 to R150. -/
theorem effectiveAddresses : Obligations.EffectiveAddresses := by
  intro s d v w
  refine ⟨?_, ?_, ⟨zeroPage_toNat d, rfl, rfl⟩, ⟨zeroPage_add_toNat d s.x, rfl, rfl⟩, ⟨zeroPage_add_toNat d s.y, rfl, rfl⟩,
    ⟨rfl, rfl, rfl⟩, ?_, ?_, ?_, ?_, ?_⟩
  · rintro o (rfl | rfl) <;> exact ⟨rfl, rfl⟩
  · rintro o (rfl | rfl) <;> exact ⟨rfl, rfl, rfl⟩
  · obtain ⟨hea, hcross⟩ := Resolved.indexed_spec w s.x
    exact ⟨hea, hcross, rfl⟩
  · obtain ⟨hea, hcross⟩ := Resolved.indexed_spec w s.y
    exact ⟨hea, hcross, rfl⟩
  · exact ⟨s.resolve_izx_toNat d, rfl, s.resolve_state (o := .izx d) nofun⟩
  · obtain ⟨hea, hcross⟩ := s.resolve_izy_toNat d
    exact ⟨hea, hcross, s.resolve_state (o := .izy d) nofun⟩
  · exact ⟨indirectHigh s.params.jmpIndPageWrap w, indirectHigh_toNat _ w, s.resolve_ind_toNat w, rfl, rfl⟩

end Sys2Proof.Machine
end

section
/-! SUPPORT. The "Encodings" entries of the instruction rules, and the instructions that read their operand
(spec/30_encoding.md R105, R106, spec/40_step_and_addressing.md R151 to R153). -/

namespace Sys2Proof.Machine

/-! ### Encodings -/

/-- The opcode column of an "Encodings" entry. -/
def opcodeColumn (rows : List (Mode × Byte × Nat × Bool)) : List (Mode × Byte) := rows.map fun row => (row.1, row.2.1)

theorem isSome_opcodeIn_iff (m : Mode) (rows : List (Mode × Byte × Nat × Bool)) :
    (opcodeIn m (opcodeColumn rows)).isSome = true ↔ m ∈ rows.map Prod.fst := by
  simp [opcodeIn, opcodeColumn, List.lookup_isSome_iff]

/-- An "Encodings" entry, given that its opcode column is the encoder's table and that every row has the cost `exec`
counts. -/
theorem Encodings.of_cost {mk : Operand → Instr} {rows : List (Mode × Byte × Nat × Bool)}
    (htable : ∀ o, opcodeOf (mk o) = opcodeIn o.mode (opcodeColumn rows))
    (hrows : ∀ row ∈ rows, opcodeIn row.1 (opcodeColumn rows) = some row.2.1)
    (hcost : ∀ row ∈ rows, ∀ (o : Operand) (s : State), o.mode = row.1 →
      ∃ t, exec (mk o) s = .next t ∧ t.cycle = s.cycle + row.2.2.1 + if row.2.2.2 then s.crossing o else 0) :
    Encodings mk rows := by
  refine ⟨fun o => ?_, fun row hrow o s hmode => ⟨?_, hcost row hrow o s hmode⟩⟩
  · rw [Instr.WellFormed, Instr.wf_eq_isSome_opcodeOf, htable, isSome_opcodeIn_iff]
  · rw [htable, hmode, hrows row hrow]

/-! ### Operands that are read -/

/-- The modes in which a page cross costs a reading instruction one cycle more (R153). -/
def paysCrossing : Mode → Bool
  | .abx | .aby | .izy => true
  | .imp | .acc | .imm | .zp | .zpx | .zpy | .abs | .ind | .izx | .rel => false

theorem State.crossing_of_not_paysCrossing (s : State) {o : Operand} (h : paysCrossing o.mode = false) :
    s.crossing o = 0 := by
  cases o
  case abx | aby | izy => cases h
  all_goals rfl

theorem State.ite_paysCrossing (s : State) (o : Operand) :
    (if paysCrossing o.mode then s.crossing o else 0) = s.crossing o := by
  split_ifs with h
  · rfl
  · exact (s.crossing_of_not_paysCrossing (Bool.eq_false_of_not_eq_true h)).symm

/-- The instruction acts on the operand byte in a state that differs from `s` only by the effects of the read. -/
theorem State.readOperand_eq_withReadEffects (s : State) (o : Operand) (act : State → Byte → State) :
    s.readOperand o act = (act (s.withReadEffects (s.afterOperand o)) (s.operandByte o)).addCycles
      (readCycles o.mode + s.crossing o) := by
  rw [← s.afterOperand_eq o, readOperand_eq]

/-- The "Encodings" entry of an instruction that reads its operand and whose action costs nothing itself. -/
theorem Encodings.of_readOperand {mk : Operand → Instr} {rows : List (Mode × Byte × Nat × Bool)}
    {act : State → Byte → State} (hexec : ∀ o s, exec (mk o) s = .next (s.readOperand o act))
    (hact : ∀ t m, (act t m).cycle = t.cycle)
    (htable : ∀ o, opcodeOf (mk o) = opcodeIn o.mode (opcodeColumn rows))
    (hrows : ∀ row ∈ rows, opcodeIn row.1 (opcodeColumn rows) = some row.2.1 ∧
      row.2.2.1 = readCycles row.1 ∧ row.2.2.2 = paysCrossing row.1) :
    Encodings mk rows := by
  refine .of_cost htable (fun row hrow => (hrows row hrow).1) fun row hrow o s hmode => ⟨_, hexec o s, ?_⟩
  obtain ⟨-, hcycles, hcross⟩ := hrows row hrow
  rw [hcycles, hcross, ← hmode, s.ite_paysCrossing, s.readOperand_eq_withReadEffects, State.addCycles_cycle, hact,
    Nat.add_assoc]
  rfl

end Sys2Proof.Machine
end

section
/-! SUPPORT. The loads and the transfers (spec/41_load_store_transfer.md R180 to R182, R186 to R191,
spec/48_undocumented.md R281). -/

namespace Sys2Proof.Machine

/-- Settles O34: each load is a read of its operand, whose action writes the register and the flags. -/
theorem loadInstructions : Obligations.LoadInstructions := by
  refine ⟨fun s o => ?_, ?_, ?_, ?_, ?_⟩
  · simp only [exec, execLda, execLdx, execLdy, execLax, s.readOperand_eq_withReadEffects, ← Flags.setNZ_eq,
      Nat.add_assoc]
    exact ⟨rfl, rfl, rfl, rfl⟩
  all_goals exact .of_readOperand (fun _ _ => rfl) (fun _ _ => rfl) (fun _ => rfl) (by decide)

/-- Settles O36: each clause is the definition, once `N` and `Z` are read as numbers. -/
theorem transferInstructions : Obligations.TransferInstructions := by
  refine ⟨fun s => ?_, rfl, rfl, rfl, rfl, rfl, rfl⟩
  simp only [← Flags.setNZ_eq]
  exact ⟨rfl, rfl, rfl, rfl, rfl, rfl⟩

end Sys2Proof.Machine
end

section
/-! SUPPORT. The stack instructions as whole next states, for every `SP` (spec/42_stack.md R200 to R203). -/

namespace Sys2Proof.Machine

theorem exec_pha (s : State) : exec .pha s = .next { s with
    ram := s.ram.write (0x100 + s.sp.toNat) s.a, sp := s.sp - 1, cycle := s.cycle + 3 } := by
  simp only [exec, execPha, State.push8_eq, State.addCycles]

theorem exec_php (s : State) : exec .php s = .next { s with
    ram := s.ram.write (0x100 + s.sp.toNat) (s.flags.pack true), sp := s.sp - 1, cycle := s.cycle + 3 } := by
  simp only [exec, execPhp, State.push8_eq, State.addCycles]

theorem exec_pla (s : State) :
    let pulled := s.ram.read (0x100 + (s.sp + 1).toNat)
    exec .pla s = .next { s with
      a := pulled, flags := s.flags.signZero pulled, sp := s.sp + 1, cycle := s.cycle + 4 } := by
  simp only [exec, execPla, State.pull8_eq, ← Flags.setNZ_eq]
  rfl

theorem exec_plp (s : State) : exec .plp s = .next { s with
    flags := unpack (s.ram.read (0x100 + (s.sp + 1).toNat)), sp := s.sp + 1, cycle := s.cycle + 4 } := by
  simp only [exec, execPlp, State.pull8_eq, State.addCycles]

/-- Settles O37: each clause is the instruction's next state, from what one push and one pull do in page 1. -/
theorem stackInstructions : Obligations.StackInstructions :=
  ⟨fun s => ⟨exec_pha s, exec_php s, exec_pla s, exec_plp s⟩, rfl, rfl, rfl, rfl⟩

end Sys2Proof.Machine
end

section
/-! SUPPORT. Logic, bit test and compares as whole next states, for every operand (spec/43_logic_compare.md R210 to
R217). -/

namespace Sys2Proof.Machine

/-- AND, ORA and EOR differ in the operation `f` alone (R210 to R212). -/
theorem State.readOperand_loadA (s : State) (o : Operand) (f : Byte → Byte → Byte) :
    let v := f s.a (s.operandByte o)
    s.readOperand o (fun t m => t.loadA (f t.a m)) = { s.withReadEffects (s.afterOperand o) with
      a := v, flags := s.flags.signZero v, cycle := s.cycle + readCycles o.mode + s.crossing o } := by
  simp only [s.readOperand_eq_withReadEffects, ← Flags.setNZ_eq, Nat.add_assoc]
  rfl

theorem State.readOperand_testBits (s : State) (o : Operand) :
    s.readOperand o (fun t m => { t with flags := t.flags.testBits t.a m }) =
      { s.withReadEffects (s.afterOperand o) with
        flags := s.flags.testBits s.a (s.operandByte o), cycle := s.cycle + readCycles o.mode + s.crossing o } := by
  rw [s.readOperand_eq_withReadEffects, Nat.add_assoc]
  rfl

/-- CMP, CPX and CPY differ in the register alone, one that reading the operand leaves as it is (R214 to R217). -/
theorem State.readOperand_compare (s : State) (o : Operand) (reg : State → Byte)
    (hreg : ∀ l, reg (s.withReadEffects l) = reg s) :
    s.readOperand o (fun t m => t.compare (reg t) m) = { s.withReadEffects (s.afterOperand o) with
      flags := s.flags.unsignedCompare (reg s) (s.operandByte o)
      cycle := s.cycle + readCycles o.mode + s.crossing o } := by
  rw [s.readOperand_eq_withReadEffects, hreg, ← Flags.compare_eq, Nat.add_assoc]
  rfl

/-- Settles O38: AND, ORA and EOR write the accumulator and its flags, BIT its three flags. -/
theorem logicInstructions : Obligations.LogicInstructions := by
  refine ⟨fun s o => ⟨?_, ?_, ?_, ?_⟩, ?_, ?_, ?_, ?_⟩
  · exact congrArg _ (s.readOperand_loadA o (· &&& ·))
  · exact congrArg _ (s.readOperand_loadA o (· ||| ·))
  · exact congrArg _ (s.readOperand_loadA o (· ^^^ ·))
  · exact congrArg _ (s.readOperand_testBits o)
  all_goals exact .of_readOperand (fun _ _ => rfl) (fun _ _ => rfl) (fun _ => rfl) (by decide)

/-- Settles O39: one comparison, of `A`, `X` and `Y`. -/
theorem compareInstructions : Obligations.CompareInstructions := by
  refine ⟨fun s o => ⟨?_, ?_, ?_⟩, ?_, ?_, ?_⟩
  · exact congrArg _ (s.readOperand_compare o State.a fun _ => rfl)
  · exact congrArg _ (s.readOperand_compare o State.x fun _ => rfl)
  · exact congrArg _ (s.readOperand_compare o State.y fun _ => rfl)
  all_goals exact .of_readOperand (fun _ _ => rfl) (fun _ _ => rfl) (fun _ => rfl) (by decide)

end Sys2Proof.Machine
end

section
/-! SUPPORT. Addition and subtraction with carry as arithmetic on numbers, binary and decimal (spec/44_arithmetic.md R220
to R223, R226). -/

namespace Sys2Proof.Machine

/-! ### Carry and overflow -/

theorem bit_le_one (p : Bool) : bit p ≤ 1 := by cases p <;> decide

theorem bit_eq_one_iff (p : Bool) : bit p = 1 ↔ p = true := by cases p <;> decide

theorem and_signBit_ne_zero_iff (x : Byte) : x &&& 0x80 ≠ 0 ↔ x.msb = true := by
  rw [show (0x80 : Byte) = BitVec.twoPow 8 7 from rfl, BitVec.and_twoPow, BitVec.msb_eq_getLsbD_last]
  cases x.getLsbD 7 <;> decide

/-- The overflow bit: operands of equal sign, result of the other sign (R220). -/
theorem overflowBit_iff (a m r : Byte) :
    (a ^^^ r) &&& (m ^^^ r) &&& 0x80 ≠ 0 ↔ a.msb = m.msb ∧ r.msb ≠ a.msb := by
  rw [and_signBit_ne_zero_iff, BitVec.msb_and, BitVec.msb_xor, BitVec.msb_xor]
  cases a.msb <;> cases m.msb <;> cases r.msb <;> decide

theorem lowByte_add_carry {n : Nat} (h : n < 512) : (BitVec.ofNat 8 n).toNat + 256 * bit (decide (255 < n)) = n := by
  simp only [bit, decide_eq_true_eq, BitVec.toNat_ofNat]
  split_ifs <;> omega

/-! ### Binary addition and subtraction -/

theorem addSum_lt (a m : Byte) (c : Bool) : addSum a m c < 512 := by
  have := bit_le_one c
  unfold addSum
  omega

theorem adcBinary_sum (f : Flags) (a m : Byte) :
    (adcBinary f a m).1.toNat + 256 * bit (adcBinary f a m).2.c = a.toNat + m.toNat + bit f.c :=
  lowByte_add_carry (addSum_lt a m f.c)

theorem adcBinary_overflow (f : Flags) (a m : Byte) :
    (adcBinary f a m).2.v = true ↔
      a.toInt + m.toInt + bit f.c < -128 ∨ 127 < a.toInt + m.toInt + bit f.c := by
  have hsum := adcBinary_sum f a m
  have hc := bit_le_one f.c
  have hc' := bit_le_one (adcBinary f a m).2.c
  have hv : (adcBinary f a m).2.v = true ↔ a.msb = m.msb ∧ (adcBinary f a m).1.msb ≠ a.msb :=
    decide_eq_true_iff.trans (overflowBit_iff a m _)
  simp only [BitVec.msb_eq_decide, ne_eq, decide_eq_decide] at hv
  rw [hv, BitVec.toInt_eq_toNat_cond, BitVec.toInt_eq_toNat_cond]
  omega

/-- Settles O40: the sum is the byte and the carry; the signs give the overflow. -/
theorem binaryAdditionInIntegers : Obligations.BinaryAdditionInIntegers := by
  refine fun f a m => ⟨adcBinary_sum f a m, adcBinary_overflow f a m, ?_⟩
  rw [← Flags.setNZ_eq]
  rfl

theorem toInt_complement (m : Byte) : (~~~m).toInt = -1 - m.toInt := by
  simp only [BitVec.toInt_eq_toNat_cond, BitVec.toNat_not]
  omega

/-- Settles O41: binary addition of the complement, which is `255 - m` unsigned and `-1 - m` signed. -/
theorem binarySubtractionInIntegers : Obligations.BinarySubtractionInIntegers := by
  intro f a m
  obtain ⟨hsum, hv, hnz⟩ := binaryAdditionInIntegers f a (~~~m)
  rw [BitVec.toNat_not] at hsum
  rw [toInt_complement] at hv
  have hc' := bit_le_one (adcBinary f a (~~~m)).2.c
  unfold sbcBinary
  refine ⟨?_, ?_, ?_, hnz⟩
  · omega
  · rw [← bit_eq_one_iff]
    omega
  · rw [hv]
    omega

/-! ### Decimal addition -/

/-- The number a byte stands for when its two digits are read in decimal. -/
def decimalValue (b : Byte) : Nat := b.toNat / 16 * 10 + b.toNat % 16

/-- Both digits of the byte are decimal digits. -/
def ValidDigits (b : Byte) : Prop := b.toNat / 16 < 10 ∧ b.toNat % 16 < 10

/-- The first pass carries out of the low digit at ten (R221). -/
theorem decimalAddLow_of_digits {a m : Byte} (c : Bool) (ha : a.toNat % 16 < 10) (hm : m.toNat % 16 < 10) :
    let sum := a.toNat % 16 + m.toNat % 16 + bit c
    decimalAddLow a m c = if 10 ≤ sum then sum + 6 else sum := by
  have := bit_le_one c
  simp only [decimalAddLow]
  split_ifs <;> omega

/-- The second pass carries out of the high digit at ten (R221). -/
theorem decimalAddSum_of_digits {a m : Byte} (c : Bool) (ha : ValidDigits a) (hm : ValidDigits m) :
    let t := decimalAddSum a m c
    t < 512 ∧ t / 16 % 16 < 10 ∧ t % 16 < 10 ∧
      t / 256 * 100 + t / 16 % 16 * 10 + t % 16 = decimalValue a + decimalValue m + bit c := by
  have hc := bit_le_one c
  obtain ⟨ha', ha⟩ := ha
  obtain ⟨hm', hm⟩ := hm
  simp only [decimalAddSum, decimalAddLow_of_digits c ha hm, decimalValue]
  split_ifs <;> omega

theorem adcDecimal_of_digits (f : Flags) {a m : Byte} (ha : ValidDigits a) (hm : ValidDigits m) :
    ValidDigits (adcDecimal f a m).1 ∧
      decimalValue (adcDecimal f a m).1 + 100 * bit (adcDecimal f a m).2.c =
        decimalValue a + decimalValue m + bit f.c := by
  obtain ⟨hlt, hhigh, hlow, hvalue⟩ := decimalAddSum_of_digits f.c ha hm
  have hsum : (adcDecimal f a m).1.toNat + 256 * bit (adcDecimal f a m).2.c = decimalAddSum a m f.c :=
    lowByte_add_carry hlt
  have := bit_le_one (adcDecimal f a m).2.c
  rw [ValidDigits, decimalValue, ← hvalue]
  omega

/-- Settles O42: the definition's two passes, with their meaning on valid digits. -/
theorem decimalAddition : Obligations.DecimalAddition := by
  refine ⟨fun f a m => ⟨fun ha hm => adcDecimal_of_digits f ha hm, rfl⟩, fun f a m => ?_⟩
  simp only [← Nat.div_mul_self_eq_mod_sub_self]
  exact ⟨BitVec.toNat_ofNat _ _, decide_eq_true_iff⟩

/-! ### Decimal subtraction -/

/-- The first pass borrows ten from the high digit (R223). -/
theorem decimalSubLow_of_digits {a m : Byte} (c : Bool) (ha : a.toNat % 16 < 10) (hm : m.toNat % 16 < 10) :
    let difference : Int := (a.toNat % 16 : Int) - (m.toNat % 16 : Int) + bit c - 1
    decimalSubLow a m c = if difference < 0 then difference - 6 else difference := by
  have := bit_le_one c
  simp only [decimalSubLow]
  split_ifs <;> omega

/-- The second pass borrows a hundred (R223). -/
theorem decimalSubDifference_of_digits {a m : Byte} (c : Bool) (ha : ValidDigits a) (hm : ValidDigits m) :
    let t := decimalSubDifference a m c
    t % 256 / 16 < 10 ∧ t % 16 < 10 ∧
      t / 256 * 100 + t % 256 / 16 * 10 + t % 16 = (decimalValue a : Int) - decimalValue m - (1 - bit c) := by
  have hc := bit_le_one c
  obtain ⟨ha', ha⟩ := ha
  obtain ⟨hm', hm⟩ := hm
  simp only [decimalSubDifference, decimalSubLow_of_digits c ha hm, decimalValue]
  split_ifs <;> omega

theorem sbcDecimal_toNat (f : Flags) (a m : Byte) :
    ((sbcDecimal f a m).1.toNat : Int) = decimalSubDifference a m f.c % 256 := by
  rw [sbcDecimal, BitVec.toNat_ofInt]
  exact Int.toNat_of_nonneg (Int.emod_nonneg _ (by decide))

theorem sbcDecimal_of_digits (f : Flags) {a m : Byte} (ha : ValidDigits a) (hm : ValidDigits m) :
    ValidDigits (sbcDecimal f a m).1 ∧
      (decimalValue (sbcDecimal f a m).1 : Int) = ((decimalValue a : Int) - decimalValue m - (1 - bit f.c)) % 100 := by
  obtain ⟨hhigh, hlow, hvalue⟩ := decimalSubDifference_of_digits f.c ha hm
  have hbyte := sbcDecimal_toNat f a m
  rw [ValidDigits, decimalValue, ← hvalue]
  omega

/-- Settles O43: the definition's two passes, with their meaning on valid digits. -/
theorem decimalSubtractionOfDigits : Obligations.DecimalSubtractionOfDigits := by
  refine fun f a m => ⟨fun ha hm => sbcDecimal_of_digits f ha hm, rfl, ?_⟩
  simp only [← Nat.div_mul_self_eq_mod_sub_self]
  push_cast
  exact sbcDecimal_toNat f a m

end Sys2Proof.Machine
end

section
/-! SUPPORT. ADC, SBC and USBC as whole next states, for every operand (spec/44_arithmetic.md R224, R225,
spec/48_undocumented.md R293). -/

namespace Sys2Proof.Machine

/-- ADC and SBC differ in the function `f` of flags, accumulator and operand byte alone. -/
theorem State.readOperand_setResult (s : State) (o : Operand) (f : Flags → Byte → Byte → Byte × Flags) :
    let r := f s.flags s.a (s.operandByte o)
    s.readOperand o (fun t m => t.setResult (f t.flags t.a m)) = { s.withReadEffects (s.afterOperand o) with
      a := r.1, flags := r.2, cycle := s.cycle + readCycles o.mode + s.crossing o } := by
  simp only [s.readOperand_eq_withReadEffects, Nat.add_assoc]
  rfl

/-- Settles O44: ADC and SBC read the operand and apply `adc` or `sbc`, in which `D` selects the function. -/
theorem addAndSubtractInstructions : Obligations.AddAndSubtractInstructions := by
  refine ⟨fun s o => ⟨?_, ?_⟩, fun _ _ => rfl, ?_, ?_, fun _ => rfl⟩
  · exact congrArg _ (s.readOperand_setResult o adc)
  · exact congrArg _ (s.readOperand_setResult o sbc)
  all_goals exact .of_readOperand (fun _ _ => rfl) (fun _ _ => rfl) (fun _ => rfl) (by decide)

end Sys2Proof.Machine
end


section
/-! SUPPORT. Read-modify-write instructions: the whole next state in a memory mode and on the accumulator, and the
"Encodings" entry (spec/20_memory.md R69, spec/40_step_and_addressing.md R151, R152). -/

namespace Sys2Proof.Machine

/-- In a memory mode the new byte is stored, the new carry set, and `after` acts on the outcome. -/
theorem State.modifyOperand_eq_afterModify (s : State) {o : Operand} (f : Bool → Byte → Byte × Bool)
    (after : State → Byte → State) (hmode : o.mode ≠ .acc) :
    let n := f s.flags.c (s.operandByte o)
    s.modifyOperand o f after =
      (after { s.afterModify o n.1 with flags := { s.flags with c := n.2 } } n.1).addCycles (rmwCycles o.mode) := by
  intro n
  have hcarry : (s.afterOperand o).setC n.2 = (s.afterOperand o).withFlags { s.flags with c := n.2 } := by
    rw [← s.afterOperand_flags o]
    rfl
  have hstore (v : Byte) : (s.afterOperand o).memWrite (s.effectiveAddress o) v = s.afterModify o v := by
    rw [State.afterModify, State.memWrite_eq_withWriteEffects, s.afterOperand_eq o]
    rfl
  rw [s.modifyOperand_eq f after hmode, s.afterOperand_flags]
  dsimp only
  rw [hcarry, State.withFlags_memWrite, hstore]
  rfl

theorem State.modifyOperand_setNZ_memory (s : State) {o : Operand} (f : Bool → Byte → Byte × Bool)
    (hmode : o.mode ≠ .acc) :
    let n := f s.flags.c (s.operandByte o)
    s.modifyOperand o f State.setNZ = { s.afterModify o n.1 with
      flags := { s.flags with c := n.2 }.signZero n.1, cycle := s.cycle + rmwCycles o.mode } := by
  rw [s.modifyOperand_eq_afterModify f State.setNZ hmode]
  simp only [← Flags.setNZ_eq]
  rfl

theorem State.modifyOperand_setNZ_acc (s : State) (f : Bool → Byte → Byte × Bool) :
    let n := f s.flags.c s.a
    s.modifyOperand .acc f State.setNZ = { s with
      a := n.1, flags := { s.flags with c := n.2 }.signZero n.1, cycle := s.cycle + 2 } := by
  simp only [← Flags.setNZ_eq]
  rfl

theorem State.modifyOperand_cycle (s : State) (o : Operand) (f : Bool → Byte → Byte × Bool)
    {after : State → Byte → State} (hafter : ∀ t v, (after t v).cycle = t.cycle) :
    (s.modifyOperand o f after).cycle = s.cycle + rmwCycles o.mode := by
  have hstored : (s.stored o f).cycle = s.cycle := (congrArg State.cycle (s.core_stored o f) :)
  rw [State.modifyOperand_stored, State.addCycles_cycle, hafter, hstored]

/-- The "Encodings" entry of a read-modify-write, which never pays for a page cross (R153). -/
theorem Encodings.of_modifyOperand {mk : Operand → Instr} {rows : List (Mode × Byte × Nat × Bool)}
    {f : Bool → Byte → Byte × Bool} {after : State → Byte → State}
    (hexec : ∀ o s, exec (mk o) s = .next (s.modifyOperand o f after))
    (hafter : ∀ t v, (after t v).cycle = t.cycle)
    (htable : ∀ o, opcodeOf (mk o) = opcodeIn o.mode (opcodeColumn rows))
    (hrows : ∀ row ∈ rows, opcodeIn row.1 (opcodeColumn rows) = some row.2.1 ∧
      row.2.2.1 = rmwCycles row.1 ∧ row.2.2.2 = false) :
    Encodings mk rows := by
  refine .of_cost htable (fun row hrow => (hrows row hrow).1) fun row hrow o s hmode => ⟨_, hexec o s, ?_⟩
  obtain ⟨-, hcycles, hcross⟩ := hrows row hrow
  rw [hcycles, hcross, ← hmode, s.modifyOperand_cycle o f hafter]
  rfl

end Sys2Proof.Machine
end


section
/-! SUPPORT. Shifts and rotates, as arithmetic on numbers and as instructions; increments and decrements
(spec/45_shift_incdec.md R230 to R240). -/

namespace Sys2Proof.Machine

/-! ### The byte functions -/

theorem bit_eq_toNat (p : Bool) : bit p = p.toNat := by cases p <;> rfl

theorem getLsbD_toNat (v : Byte) (i : Nat) : (v.getLsbD i).toNat = v.toNat / 2 ^ i % 2 := Nat.toNat_testBit _ _

theorem toNat_append_eq_add {m n : Nat} (x : BitVec m) (y : BitVec n) :
    (x ++ y).toNat = 2 ^ n * x.toNat + y.toNat := by
  rw [BitVec.toNat_append, Nat.shiftLeft_eq, Nat.mul_comm, Nat.two_pow_add_eq_or_of_lt y.isLt]

theorem shiftLeft_toNat (c : Bool) (v : Byte) :
    (shiftLeft c v).1.toNat + 256 * bit (shiftLeft c v).2 = 2 * v.toNat := by
  simp only [shiftLeft, bit_eq_toNat, getLsbD_toNat, BitVec.toNat_shiftLeft, Nat.shiftLeft_eq]
  omega

theorem shiftRight_toNat (c : Bool) (v : Byte) :
    2 * (shiftRight c v).1.toNat + bit (shiftRight c v).2 = v.toNat := by
  simp only [shiftRight, bit_eq_toNat, getLsbD_toNat, BitVec.toNat_ushiftRight, Nat.shiftRight_eq_div_pow]
  omega

theorem rotateLeft_toNat (c : Bool) (v : Byte) :
    (rotateLeft c v).1.toNat + 256 * bit (rotateLeft c v).2 = 2 * v.toNat + bit c := by
  simp only [rotateLeft, bit_eq_toNat, getLsbD_toNat, toNat_append_eq_add, BitVec.extractLsb'_toNat,
    BitVec.toNat_ofBool, Nat.shiftRight_eq_div_pow]
  omega

theorem rotateRight_toNat (c : Bool) (v : Byte) :
    2 * (rotateRight c v).1.toNat + bit (rotateRight c v).2 = v.toNat + 256 * bit c := by
  simp only [rotateRight, bit_eq_toNat, getLsbD_toNat, toNat_append_eq_add, BitVec.extractLsb'_toNat,
    BitVec.toNat_ofBool, Nat.shiftRight_eq_div_pow]
  omega

/-- Settles O45: the bit shifted out is a remainder, the byte left over a quotient. -/
theorem shiftAndRotateFunctions : Obligations.ShiftAndRotateFunctions := fun c v =>
  ⟨shiftLeft_toNat c v, shiftRight_toNat c v, rotateLeft_toNat c v, rotateRight_toNat c v⟩

/-! ### The instructions -/

theorem Operand.mode_eq_acc_iff (o : Operand) : o.mode = .acc ↔ o = .acc := by
  cases o <;> simp [Operand.mode]

/-- ASL, LSR, ROL and ROR differ in the byte function `f` alone (R230 to R233). -/
theorem State.modifyOperand_setNZ (s : State) (o : Operand) (f : Bool → Byte → Byte × Bool) :
    let n := f s.flags.c (s.operandByte o)
    let flags := { s.flags with c := n.2 }.signZero n.1
    s.modifyOperand o f State.setNZ =
      if o = .acc then { s with a := n.1, flags := flags, cycle := s.cycle + 2 }
      else { s.afterModify o n.1 with flags := flags, cycle := s.cycle + rmwCycles o.mode } := by
  split_ifs with hacc
  · subst hacc
    exact s.modifyOperand_setNZ_acc f
  · exact s.modifyOperand_setNZ_memory f (mt (Operand.mode_eq_acc_iff o).1 hacc)

/-- Settles O46: one read-modify-write, on the accumulator or on memory, with each of the four byte functions. -/
theorem shiftInstructions : Obligations.ShiftInstructions := by
  refine ⟨fun s o => ⟨fun _ => ?_, fun _ => ?_, fun _ => ?_, fun _ => ?_⟩, ?_, ?_, ?_, ?_⟩
  · exact congrArg _ (s.modifyOperand_setNZ o shiftLeft)
  · exact congrArg _ (s.modifyOperand_setNZ o shiftRight)
  · exact congrArg _ (s.modifyOperand_setNZ o rotateLeft)
  · exact congrArg _ (s.modifyOperand_setNZ o rotateRight)
  all_goals exact .of_modifyOperand (fun _ _ => rfl) (fun _ _ => rfl) (fun _ => rfl) (by decide)

/-- INC and DEC have no accumulator form (R234, R235). -/
theorem mode_ne_acc_of_wellFormed {o : Operand} (h : (Instr.inc o).WellFormed ∨ (Instr.dec o).WellFormed) :
    o.mode ≠ .acc := by
  intro hacc
  simp [Instr.WellFormed, Instr.wf, hacc] at h

/-- Settles O47: INC and DEC are read-modify-writes that give back the carry; the others load their register. -/
theorem incrementAndDecrement : Obligations.IncrementAndDecrement := by
  refine ⟨fun s o => ⟨fun hwf => ?_, fun hwf => ?_⟩, fun s => ?_, ?_, ?_, rfl, rfl, rfl, rfl⟩
  · exact congrArg _ (s.modifyOperand_setNZ_memory increment (mode_ne_acc_of_wellFormed (.inl hwf)))
  · exact congrArg _ (s.modifyOperand_setNZ_memory decrement (mode_ne_acc_of_wellFormed (.inr hwf)))
  · simp only [← Flags.setNZ_eq]
    exact ⟨rfl, rfl, rfl, rfl⟩
  all_goals exact .of_modifyOperand (fun _ _ => rfl) (fun _ _ => rfl) (fun _ => rfl) (by decide)

end Sys2Proof.Machine
end

section
/-! SUPPORT. Jumps, subroutines, BRK and RTI, branches as whole next states (spec/46_control_flow.md R250 to R263). -/

namespace Sys2Proof.Machine

/-! ### Jumps and subroutines -/

/-- Only the pointer of the indirect form is read, so the jump changes `PC` and what that read changes (R250). -/
theorem exec_jmp (s : State) (o : Operand) : exec (.jmp o) s = .next { s.withReadEffects (s.resolve o).2 with
    pc := s.effectiveAddress o, cycle := s.cycle + jumpCycles o.mode } := by
  simp only [exec, execJmp]
  rw [s.resolve_eq_withReadEffects o]
  rfl

/-- The cost of a jump is that of its mode; no page cross adds to it. -/
theorem encodings_jmp : Encodings .jmp [(.abs, 0x4C, 3, false), (.ind, 0x6C, 5, false)] := by
  refine .of_cost (fun _ => rfl) (by decide) fun row hrow o s hmode => ⟨_, exec_jmp s o, ?_⟩
  simp only [List.mem_cons, List.not_mem_nil, or_false] at hrow
  obtain rfl | rfl := hrow
  all_goals exact congrArg (s.cycle + jumpCycles ·) hmode

theorem exec_jsr (s : State) (w : Word) : exec (.jsr w) s = .next { s with
    ram := (s.ram.write (0x100 + s.sp.toNat) (hiByte (s.pc - 1))).write (0x100 + (s.sp - 1).toNat) (loByte (s.pc - 1))
    sp := s.sp - 2, pc := w, cycle := s.cycle + 6 } := by
  simp only [exec, execJsr, State.push16_eq, State.setPc, State.addCycles]

theorem exec_rts (s : State) : exec .rts s = .next { s with
    pc := joinBytes (s.ram.read (0x100 + (s.sp + 2).toNat)) (s.ram.read (0x100 + (s.sp + 1).toNat)) + 1
    sp := s.sp + 2, cycle := s.cycle + 6 } := by
  simp only [exec, execRts, State.pull16_eq, State.setPc, State.addCycles]

/-- Settles O48: whole next states, from one resolved address, one pushed word and one pulled word. -/
theorem jumpAndSubroutine : Obligations.JumpAndSubroutine :=
  ⟨⟨fun s w => ⟨exec_jmp s (.abs w), exec_jmp s (.ind w)⟩, encodings_jmp⟩, fun s w => ⟨exec_jsr s w, exec_rts s⟩,
    fun _ => rfl, rfl⟩

/-! ### BRK and RTI -/

theorem exec_brk (s : State) : exec .brk s = .next { s with
    ram := ((s.ram.write (0x100 + s.sp.toNat) (hiByte (s.pc + 1))).write (0x100 + (s.sp - 1).toNat)
      (loByte (s.pc + 1))).write (0x100 + (s.sp - 2).toNat) (s.flags.pack true)
    sp := s.sp - 3
    flags := { s.flags with i := true }
    pc := joinBytes (s.ram.read 0xFFFF) (s.ram.read 0xFFFE)
    cycle := s.cycle + 7 } := by
  rw [exec, execBrk, State.enterHandler_eq _ _ _ (by decide)]
  rfl

theorem exec_rti (s : State) : exec .rti s = .next { s with
    flags := unpack (s.ram.read (0x100 + (s.sp + 1).toNat))
    pc := joinBytes (s.ram.read (0x100 + (s.sp + 3).toNat)) (s.ram.read (0x100 + (s.sp + 2).toNat))
    sp := s.sp + 3, cycle := s.cycle + 6 } := by
  rw [exec, execRti, State.returnFromHandler_eq]
  rfl

/-- Settles O49: BRK has the shape of `enterHandler_eq` with the IRQ vector, RTI that of `returnFromHandler_eq`. -/
theorem breakAndReturn : Obligations.BreakAndReturn := ⟨fun s => ⟨exec_brk s, exec_rti s⟩, rfl, rfl⟩

/-! ### Branches -/

/-- The displacement is added as a signed number, modulo 65536 (R150). -/
theorem branchTarget_toNat (pc : Word) (d : Byte) :
    ((branchTarget pc d).toNat : Int) = ((pc.toNat : Int) + d.toInt) % 65536 := by
  have hd : ((d.signExtend 16).toNat : Int) = d.toInt % 65536 := by
    rw [BitVec.signExtend, BitVec.toNat_ofInt]
    omega
  rw [branchTarget, BitVec.toNat_add]
  omega

theorem hiByte_eq_iff (v w : Word) : hiByte v = hiByte w ↔ v.toNat / 256 = w.toNat / 256 := by
  rw [← BitVec.toNat_inj, hiByte_toNat, hiByte_toNat]

/-- What every branch does, its condition apart: a page is named by the high byte of an address (R255). -/
theorem State.branch_eq (s : State) (taken : Bool) (d : Byte) :
    let target := branchTarget s.pc d
    s.branch taken d =
      if taken then { s with
        pc := target, cycle := s.cycle + if target.toNat / 256 = s.pc.toNat / 256 then 3 else 4 }
      else { s with cycle := s.cycle + 2 } := by
  intro target
  have hcost : (2 + if hiByte target = hiByte s.pc then 1 else 2) =
      if target.toNat / 256 = s.pc.toNat / 256 then 3 else 4 := by
    simp only [hiByte_eq_iff]
    split_ifs <;> rfl
  unfold branch
  rw [← hcost]
  rfl

/-- Settles O51: the eight branches differ in the flag they test alone. -/
theorem branchInstructions : Obligations.BranchInstructions := by
  refine ⟨fun s d => ⟨branchTarget s.pc d, branchTarget_toNat s.pc d, ?_⟩,
    fun _ => ⟨rfl, rfl, rfl, rfl, rfl, rfl, rfl, rfl⟩⟩
  have hbranch (taken : Bool) : (.next (s.branch taken d) : Result) = _ := congrArg _ (s.branch_eq taken d)
  exact ⟨hbranch _, hbranch _, hbranch _, hbranch _, hbranch _, hbranch _, hbranch _, hbranch _⟩

end Sys2Proof.Machine
end

section
/-! SUPPORT. Flag instructions and the instructions that do nothing but take their time (spec/47_flags_nop.md R270 to
R277, spec/48_undocumented.md R299 to R303). -/

namespace Sys2Proof.Machine

/-- Settles O52: each clause is the definition. -/
theorem flagInstructions : Obligations.FlagInstructions :=
  ⟨fun _ => ⟨rfl, rfl, rfl, rfl, rfl, rfl, rfl, rfl⟩, rfl, rfl, rfl, rfl, rfl, rfl, rfl, rfl⟩

/-! ### The undocumented NOPs -/

/-- The modes of the undocumented NOPs (R299). -/
def nopModes : List Mode := [.imp, .imm, .zp, .zpx, .abs, .abx]

theorem nopx_wellFormed_iff (op : Byte) (o : Operand) : (Instr.nopx op o).WellFormed ↔ op ∈ nopOpcodes o.mode :=
  List.contains_iff_mem

theorem mode_mem_nopModes {op : Byte} {o : Operand} (h : (Instr.nopx op o).WellFormed) : o.mode ∈ nopModes := by
  rw [nopx_wellFormed_iff] at h
  revert h
  cases o.mode
  case imp | imm | zp | zpx | abs | abx => exact fun _ => by decide
  all_goals exact nofun

/-- A NOP with an address reads it once if the parameter is set; the other two modes access nothing. -/
theorem State.nopAccess_eq (s : State) {o : Operand} (h : o.mode ∈ nopModes) :
    (if s.params.nopOperandAccess && isNopAccess o.mode then ((s.resolve o).2.memRead (s.resolve o).1.ea).2
      else (s.resolve o).2) =
    if s.params.nopOperandAccess = true ∧ o.mode ≠ .imp ∧ o.mode ≠ .imm then s.withReadEffects (s.afterOperand o)
      else s := by
  rw [← s.afterOperand_eq o]
  cases o
  case acc | zpy | aby | ind | izx | izy | rel => simp [nopModes, Operand.mode] at h
  all_goals simp [isNopAccess, Operand.mode, afterOperand, resolve, load]

theorem exec_nopx (s : State) (op : Byte) {o : Operand} (h : o.mode ∈ nopModes) :
    exec (.nopx op o) s = .next { (if s.params.nopOperandAccess = true ∧ o.mode ≠ .imp ∧ o.mode ≠ .imm
        then s.withReadEffects (s.afterOperand o) else s) with
      cycle := s.cycle + readCycles o.mode + s.crossing o } := by
  simp only [exec, execNopx, s.nopAccess_eq h, Nat.add_assoc]
  split_ifs <;> rfl

theorem encode_nopx {op : Byte} {o : Operand} (h : (Instr.nopx op o).WellFormed) :
    encode (.nopx op o) = op :: o.bytes := by
  rw [Instr.WellFormed, Instr.wf] at h
  rw [encode_of_opcodeOf (op := op) (by rw [opcodeOf, if_pos h]), Instr.operand]

/-! ### JAM -/

theorem jam_wellFormed_iff (op : Byte) : (Instr.jam op).WellFormed ↔ op ∈ jamOpcodes := List.contains_iff_mem

theorem encode_jam {op : Byte} (h : (Instr.jam op).WellFormed) : encode (.jam op) = [op] := by
  rw [Instr.WellFormed, Instr.wf] at h
  rw [encode_of_opcodeOf (op := op) (by rw [opcodeOf, if_pos h])]
  rfl

/-- Settles O53: ANE, LXA and JAM are `noop`, an undocumented NOP is its access and then `noop`. -/
theorem noOpInstructions : Obligations.NoOpInstructions :=
  ⟨fun s op _ h => ⟨exec_nopx s op (mode_mem_nopModes h), encode_nopx h⟩,
    fun _ _ _ => ⟨rfl, rfl, rfl, rfl, rfl, encode_jam⟩, jam_wellFormed_iff, fun op o => by
      rw [nopx_wellFormed_iff]
      rfl⟩

end Sys2Proof.Machine
end

section
/-! SUPPORT. No store looks at the registers: replacing them commutes with `MemWrite` (spec/20_memory.md R65, R72). -/

namespace Sys2Proof.Machine

/-- The registers and the flags taken from `r`. -/
def State.withRegisters (s r : State) : State :=
  { s with a := r.a, x := r.x, y := r.y, sp := r.sp, pc := r.pc, flags := r.flags }

section
variable (s r : State)

theorem State.withRegisters_ite (p : Prop) [Decidable p] (t u : State) :
    (if p then t else u).withRegisters r = if p then t.withRegisters r else u.withRegisters r :=
  apply_ite (State.withRegisters · r) p t u

theorem State.sioCommand_withRegisters (image : List Byte) (cmd : Byte) (sector : Nat) :
    (s.withRegisters r).sioCommand image cmd sector = (s.sioCommand image cmd sector).withRegisters r := by
  simp only [sioCommand, withRegisters_ite]
  rfl

theorem State.sioCommandFrame_withRegisters (frame : List Byte) :
    (s.withRegisters r).sioCommandFrame frame = (s.sioCommandFrame frame).withRegisters r := by
  have hdisk : (s.withRegisters r).disk = s.disk := rfl
  simp only [sioCommandFrame, withRegisters_ite, hdisk]
  cases s.disk with
  | none => rfl
  | some image => simp only [sioCommand_withRegisters]; rfl

theorem State.sioDataFrame_withRegisters (frame : List Byte) :
    (s.withRegisters r).sioDataFrame frame = (s.sioDataFrame frame).withRegisters r := by
  have hdisk : (s.withRegisters r).disk = s.disk := rfl
  simp only [sioDataFrame, withRegisters_ite, hdisk]
  cases s.disk with
  | none => rfl
  | some image => simp only [withRegisters_ite]; rfl

theorem State.sioByte_withRegisters (v : Byte) : (s.withRegisters r).sioByte v = (s.sioByte v).withRegisters r := by
  have hsio : (s.withRegisters r).sio = s.sio := rfl
  unfold sioByte
  rw [hsio]
  cases s.sio.phase with
  | command => simp only [sioCommandFrame_withRegisters, withRegisters_ite]; rfl
  | data => simp only [sioDataFrame_withRegisters, withRegisters_ite]; rfl

theorem State.installRegion_withRegisters (region : Region) :
    (s.withRegisters r).installRegion region = (s.installRegion region).withRegisters r := by
  simp only [installRegion, withRegisters_ite]
  rfl

theorem State.install_withRegisters : (s.withRegisters r).install = s.install.withRegisters r := by
  simp only [install, installRegion_withRegisters]

theorem State.pokeyWrite_withRegisters (off : Nat) (v : Byte) :
    (s.withRegisters r).pokeyWrite off v = (s.pokeyWrite off v).withRegisters r := by
  simp only [pokeyWrite, seroutWrite, sioByte_withRegisters, withRegisters_ite]
  rfl

theorem State.piaWrite_withRegisters (off : Nat) (v : Byte) :
    (s.withRegisters r).piaWrite off v = (s.piaWrite off v).withRegisters r := by
  have hportb : (s.withRegisters r).portbWrite v = (s.portbWrite v).withRegisters r :=
    State.install_withRegisters { s with pia := { s.pia with portb := v } } r
  simp only [piaWrite, hportb, withRegisters_ite]
  rfl

theorem State.devWrite_withRegisters (a : Nat) (v : Byte) :
    (s.withRegisters r).devWrite a v = (s.devWrite a v).withRegisters r := by
  unfold devWrite
  cases chipOf a with
  | gtia => simp only [gtiaWrite, withRegisters_ite]; rfl
  | pokey => exact s.pokeyWrite_withRegisters r _ v
  | pia => exact s.piaWrite_withRegisters r _ v
  | antic => simp only [anticWrite, withRegisters_ite]; rfl
  | unmapped => rfl

theorem State.beforeDevWrite_withRegisters (a : Nat) :
    (s.withRegisters r).beforeDevWrite a = (s.beforeDevWrite a).withRegisters r := by
  unfold beforeDevWrite
  cases chipOf a with
  | pokey => rw [withRegisters_ite]; rfl
  | gtia | pia | antic | unmapped => rfl

/-- A store does the same whatever the registers are. -/
theorem State.memWrite_withRegisters (a : Word) (v : Byte) :
    (s.withRegisters r).memWrite a v = (s.memWrite a v).withRegisters r := by
  have hbanks : (s.withRegisters r).banks = s.banks := rfl
  unfold memWrite
  rw [hbanks]
  cases s.banks.dispatch a.toNat with
  | ram | rom => rfl
  | dev => rw [beforeDevWrite_withRegisters, ← devWrite_withRegisters]; rfl

end

end Sys2Proof.Machine
end

section
/-! SUPPORT. The stores and the SHA class as whole next states (spec/41_load_store_transfer.md R183 to R185,
spec/48_undocumented.md R282, R294 to R298, R303). -/

namespace Sys2Proof.Machine

/-! ### Stores -/

/-- One byte is stored at the effective address, and the cycles of the mode pass. -/
theorem State.storeOperand_eq_afterStore (s : State) {o : Operand} (value : State → Resolved → Byte)
    (hind : o.mode ≠ .ind) (hacc : o.mode ≠ .acc) :
    s.storeOperand o value =
      { s.afterStore o (value s (s.resolve o).1) with cycle := s.cycle + storeCycles o.mode } := by
  rw [s.storeOperand_eq value hind hacc, s.memWrite_eq_withWriteEffects]
  rfl

theorem State.storeOperand_cycle (s : State) (o : Operand) (value : State → Resolved → Byte) :
    (s.storeOperand o value).cycle = s.cycle + storeCycles o.mode := by
  have hstore (r : Resolved) (v : Byte) : ((s.resolve o).2.store o r v).core.cycle = s.core.cycle := by
    rw [core_store, core_resolve]
  exact congrArg (· + storeCycles o.mode) (hstore _ _)

/-- The "Encodings" entry of a store, which never pays for a page cross (R153). -/
theorem Encodings.of_storeOperand {mk : Operand → Instr} {rows : List (Mode × Byte × Nat × Bool)}
    {value : State → Resolved → Byte} (hexec : ∀ o s, exec (mk o) s = .next (s.storeOperand o value))
    (htable : ∀ o, opcodeOf (mk o) = opcodeIn o.mode (opcodeColumn rows))
    (hrows : ∀ row ∈ rows, opcodeIn row.1 (opcodeColumn rows) = some row.2.1 ∧
      row.2.2.1 = storeCycles row.1 ∧ row.2.2.2 = false) :
    Encodings mk rows := by
  refine .of_cost htable (fun row hrow => (hrows row hrow).1) fun row hrow o s hmode => ⟨_, hexec o s, ?_⟩
  obtain ⟨-, hcycles, hcross⟩ := hrows row hrow
  rw [hcycles, hcross, ← hmode, s.storeOperand_cycle o value]
  rfl

/-- No store has the accumulator form or the indirect one. -/
theorem State.storeOperand_of_wellFormed (s : State) {o : Operand} (value : State → Resolved → Byte)
    (h : (Instr.sta o).WellFormed ∨ (Instr.stx o).WellFormed ∨ (Instr.sty o).WellFormed ∨ (Instr.sax o).WellFormed) :
    s.storeOperand o value =
      { s.afterStore o (value s (s.resolve o).1) with cycle := s.cycle + storeCycles o.mode } := by
  refine s.storeOperand_eq_afterStore value (fun hind => ?_) (fun hacc => ?_)
  · simp [Instr.WellFormed, Instr.wf, Mode.isMemory, hind] at h
  · simp [Instr.WellFormed, Instr.wf, Mode.isMemory, hacc] at h

/-- Settles O35: the four stores differ in the byte they store alone. -/
theorem storeInstructions : Obligations.StoreInstructions := by
  refine ⟨fun s o => ⟨fun hwf => ?_, fun hwf => ?_, fun hwf => ?_, fun hwf => ?_⟩, ?_, ?_, ?_, ?_⟩
  · exact congrArg _ (s.storeOperand_of_wellFormed _ (.inl hwf))
  · exact congrArg _ (s.storeOperand_of_wellFormed _ (.inr (.inl hwf)))
  · exact congrArg _ (s.storeOperand_of_wellFormed _ (.inr (.inr (.inl hwf))))
  · exact congrArg _ (s.storeOperand_of_wellFormed _ (.inr (.inr (.inr hwf))))
  all_goals exact .of_storeOperand (fun _ _ => rfl) (fun _ => rfl) (by decide)

/-! ### The SHA class -/

/-- Taking the index off an indexed address gives its base back (R294). -/
theorem nextHigh_indexed (base : Word) (index : Byte) :
    nextHigh (Resolved.indexed base index).ea index = hiByte base + 1 := by
  simp only [nextHigh, Resolved.indexed, BitVec.add_sub_cancel]

/-- A store of the SHA class is a store, or only its cycles when the opcode is unstable (R303). -/
theorem State.storeUnlessUnstable_eq (s : State) (op : Byte) {o : Operand} (value : State → Resolved → Byte)
    (hind : o.mode ≠ .ind) (hacc : o.mode ≠ .acc) :
    s.storeUnlessUnstable op o value =
      { (if s.params.unstableExtra.contains op then s else s.afterStore o (value s (s.resolve o).1)) with
        cycle := s.cycle + storeCycles o.mode } := by
  rw [storeUnlessUnstable, unstable, s.storeOperand_eq_afterStore value hind hacc, s.resolve_state hind]
  split_ifs <;> rfl

/-- The pointer in page zero that SHA reads, its second byte wrapping inside the page (R144). -/
theorem State.resolve_izy_indexed (s : State) (d : Byte) :
    (s.resolve (.izy d)).1 =
      Resolved.indexed (joinBytes (s.ram.read ((d.toNat + 1) % 256)) (s.ram.read d.toNat)) s.y := by
  rw [resolve_izy, read16zp_eq, BitVec.toNat_add]
  rfl

theorem exec_sha_aby (s : State) (w : Word) :
    exec (.sha (.aby w)) s = .next { (if s.params.unstableExtra.contains 0x9F then s
      else s.afterStore (.aby w) (s.a &&& s.x &&& (hiByte w + 1))) with cycle := s.cycle + 5 } := by
  rw [← nextHigh_indexed w s.y]
  exact congrArg _ (s.storeUnlessUnstable_eq (o := .aby w) 0x9F _ nofun nofun)

theorem exec_sha_izy (s : State) (d : Byte) :
    let base := joinBytes (s.ram.read ((d.toNat + 1) % 256)) (s.ram.read d.toNat)
    exec (.sha (.izy d)) s = .next { (if s.params.unstableExtra.contains 0x93 then s
      else s.afterStore (.izy d) (s.a &&& s.x &&& (hiByte base + 1))) with cycle := s.cycle + 6 } := by
  intro base
  rw [← nextHigh_indexed base s.y, ← s.resolve_izy_indexed d]
  exact congrArg _ (s.storeUnlessUnstable_eq (o := .izy d) 0x93 _ nofun nofun)

theorem exec_shx (s : State) (w : Word) :
    exec (.shx w) s = .next { (if s.params.unstableExtra.contains 0x9E then s
      else s.afterStore (.aby w) (s.x &&& (hiByte w + 1))) with cycle := s.cycle + 5 } := by
  rw [← nextHigh_indexed w s.y]
  exact congrArg _ (s.storeUnlessUnstable_eq (o := .aby w) 0x9E _ nofun nofun)

theorem exec_shy (s : State) (w : Word) :
    exec (.shy w) s = .next { (if s.params.unstableExtra.contains 0x9C then s
      else s.afterStore (.abx w) (s.y &&& (hiByte w + 1))) with cycle := s.cycle + 5 } := by
  rw [← nextHigh_indexed w s.x]
  exact congrArg _ (s.storeUnlessUnstable_eq (o := .abx w) 0x9C _ nofun nofun)

/-- `SP` is written before the store, which does not look at it (R296). -/
theorem State.afterStore_withSp (s : State) (p v : Byte) (w : Word) :
    ({ s with sp := p }).afterStore (.aby w) v = { s.afterStore (.aby w) v with sp := p } := by
  have hstore := s.memWrite_withRegisters { s with sp := p } (s.effectiveAddress (.aby w)) v
  exact congrArg ({ s with sp := p }).withWriteEffects hstore

theorem exec_tas (s : State) (w : Word) :
    exec (.tas w) s = .next { (if s.params.unstableExtra.contains 0x9B then s
      else { s.afterStore (.aby w) (s.a &&& s.x &&& (hiByte w + 1)) with sp := s.a &&& s.x }) with
      cycle := s.cycle + 5 } := by
  rw [← nextHigh_indexed w s.y, ← s.afterStore_withSp]
  simp only [exec, execTas, State.unstable, State.storeOperand_eq_afterStore (o := .aby w) _ _ nofun nofun]
  split_ifs <;> rfl

theorem exec_las (s : State) (w : Word) :
    let v := s.operandByte (.aby w) &&& s.sp
    exec (.las w) s = .next { (if s.params.unstableExtra.contains 0xBB then s
      else { s.withReadEffects (s.afterOperand (.aby w)) with
        a := v, x := v, sp := v, flags := s.flags.signZero v }) with
      cycle := s.cycle + (4 + s.crossing (.aby w)) } := by
  simp only [exec, execLas, State.unstable, s.readOperand_eq_withReadEffects, ← Flags.setNZ_eq]
  split_ifs <;> rfl

/-- Settles O56, one next state for each instruction; the encodings are the encoder's. -/
theorem shaClassInstructions : Obligations.ShaClassInstructions :=
  ⟨fun s w d => ⟨exec_sha_aby s w, exec_sha_izy s d, exec_shx s w, exec_shy s w, exec_tas s w, exec_las s w⟩,
    fun _ _ => ⟨rfl, rfl, rfl, rfl, rfl, rfl⟩⟩

end Sys2Proof.Machine
end

section
/-! SUPPORT. Undocumented read-modify-writes and immediate forms as whole next states (spec/48_undocumented.md R283 to
R292). -/

namespace Sys2Proof.Machine

/-! ### Read-modify-writes that go on to the accumulator -/

/-- SLO, RLA and SRE differ in the byte function `f` and the operation `g` with the accumulator alone (R283 to R285). -/
theorem State.modifyOperand_loadA (s : State) {o : Operand} (f : Bool → Byte → Byte × Bool) (g : Byte → Byte → Byte)
    (hmode : o.mode ≠ .acc) :
    let n := f s.flags.c (s.operandByte o)
    let v := g s.a n.1
    s.modifyOperand o f (fun t m => t.loadA (g t.a m)) = { s.afterModify o n.1 with
      a := v, flags := { s.flags with c := n.2 }.signZero v, cycle := s.cycle + rmwCycles o.mode } := by
  rw [s.modifyOperand_eq_afterModify f _ hmode]
  simp only [← Flags.setNZ_eq]
  rfl

/-- RRA and ISC differ in the byte function `f` and the arithmetic `g` alone; `g` sees the carry `f` leaves (R286,
R288). -/
theorem State.modifyOperand_setResult (s : State) {o : Operand} (f : Bool → Byte → Byte × Bool)
    (g : Flags → Byte → Byte → Byte × Flags) (hmode : o.mode ≠ .acc) :
    let n := f s.flags.c (s.operandByte o)
    let r := g { s.flags with c := n.2 } s.a n.1
    s.modifyOperand o f (fun t m => t.setResult (g t.flags t.a m)) = { s.afterModify o n.1 with
      a := r.1, flags := r.2, cycle := s.cycle + rmwCycles o.mode } := by
  rw [s.modifyOperand_eq_afterModify f _ hmode]
  rfl

/-- DCP compares the accumulator with the new byte (R287). -/
theorem State.modifyOperand_compare (s : State) {o : Operand} (f : Bool → Byte → Byte × Bool) (hmode : o.mode ≠ .acc) :
    let n := f s.flags.c (s.operandByte o)
    s.modifyOperand o f (fun t m => t.compare t.a m) = { s.afterModify o n.1 with
      a := s.a, flags := { s.flags with c := n.2 }.unsignedCompare s.a n.1, cycle := s.cycle + rmwCycles o.mode } := by
  rw [s.modifyOperand_eq_afterModify f _ hmode]
  simp only [← Flags.compare_eq]
  rfl

theorem mode_ne_acc_of_isMemory {m : Mode} (h : m.isMemory = true) : m ≠ .acc := by
  rintro rfl
  exact Bool.noConfusion h

/-- Settles O54: one read-modify-write each, and what follows it. -/
theorem combinedReadModifyWrites : Obligations.CombinedReadModifyWrites := by
  refine ⟨fun s o hmemory => ?_, ?_, ?_, ?_, ?_, ?_, ?_⟩
  · have hmode := mode_ne_acc_of_isMemory hmemory
    exact ⟨congrArg _ (s.modifyOperand_loadA shiftLeft (· ||| ·) hmode),
      congrArg _ (s.modifyOperand_loadA rotateLeft (· &&& ·) hmode),
      congrArg _ (s.modifyOperand_loadA shiftRight (· ^^^ ·) hmode),
      congrArg _ (s.modifyOperand_setResult rotateRight adc hmode),
      congrArg _ (s.modifyOperand_compare decrement hmode),
      congrArg _ (s.modifyOperand_setResult increment sbc hmode)⟩
  all_goals exact .of_modifyOperand (fun _ _ => rfl) (fun _ _ => rfl) (fun _ => rfl) (by decide)

/-! ### Immediate forms -/

/-- `C` is the copy of `N` (R289). -/
theorem exec_anc (s : State) (op v : Byte) :
    let m := s.a &&& v
    exec (.anc op v) s = .next { s with
      a := m, flags := { s.flags.signZero m with c := decide (128 ≤ m.toNat) }, cycle := s.cycle + 2 } := by
  intro m
  have hcarry : decide (128 ≤ m.toNat) = m.msb := (BitVec.msb_eq_decide m).symm
  rw [hcarry, ← Flags.setNZ_eq]
  rfl

theorem anc_wellFormed_iff (op v : Byte) : (Instr.anc op v).WellFormed ↔ op = 0x0B ∨ op = 0x2B := by
  simp [Instr.WellFormed, Instr.wf, ancOpcodes]

/-- Settles O55: the other three clauses are the definition, once `N` and `Z` are read as numbers. -/
theorem immediateUndocumented : Obligations.ImmediateUndocumented := by
  refine ⟨fun s v op => ⟨exec_anc s op v, ?_⟩, fun _ => ⟨rfl, rfl, rfl, rfl, rfl⟩, anc_wellFormed_iff⟩
  simp only [← Flags.setNZ_eq]
  exact ⟨rfl, rfl, rfl⟩

end Sys2Proof.Machine
end

section
/-! SUPPORT. What a handler entry leaves on the stack, and the return that undoes it (spec/60_exceptions.md R326 to
R328, R331, spec/46_control_flow.md R253, R254). -/

namespace Sys2Proof.Machine

/-- `t` is `s` after an entry that pushed the return address `ret` and the status with bit 4 as `brk` says (R327). -/
structure State.Entered (s t : State) (ret : Word) (brk : Bool) : Prop where
  sp      : t.sp = s.sp - 3
  flags   : t.flags = { s.flags with i := true }
  high    : t.ram.read (0x100 + s.sp.toNat) = hiByte ret
  low     : t.ram.read (0x100 + (s.sp - 1).toNat) = loByte ret
  status  : t.ram.read (0x100 + (s.sp - 2).toNat) = s.flags.pack brk
  outside : ∀ a, a ≠ 0x100 + s.sp.toNat → a ≠ 0x100 + (s.sp - 1).toNat → a ≠ 0x100 + (s.sp - 2).toNat →
    t.ram.read a = s.ram.read a

/-- Three pushes from one stack pointer go to three addresses, however they wrap in page 1. -/
theorem State.Entered.of_pushes {s t : State} {ret : Word} {brk : Bool} (hram : s.ram.wf = true)
    (hpushed : t.ram = ((s.ram.write (0x100 + s.sp.toNat) (hiByte ret)).write (0x100 + (s.sp - 1).toNat)
      (loByte ret)).write (0x100 + (s.sp - 2).toNat) (s.flags.pack brk))
    (hsp : t.sp = s.sp - 3 := by rfl) (hflags : t.flags = { s.flags with i := true } := by rfl) :
    s.Entered t ret brk := by
  have h01 : 0x100 + s.sp.toNat ≠ 0x100 + (s.sp - 1).toNat := by bv_omega
  have h02 : 0x100 + s.sp.toNat ≠ 0x100 + (s.sp - 2).toNat := by bv_omega
  have h12 : 0x100 + (s.sp - 1).toNat ≠ 0x100 + (s.sp - 2).toNat := by bv_omega
  refine ⟨hsp, hflags, ?_, ?_, ?_, fun a ha0 ha1 ha2 => ?_⟩
  · rw [hpushed, Memory.read_write_ne _ _ h02, Memory.read_write_ne _ _ h01, Memory.read_write hram, if_pos rfl]
  · rw [hpushed, Memory.read_write_ne _ _ h12, Memory.read_write (Memory.wf_write hram _ _), if_pos rfl]
  · rw [hpushed, Memory.read_write (Memory.wf_write (Memory.wf_write hram _ _) _ _), if_pos rfl]
  · rw [hpushed, Memory.read_write_ne _ _ ha2, Memory.read_write_ne _ _ ha1, Memory.read_write_ne _ _ ha0]

section
variable {s : State} (hram : s.ram.wf = true)
include hram

theorem State.entered_serviceIrq : s.Entered s.serviceIrq s.pc false := by
  rw [serviceIrq_eq]
  exact .of_pushes hram rfl

theorem State.entered_nmi : s.Entered s.nmi s.pc false := by
  rw [nmi_eq]
  exact .of_pushes hram rfl

theorem exec_brk_entered : ∃ t, exec .brk s = .next t ∧ s.Entered t (s.pc + 1) true :=
  ⟨_, exec_brk s, .of_pushes hram rfl⟩

end

/-- Settles O7: the three entries push alike. -/
theorem handlerStackLayout : Obligations.HandlerStackLayout := by
  intro s hram at_ entered
  have hentered {t : State} {ret : Word} {brk : Bool} (h : s.Entered t ret brk) : entered t ret brk :=
    have hat : at_ 0 = 0x100 + s.sp.toNat := congrArg (fun p : Byte => 0x100 + p.toNat) (BitVec.sub_zero s.sp)
    ⟨h.sp, h.flags, hat ▸ h.high, h.low, h.status, hat ▸ h.outside⟩
  obtain ⟨t, hbrk, ht⟩ := exec_brk_entered hram
  exact ⟨hentered (State.entered_serviceIrq hram), hentered (State.entered_nmi hram), t, hbrk, hentered ht⟩

/-- RTI finds the three bytes an entry pushed. -/
theorem State.Entered.exec_rti {s t : State} {ret : Word} {brk : Bool} (h : s.Entered t ret brk) :
    exec .rti t = .next { t with flags := { s.flags with b := brk }, pc := ret, sp := s.sp, cycle := t.cycle + 6 } := by
  have h1 : s.sp - 3 + 1 = s.sp - 2 := by bv_omega
  have h2 : s.sp - 3 + 2 = s.sp - 1 := by bv_omega
  have h3 : s.sp - 3 + 3 = s.sp := by bv_omega
  rw [Machine.exec_rti, h.sp, h1, h2, h3, h.status, h.low, h.high, unpack_pack, joinBytes_hiByte_loByte]

/-- Settles O50: RTI reads back what the entry pushed, and neither touches `A`, `X` or `Y`. -/
theorem returnUndoesInterruptEntry : Obligations.ReturnUndoesInterruptEntry := by
  rintro s hram t (rfl | rfl)
  · refine ⟨_, (State.entered_serviceIrq hram).exec_rti, rfl, rfl, rfl, ?_⟩
    rw [s.serviceIrq_eq]
    exact ⟨rfl, rfl, rfl⟩
  · refine ⟨_, (State.entered_nmi hram).exec_rti, rfl, rfl, rfl, ?_⟩
    rw [s.nmi_eq]
    exact ⟨rfl, rfl, rfl⟩

end Sys2Proof.Machine
end

section
/-! SUPPORT. `reset()` (spec/70_reset_and_hazards.md R420), and the invariant right after it. -/

namespace Sys2Proof.Machine

/-- Settles O32: the vector is read from the visible array, which costs nothing and changes nothing. -/
theorem resetChangesFourFields : Obligations.ResetChangesFourFields := by
  intro s
  unfold State.resetCpu
  dsimp only
  rw [State.read16_of_not_device _ (by decide) (by decide)]
  rfl

/-- Settles O13: the arrays are empty, the raster stands at its first line, and no image is loaded. -/
theorem resetMeetsInvariant : Obligations.ResetMeetsInvariant where
  canonical := ⟨rfl, rfl, rfl, rfl⟩
  wakeIsLeast := rfl
  onRaster := ⟨rfl, Nat.le_refl 0, rfl, rfl⟩
  installed := fun r => by cases r <;> rfl
  romVisible := fun r _ hrom => by cases r <;> cases hrom

end Sys2Proof.Machine
end

section
/-! SUPPORT. Which event the service loop handles, and what the interrupt sources and the scanline boundary do
(spec/60_exceptions.md R324, R325, R334, R335, spec/61_platform_devices.md R361, R366 to R371, R396, R411, R412). -/

namespace Sys2Proof.Machine

/-! ### The earliest event -/

/-- With the wake cycle the least due cycle and an event due, there is an earliest event, and it is due. -/
theorem State.exists_earliest {s : State} (hwake : s.WakeIsLeast) (hdue : ¬ s.WakeAhead) :
    ∃ e t, s.events.earliest = some (e, t) ∧ t ≤ s.cycle := by
  rw [State.wakeAhead_iff, hwake] at hdue
  push Not at hdue
  obtain ⟨t, hleast, ht⟩ := hdue
  cases he : s.events.earliest with
  | none => exact absurd ((s.events.earliest_none he).symm.trans hleast) nofun
  | some p =>
    obtain ⟨hp, -, -⟩ := s.events.earliest_some (e := p.1) (t := p.2) he
    have htime : p.2 = t := Option.some.inj (hp.symm.trans hleast)
    exact ⟨p.1, p.2, rfl, htime ▸ ht⟩

theorem EventId.nodup_all : EventId.all.Nodup := by decide

/-- No event that comes before the first one due at a cycle is due at it (R335). -/
theorem Events.get_ne_of_before (v : Events) {t : Nat} {e : EventId} (h : v.firstAt t EventId.all = some e)
    {before after : List EventId} (hall : EventId.all = before ++ e :: after) : ∀ e' ∈ before, v.get e' ≠ some t := by
  obtain ⟨before', after', hall', -, hbefore⟩ := v.firstAt_some h
  have hnodup := EventId.nodup_all
  rw [hall] at hnodup
  obtain ⟨-, htail, hdisjoint⟩ := List.nodup_append.mp hnodup
  have hnot : e ∉ before := fun hmem => hdisjoint e hmem e List.mem_cons_self rfl
  obtain ⟨rfl, -, -⟩ :=
    (List.append_cons_inj_of_notMem hnot htail.notMem).mp (hall.symm.trans hall')
  exact hbefore

/-- Settles O10: the loop takes the earliest event, which is the first of those due at the least due cycle. -/
theorem earliestEventIsServiced : Obligations.EarliestEventIsServiced := by
  intro s hwake hdue
  obtain ⟨e, t, he, ht⟩ := State.exists_earliest hwake hdue
  obtain ⟨hleast, hfirst, hget⟩ := s.events.earliest_some he
  exact ⟨e, t, fun k => State.serviceEvents_succ (Bool.eq_true_of_not_eq_false hdue) he, he, hget, ht,
    fun e' _ hget' => s.events.leastOf_le e'.mem_all hget' hleast,
    fun _ _ hall => s.events.get_ne_of_before hfirst hall⟩

/-! ### Interrupt sources -/

theorem not_eq_xor_ff (v : Byte) : ~~~v = v ^^^ 0xFF := (BitVec.xor_allOnes (x := v)).symm

/-- The status bits go to 0, and the request is counted if IRQEN enables it; nothing else changes (R324, R325). -/
theorem State.fireIrq_eq (s : State) (bits : Byte) : s.fireIrq bits = { s with
    pokey := { s.pokey with irqst := s.pokey.irqst &&& (bits ^^^ 0xFF) }
    irqPending := if s.pokey.irqen &&& bits = 0 then s.irqPending else s.irqPending + 1 } := by
  rw [fireIrq, not_eq_xor_ff]
  dsimp only
  split_ifs <;> rfl

theorem State.handleTimer_eq (s : State) (e : EventId) (n : Nat) (bits : Byte) (t : Nat) :
    s.handleTimer e n bits t = { s with
      pokey := { s.pokey with irqst := s.pokey.irqst &&& (bits ^^^ 0xFF) }
      irqPending := if s.pokey.irqen &&& bits = 0 then s.irqPending else s.irqPending + 1
      events := s.events.set e (s.timerDue n t)
      nextWake := (s.events.set e (s.timerDue n t)).least } := by
  rw [handleTimer, fireIrq_eq]
  rfl

theorem State.handleSerial_eq (s : State) (e : EventId) (bits : Byte) :
    s.handleSerial e bits = { s with
      pokey := { s.pokey with irqst := s.pokey.irqst &&& (bits ^^^ 0xFF) }
      irqPending := if s.pokey.irqen &&& bits = 0 then s.irqPending else s.irqPending + 1
      events := s.events.set e none
      nextWake := (s.events.set e none).least } := by
  rw [handleSerial, fireIrq_eq]
  rfl

/-- Settles O27: VBI and DLI are their definitions, the timers one handler and the serial events another. -/
theorem interruptSources : Obligations.InterruptSources :=
  ⟨fun s => ⟨s.raiseVbi_eq, s.handleDli_eq⟩, fun s t =>
    ⟨s.handleTimer_eq .timer1 1 1 t, s.handleTimer_eq .timer2 2 2 t, s.handleTimer_eq .timer4 4 4 t,
      s.handleSerial_eq .serOutNeeded 0x10, s.handleSerial_eq .serOutDone 0x08, s.handleSerial_eq .serInReady 0x20⟩⟩

/-! ### The scanline boundary -/

/-- What the boundary may still change once the VBI is decided: ANTIC's own fields but the raster position and the NMI
status, the events with the wake cycle, and the stall limit, which it never lowers (R366, R369, R379). -/
structure State.BoundaryFrame (v u : State) : Prop where
  state     : u = { v with antic := u.antic, events := u.events, nextWake := u.nextWake, stallUntil := u.stallUntil }
  scanline  : u.antic.scanline = v.antic.scanline
  lineStart : u.antic.lineStart = v.antic.lineStart
  nmist     : u.antic.nmist = v.antic.nmist
  stall     : v.stallUntil ≤ u.stallUntil

theorem State.DisplayListFrame.refl (s : State) : s.DisplayListFrame s :=
  ⟨rfl, ⟨rfl, rfl⟩, ⟨rfl, rfl⟩, .inl rfl, .inl rfl, fun _ => .inl rfl⟩

theorem State.DisplayListFrame.boundary {v w : State} (h : v.DisplayListFrame w) (stall : Nat)
    (fetch draw : Option Nat) : v.BoundaryFrame (((w.raiseStall stall).arm .fetch fetch).arm .draw draw) := by
  obtain ⟨hstate, ⟨hscanline, hlineStart⟩, ⟨-, hnmist⟩, -⟩ := h
  have hstall : w.stallUntil = v.stallUntil := (congrArg State.stallUntil hstate :)
  refine ⟨?_, hscanline, hlineStart, hnmist, hstall ▸ Nat.le_max_left _ _⟩
  rw [hstate]
  rfl

theorem State.nextScanline_raster (s : State) (t : Nat) :
    (s.nextScanline t).antic.scanline = (s.antic.scanline + 1) % 312 ∧ (s.nextScanline t).antic.lineStart = t ∧
      (s.nextScanline t).antic.nmien = s.antic.nmien ∧ (s.nextScanline t).antic.nmist = s.antic.nmist := by
  unfold nextScanline
  dsimp only
  split_ifs <;> exact ⟨rfl, rfl, rfl, rfl⟩

/-- The state once the VBI is decided: it is raised on scanline 248 alone (R366, R368). -/
def State.afterVbi (s : State) (t : Nat) : State :=
  if (s.antic.scanline + 1) % 312 = 248 then (s.nextScanline t).raiseVbi else s.nextScanline t

theorem State.handleFetch_frame (s : State) (t : Nat) : (s.afterVbi t).BoundaryFrame (s.handleFetch t) := by
  have hvbi : (if (s.nextScanline t).antic.scanline = vbiLine then (s.nextScanline t).raiseVbi else s.nextScanline t) =
      s.afterVbi t := by
    rw [(s.nextScanline_raster t).1]
    rfl
  unfold handleFetch
  dsimp only
  rw [hvbi]
  split_ifs
  · exact ((s.afterVbi t).fetchDlInstruction_frame t).boundary _ _ _
  · exact (State.DisplayListFrame.refl _).boundary _ _ _

/-- The VBI moves neither the raster nor the stall limit. -/
theorem State.afterVbi_raster (s : State) (t : Nat) :
    (s.afterVbi t).antic.scanline = (s.antic.scanline + 1) % 312 ∧ (s.afterVbi t).antic.lineStart = t ∧
      (s.afterVbi t).stallUntil = s.stallUntil := by
  obtain ⟨hscanline, hlineStart, -, -⟩ := s.nextScanline_raster t
  unfold afterVbi
  split_ifs
  · rw [raiseVbi_eq, nmi_eq]
    split_ifs <;> exact ⟨hscanline, hlineStart, rfl⟩
  · exact ⟨hscanline, hlineStart, rfl⟩

theorem State.afterVbi_of_ne {s : State} (t : Nat) (h : (s.antic.scanline + 1) % 312 ≠ 248) :
    s.afterVbi t = s.nextScanline t := if_neg h

theorem State.afterVbi_of_eq {s : State} (t : Nat) (h : (s.antic.scanline + 1) % 312 = 248) :
    s.afterVbi t = if s.antic.nmien.getLsbD 6 then ((s.nextScanline t).setNmist 0x80 0x40).nmi
      else (s.nextScanline t).setNmist 0x80 0x40 := by
  rw [afterVbi, if_pos h, raiseVbi_eq, (s.nextScanline_raster t).2.2.1]

/-- Settles O28: after the VBI, whose entry is `nmi()`, the boundary leaves CPU and memory alone. -/
theorem scanlineAdvance : Obligations.ScanlineAdvance := by
  intro s t
  obtain ⟨hstate, hscanline, hlineStart, hnmist, hstall⟩ := s.handleFetch_frame t
  obtain ⟨hline, hstart, hlimit⟩ := s.afterVbi_raster t
  obtain ⟨⟨_, hevents⟩, -⟩ := s.handleFetch_time t
  obtain ⟨-, -, -, hstatus⟩ := s.nextScanline_raster t
  have keep {α : Type} (π : State → α) := congrArg π hstate
  refine ⟨hscanline.trans hline, hlineStart.trans hstart, congrArg Events.fetch hevents, congrArg Events.draw hevents,
    hlimit ▸ hstall, fun hother => ?_, fun hvbi => ?_⟩
  · rw [State.afterVbi_of_ne t hother] at keep hnmist
    exact ⟨hnmist.trans hstatus, keep State.pc, keep State.sp, keep State.cycle, keep State.ram⟩
  · rw [State.afterVbi_of_eq t hvbi] at keep hnmist
    refine ⟨?_, fun henabled => ?_, fun hdisabled => ?_⟩
    · rw [← hstatus]
      refine hnmist.trans ?_
      rw [State.nmi_eq]
      split_ifs <;> rfl
    · rw [if_pos henabled, State.nmi_eq] at keep
      exact ⟨keep State.pc, keep State.sp, keep fun u => u.flags.i, keep State.cycle⟩
    · rw [if_neg (ne_true_of_eq_false hdisabled)] at keep
      exact ⟨keep State.pc, keep State.sp, keep State.flags, keep State.cycle, keep State.ram⟩

end Sys2Proof.Machine
end

section
/-! SUPPORT. The device registers one by one (spec/61_platform_devices.md R378, R380, R381, R394 to R396, R402 to R404,
R411). -/

namespace Sys2Proof.Machine

/-! ### PIA -/

theorem portRead_eq (control latch direction input : Byte) : portRead control latch direction input =
    if control.getLsbD 2 then (latch &&& direction) ||| (input &&& (direction ^^^ 0xFF)) else direction := by
  rw [portRead, not_eq_xor_ff]

theorem State.memWrite_porta (s : State) (v : Byte) : s.memWrite 0xD300 v = { s with
    sram := s.sram.write 0xD300 v
    pia := if s.pia.pactl.getLsbD 2 then { s.pia with porta := v } else { s.pia with ddra := v } } := by
  rw [s.memWrite_pia v (k := 0) rfl (by decide), piaWrite, if_pos rfl]
  show (if s.pia.pactl.getLsbD 2 then _ else _) = _
  split_ifs <;> rfl

/-- Settles O24, one register read or stored for each clause. -/
theorem piaRegisters : Obligations.PiaRegisters := by
  intro s v port
  have hread {a : Word} (k : Nat) (ha : a.toNat = 0xD300 + k) (hk : k < 4) := s.memRead_pia ha hk
  have hwrite {a : Word} (k : Nat) (ha : a.toNat = 0xD300 + k) (hk : k < 4) := s.memWrite_pia v ha hk
  refine ⟨?_, ?_, hread 2 rfl (by decide), hread 3 rfl (by decide), s.memWrite_porta v, hwrite 2 rfl (by decide),
    hwrite 3 rfl (by decide)⟩
  · exact (hread 0 rfl (by decide)).trans (congrArg (·, s) (portRead_eq _ _ _ _))
  · exact (hread 1 rfl (by decide)).trans (congrArg (·, s) (portRead_eq _ _ _ _))

/-! ### WSYNC -/

/-- The next boundary is an armed event, so it is ahead while no event is due; the current one is past. -/
theorem State.boundary_ahead {s : State} (hraster : s.OnRaster) (hwake : s.WakeIsLeast) (hahead : s.WakeAhead) :
    s.cycle < s.antic.lineStart + 114 ∧ s.antic.lineStart + 114 ≤ s.cycle + 114 := by
  obtain ⟨hfetch, hpast, -, -⟩ := hraster
  refine ⟨?_, Nat.add_le_add_right hpast 114⟩
  rw [wakeAhead_iff] at hahead
  cases hnext : s.nextWake with
  | none =>
    have hnever := (s.events.leastOf_none_iff _).mp (hwake.symm.trans hnext) .fetch (EventId.mem_all _)
    exact absurd (hfetch.symm.trans hnever) nofun
  | some w =>
    exact (hahead w hnext).trans_le
      (s.events.leastOf_le (EventId.mem_all .fetch) hfetch (hwake.symm.trans hnext))

/-- Settles O25: the store raises the stall limit to the next boundary. -/
theorem wsyncStallsToBoundary : Obligations.WsyncStallsToBoundary := fun s v =>
  ⟨s.memWrite_antic v (k := 10) rfl (by decide), s.memRead_state rfl, State.boundary_ahead⟩

/-! ### Interrupt control -/

theorem State.memWrite_irqen (s : State) (v : Byte) : s.memWrite 0xD20E v = { s with
    sram := s.sram.write 0xD20E v
    pokey := { s.pokey with irqen := v, irqst := s.pokey.irqst ||| (v ^^^ 0xFF) } } := by
  rw [← not_eq_xor_ff]
  exact s.memWrite_pokey v (k := 14) rfl (by decide)

/-- Settles O26, one register read or stored for each clause. -/
theorem interruptControlRegisters : Obligations.InterruptControlRegisters :=
  ⟨fun s v => ⟨s.memWrite_antic v (k := 14) rfl (by decide), s.memRead_antic (k := 15) rfl (by decide),
      s.memWrite_antic v (k := 15) rfl (by decide)⟩,
    fun s v => ⟨s.memWrite_irqen v, s.memRead_pokey (k := 14) rfl (by decide)⟩⟩

/-! ### STIMER and SERIN -/

/-- The shadow byte of STIMER plays no part in a period (R391, R392). -/
theorem State.timerDue_setShadow_stimer (s : State) (v : Byte) {n : Nat} (hn : n = 1 ∨ n = 2 ∨ n = 3 ∨ n = 4)
    (c : Nat) : (s.setShadow 0xD209 v).timerDue n c = s.timerDue n c := by
  have hperiod : (s.setShadow 0xD209 v).period n = s.period n :=
    State.period_congr (s := s) (t := s.setShadow 0xD209 v)
      (fun k hk => Memory.read_write_ne s.sram v (by omega)) rfl hn
  rw [timerDue, timerDue, hperiod]

/-- The three timers are armed one period on from the cycle of the store (R396). -/
theorem State.memWrite_stimer (s : State) (v : Byte) :
    let e := { s.events with
      timer1 := s.timerDue 1 s.cycle, timer2 := s.timerDue 2 s.cycle, timer4 := s.timerDue 4 s.cycle }
    s.memWrite 0xD209 v = { s with sram := s.sram.write 0xD209 v, events := e, nextWake := e.least } := by
  have hwrite : s.memWrite 0xD209 v = (s.setShadow 0xD209 v).stimerWrite := s.memWrite_pokey v (k := 9) rfl (by decide)
  have hdue (n : Nat) (hn : n = 1 ∨ n = 2 ∨ n = 3 ∨ n = 4) := s.timerDue_setShadow_stimer v hn s.cycle
  rw [← hdue 1 (by decide), ← hdue 2 (by decide), ← hdue 4 (by decide), hwrite]
  rfl

theorem State.memRead_serin (s : State) : s.memRead 0xD20D = s.serinRead := s.memRead_pokey (k := 13) rfl (by decide)

theorem State.serinRead_of_empty {s : State} (h : s.sio.remaining = 0) : s.serinRead = (s.sio.lastByte, s) := if_pos h

theorem State.serinRead_of_last {s : State} (h : s.sio.remaining = 1) :
    let v := s.sio.response.getD s.sio.index s.sio.lastByte
    s.serinRead = (v, { s with sio := { s.sio with response := [], index := 0, remaining := 0, lastByte := v } }) := by
  rw [serinRead, if_neg (by omega)]
  exact if_pos h

theorem State.serinRead_of_more {s : State} (h : 1 < s.sio.remaining) :
    let v := s.sio.response.getD s.sio.index s.sio.lastByte
    s.serinRead =
      (v, { s with sio := { s.sio with
              index := s.sio.index + 1, remaining := s.sio.remaining - 1, lastByte := v } }.arm
        .serInReady (some (s.cycle + s.params.serialByte))) := by
  rw [serinRead, if_neg (by omega)]
  exact if_neg h.ne'

/-- Settles O29: the read of SERIN by the number of bytes that remain: none, one, more. -/
theorem timerAndSerialRegisters : Obligations.TimerAndSerialRegisters := by
  intro s v
  refine ⟨s.memWrite_stimer v, fun hempty => ?_, fun hsome => ?_⟩
  · rw [s.memRead_serin, State.serinRead_of_empty hempty]
  · rw [s.memRead_serin]
    obtain hlast | hmore : s.sio.remaining = 1 ∨ 1 < s.sio.remaining := by omega
    · rw [State.serinRead_of_last hlast]
      exact ⟨rfl, (congrArg (· - 1) hlast).symm, rfl, fun hmore => absurd hlast hmore.ne', fun _ => ⟨rfl, rfl⟩⟩
    · rw [State.serinRead_of_more hmore]
      exact ⟨rfl, rfl, rfl, fun _ => ⟨rfl, rfl, rfl, rfl⟩, fun hlast => absurd hlast hmore.ne'⟩

end Sys2Proof.Machine
end

section
/-! SUPPORT. Sectors of a disk image, and the SIO checksum (spec/61_platform_devices.md R408 to R410). -/

namespace Sys2Proof.Machine

/-! ### Sectors -/

theorem sectorBytes_congr {image image' : List Byte} (h : declaredSectorSize image' = declaredSectorSize image)
    (n : Nat) : sectorBytes image' n = sectorBytes image n ∧ sectorOffset image' n = sectorOffset image n := by
  simp only [sectorBytes, sectorOffset, h, and_self]

/-- The header of 16 bytes comes before every sector (R409). -/
theorem le_sectorOffset (image : List Byte) (n : Nat) : 16 ≤ sectorOffset image n := by
  unfold sectorOffset
  split_ifs <;> omega

section
variable {image data : List Byte} {n : Nat} (hfits : sectorOffset image n + data.length ≤ image.length)
include hfits

theorem length_writeSector : (writeSector image n data).length = image.length := by
  simp only [writeSector, List.length_append, List.length_take, List.length_drop]
  omega

theorem writeSector_getElem?_outside {k : Nat}
    (hk : ¬ (sectorOffset image n ≤ k ∧ k < sectorOffset image n + data.length)) :
    (writeSector image n data)[k]? = image[k]? := by
  have hlength : (image.take (sectorOffset image n)).length = sectorOffset image n :=
    List.length_take_of_le (by omega)
  by_cases hbefore : k < sectorOffset image n
  · rw [writeSector, List.append_assoc, List.getElem?_append_left (by omega), List.getElem?_take_of_lt hbefore]
  · have hafter : (image.take (sectorOffset image n) ++ data).length ≤ k := by
      rw [List.length_append]
      omega
    rw [writeSector, List.getElem?_append_right hafter, List.getElem?_drop, List.length_append, hlength]
    congr 1
    omega

/-- The sector size stands in the header, which no sector write reaches. -/
theorem declaredSectorSize_writeSector : declaredSectorSize (writeSector image n data) = declaredSectorSize image := by
  have hoffset := le_sectorOffset image n
  have hbyte (k : Nat) (hk : k < 16) : (writeSector image n data).getD k 0 = image.getD k 0 := by
    rw [List.getD_eq_getElem?_getD, List.getD_eq_getElem?_getD, writeSector_getElem?_outside hfits (by omega)]
  rw [declaredSectorSize, declaredSectorSize, hbyte 4 (by decide), hbyte 5 (by decide)]

theorem readSector_writeSector (hdata : data.length = sectorBytes image n) :
    readSector (writeSector image n data) n = data := by
  obtain ⟨hbytes, hoffset⟩ := sectorBytes_congr (declaredSectorSize_writeSector hfits) n
  have hlength : (image.take (sectorOffset image n)).length = sectorOffset image n :=
    List.length_take_of_le (by omega)
  rw [readSector, hbytes, hoffset, ← hdata, writeSector, List.append_assoc, List.drop_left' hlength, List.take_left]

end

/-- Settles O30: a valid sector lies in the image, and the header that places it stays. -/
theorem sectorWriteReadsBack : Obligations.SectorWriteReadsBack := by
  intro image data n hvalid hdata
  simp only [sectorValid, Bool.and_eq_true, decide_eq_true_eq] at hvalid
  have hfits : sectorOffset image n + data.length ≤ image.length := hdata ▸ hvalid.2
  exact ⟨readSector_writeSector hfits hdata, length_writeSector hfits, fun _ => writeSector_getElem?_outside hfits⟩

/-! ### The checksum -/

/-- The running sum is a byte, keeps its residue modulo 255, and is 0 only if it was 0 and the byte is (R410). -/
theorem checksumStep_spec {sum : Nat} (hsum : sum ≤ 255) (b : Byte) :
    checksumStep sum b ≤ 255 ∧ checksumStep sum b % 255 = (sum + b.toNat) % 255 ∧
      (checksumStep sum b = 0 ↔ sum = 0 ∧ b = 0) := by
  have hb := b.isLt
  have hzero : b = 0 ↔ b.toNat = 0 := BitVec.toNat_inj.symm
  rw [hzero]
  unfold checksumStep
  dsimp only
  split_ifs <;> omega

theorem foldl_checksumStep_spec (bytes : List Byte) {sum : Nat} (hsum : sum ≤ 255) :
    let total := bytes.foldl checksumStep sum
    total ≤ 255 ∧ total % 255 = (sum + (bytes.map BitVec.toNat).sum) % 255 ∧
      (total = 0 ↔ sum = 0 ∧ ∀ b ∈ bytes, b = 0) := by
  induction bytes generalizing sum with
  | nil => simpa using hsum
  | cons b bytes ih =>
    obtain ⟨hstep, hresidue, hzero⟩ := checksumStep_spec hsum b
    obtain ⟨htotal, hmod, hall⟩ := ih hstep
    refine ⟨htotal, ?_, ?_⟩
    · rw [List.foldl_cons, hmod, Nat.add_mod, hresidue, ← Nat.add_mod, List.map_cons, List.sum_cons, Nat.add_assoc]
    · rw [List.foldl_cons, hall, hzero, List.forall_mem_cons, and_assoc]

/-- Settles O31: the running sum from 0, which a byte holds. -/
theorem sioChecksumIsModularSum : Obligations.SioChecksumIsModularSum := by
  intro bytes
  obtain ⟨hbyte, hmod, hzero⟩ := foldl_checksumStep_spec bytes (Nat.zero_le 255)
  have htoNat : (sioChecksum bytes).toNat = bytes.foldl checksumStep 0 :=
    (BitVec.toNat_ofNat _ _).trans (Nat.mod_eq_of_lt (Nat.lt_succ_of_le hbyte))
  refine ⟨?_, ?_⟩
  · rw [htoNat, hmod, Nat.zero_add]
  · rw [← BitVec.toNat_inj, htoNat]
    exact hzero.trans (and_iff_right rfl)

end Sys2Proof.Machine
end
